-- ==== Sys2Proof/Word.lean ====
section
/-! DEFINITION. The machine's word types and the two record types its constants and arrays are made of. -/

namespace Sys2Proof

/-- A command word and a word of the register window: 32 bits (R62, R90). -/
abbrev Word := BitVec 32

/-- A word address of the register window: 2^16 words (R62). -/
abbrev Addr := BitVec 16

/-- A leaf's symbol field: 9 bits, 0..256 legal (R29, R83). -/
abbrev Sym := BitVec 9

/-- The index of a symbol's entry in FREQ and in the code table: 0..256 (R8, R28, R32). -/
abbrev SymIdx := Fin 257

/-- A node index register: 10 bits (R27, R29). -/
abbrev NodeIdx := BitVec 10

/-- A frequency entry, held at the widest W_COUNT the spec allows, 32 bits (R9, R28). -/
abbrev Count := BitVec 32

/-- A node weight, held at the widest W_WEIGHT = W_COUNT + 9 the spec allows, 41 bits (R10, R29). -/
abbrev Weight := BitVec 41

/-- An event counter or a stream position: 64 bits (R10, R26). -/
abbrev Ctr := BitVec 64

/-- The sentinel, symbol 256 (R8), as a 9-bit symbol. -/
def sentinelSym : Sym := 256#9

/-- The sentinel, symbol 256 (R8), as an index of FREQ and of the code table. -/
def sentinelIdx : SymIdx := 256

/-- NODE_CAP = 513, the arena size (R30). -/
def nodeCap : Nat := 513

/-- One entry of the node arena (R29). -/
structure Node where
  /-- LEAF: true is Leaf, false is Internal. -/
  leaf  : Bool
  /-- SYM: the leaf's symbol, 0 in an internal node. -/
  sym   : Sym
  /-- W: the weight. -/
  w     : Weight
  /-- LEFT: index of the left child, 0 in a leaf. -/
  left  : NodeIdx
  /-- RIGHT: index of the right child, 0 in a leaf. -/
  right : NodeIdx
  deriving DecidableEq, Repr, Inhabited

/-- `Leaf(SYM = s, W = w)` of R149. -/
def Node.mkLeaf (s : Sym) (w : Weight) : Node :=
  { leaf := true, sym := s, w := w, left := 0, right := 0 }

/-- `Internal(W = w, LEFT = l, RIGHT = r)` of R149. -/
def Node.mkInternal (w : Weight) (l r : NodeIdx) : Node :=
  { leaf := false, sym := 0, w := w, left := l, right := r }

/-- The parameters of R9, fixed for one machine: MAGIC, any 32-bit value, and W_COUNT, 1..32.
W_COUNT is held as W_COUNT - 1 in 0..31, so that no value outside the range can be written. -/
structure Params where
  magic       : Word
  wCountMinus1 : Fin 32
  deriving DecidableEq, Repr

/-- W_COUNT, 1..32 (R9). -/
def Params.wCount (p : Params) : Nat := p.wCountMinus1.val + 1

/-- W_WEIGHT = W_COUNT + 9 (R10, R31). -/
def Params.wWeight (p : Params) : Nat := p.wCount + 9

end Sys2Proof
end

