-- ==== Sys2Proof/Machine/Bits.lean ====
section
/-! DEFINITION. Bit sequences (R11): a sequence is a list of Bool, first bit first; the first bit of a field is its most
significant one (R57). -/

namespace Sys2Proof.Machine

/-- `bits_n(v)` of R11: bit n-1 of v first, bit 0 last. -/
def bitsOf : Nat → Nat → List Bool
  | 0, _ => []
  | n + 1, v => v.testBit n :: bitsOf n v

/-- `val(b)` of R11: the value of a sequence read most significant bit first, `val([]) = 0`. -/
def valOf (b : List Bool) : Nat := b.foldl (fun acc x => 2 * acc + x.toNat) 0

/-- The sequence of 8-bit fields a byte sequence makes, bit 7 of each byte first (R58, R97). -/
def bitsOfBytes : List (BitVec 8) → List Bool
  | [] => []
  | b :: bs => bitsOf 8 b.toNat ++ bitsOfBytes bs

end Sys2Proof.Machine
end

