-- ==== Sys2Proof/Syntax.lean ====
section
/-! DEFINITION. The instructions: one constructor per row of spec/opcode_table.json. The first ten are the commands of the
command port (R92); the last two are the header tokens (R81), which stand on the IN stream and never on the command port. -/

namespace Sys2Proof

/-- The rows of the opcode table. No command has an operand (R94); a leaf token carries its 9-bit symbol (R83). -/
inductive Instr where
  /-- NOP, word 0x00000000 (R115). -/
  | nop
  /-- CLEAR, word 0x00000001 (R116). -/
  | clear
  /-- COUNT, word 0x00000002 (R132). -/
  | count
  /-- BUILD, word 0x00000003 (R149). -/
  | build
  /-- DERIVE, word 0x00000004 (R161). -/
  | derive
  /-- WRHDR, word 0x00000005 (R171). -/
  | wrhdr
  /-- RDHDR, word 0x00000006 (R183). -/
  | rdhdr
  /-- ENCODE, word 0x00000007 (R201). -/
  | encode
  /-- DECODE, word 0x00000008 (R211). -/
  | decode
  /-- FLUSH, word 0x00000009 (R117). -/
  | flush
  /-- HDR_INTERNAL, the header token `0` (R81). -/
  | hdrInternal
  /-- HDR_LEAF, the header token `1sssssssss` (R81). -/
  | hdrLeaf (sym : Sym)
  deriving DecidableEq, Repr

/-- The instruction is a command, not a header token. -/
def Instr.isCommand : Instr → Bool
  | .nop => true
  | .clear => true
  | .count => true
  | .build => true
  | .derive => true
  | .wrhdr => true
  | .rdhdr => true
  | .encode => true
  | .decode => true
  | .flush => true
  | .hdrInternal => false
  | .hdrLeaf _ => false

end Sys2Proof
end

