-- ==== Sys2Proof/WellFormed.lean ====
section
/-! DEFINITION. Well-formed instructions: the one operand of the table, a leaf token's symbol, is at most 256 (R83). -/

namespace Sys2Proof

/-- R83: values 0..255 are data symbols and 256 is the sentinel; 257..511 spell no symbol. -/
def symLegal (y : Sym) : Bool := decide (y.toNat ≤ 256)

/-- The only check an instruction needs: a leaf token's symbol is a symbol (R83). Commands have no operand (R94). -/
def Instr.wf : Instr → Bool
  | .nop => true
  | .clear => true
  | .count => true
  | .build => true
  | .derive => true
  | .wrhdr => true
  | .rdhdr => true
  | .encode => true
  | .decode => true
  | .flush => true
  | .hdrInternal => true
  | .hdrLeaf y => symLegal y

end Sys2Proof
end

