-- ==== Sys2Proof/Decode.lean ====
section
/-! DEFINITION. The command decoder (R91 to R96), the header-token decoder (R81, R89), and after them the encoder. -/

namespace Sys2Proof

open Sys2Proof.Machine (bitsOf valOf)

/-- Why bits spell no instruction. -/
inductive DecodeError where
  /-- A command word with RSV ≠ 0 or OP in 0x0A..0xFF (R93). -/
  | illegalCommand
  /-- No bit is left where a header token should begin (R184). -/
  | noToken
  /-- A leaf flag with fewer than 9 bits after it (R184). -/
  | cutLeaf
  /-- `decodeTableWord` was given a width no row of the table has. -/
  | noSuchWidth
  deriving DecidableEq, Repr

/-- One row of the opcode table's command part: R96, every mask is 0xFFFFFFFF. -/
structure OpRow where
  mask  : Word
  value : Word
  instr : Instr
  deriving DecidableEq, Repr

/-- The ten command rows of R92. -/
def opcodeTable : List OpRow :=
  [ { mask := 0xFFFFFFFF#32, value := 0x00000000#32, instr := .nop },
    { mask := 0xFFFFFFFF#32, value := 0x00000001#32, instr := .clear },
    { mask := 0xFFFFFFFF#32, value := 0x00000002#32, instr := .count },
    { mask := 0xFFFFFFFF#32, value := 0x00000003#32, instr := .build },
    { mask := 0xFFFFFFFF#32, value := 0x00000004#32, instr := .derive },
    { mask := 0xFFFFFFFF#32, value := 0x00000005#32, instr := .wrhdr },
    { mask := 0xFFFFFFFF#32, value := 0x00000006#32, instr := .rdhdr },
    { mask := 0xFFFFFFFF#32, value := 0x00000007#32, instr := .encode },
    { mask := 0xFFFFFFFF#32, value := 0x00000008#32, instr := .decode },
    { mask := 0xFFFFFFFF#32, value := 0x00000009#32, instr := .flush } ]

/-- The command decoder, total (R96): the row whose masked word equals w, or illegal. -/
def decodeCommand (w : Word) : Except DecodeError Instr :=
  match opcodeTable.find? (fun r => w &&& r.mask == r.value) with
  | some r => .ok r.instr
  | none => .error .illegalCommand

/-- The header-token decoder (R81, R89): a token's length is told by its first bit. It answers the token and the bits after
it. A symbol 257..511 is decoded, and the token's meaning refuses it as the spec says (R185). -/
def decodeToken : List Bool → Except DecodeError (Instr × List Bool)
  | [] => .error .noToken
  | false :: rest => .ok (.hdrInternal, rest)
  | true :: rest =>
    if rest.length < 9 then .error .cutLeaf
    else .ok (.hdrLeaf (BitVec.ofNat 9 (valOf (rest.take 9))), rest.drop 9)

/-- What an instruction is spelt as: a word for the command port, or bits of the IN stream. -/
inductive Encoding where
  | command (w : Word)
  | token (bits : List Bool)
  deriving DecidableEq, Repr

/-- The word NOP (R92). -/
def wordNop : Word := 0x00000000#32
/-- The word CLEAR (R92). -/
def wordClear : Word := 0x00000001#32
/-- The word COUNT (R92). -/
def wordCount : Word := 0x00000002#32
/-- The word BUILD (R92). -/
def wordBuild : Word := 0x00000003#32
/-- The word DERIVE (R92). -/
def wordDerive : Word := 0x00000004#32
/-- The word WRHDR (R92). -/
def wordWrhdr : Word := 0x00000005#32
/-- The word RDHDR (R92). -/
def wordRdhdr : Word := 0x00000006#32
/-- The word ENCODE (R92). -/
def wordEncode : Word := 0x00000007#32
/-- The word DECODE (R92). -/
def wordDecode : Word := 0x00000008#32
/-- The word FLUSH (R92). -/
def wordFlush : Word := 0x00000009#32

/-- The encoder: R92 for the commands, R81 for the tokens. -/
def encode : Instr → Encoding
  | .nop => .command wordNop
  | .clear => .command wordClear
  | .count => .command wordCount
  | .build => .command wordBuild
  | .derive => .command wordDerive
  | .wrhdr => .command wordWrhdr
  | .rdhdr => .command wordRdhdr
  | .encode => .command wordEncode
  | .decode => .command wordDecode
  | .flush => .command wordFlush
  | .hdrInternal => .token [false]
  | .hdrLeaf y => .token (true :: bitsOf 9 y.toNat)

/-- Reading an encoding back; `rest` is what follows a token on the stream. -/
def decodeEncoding (e : Encoding) (rest : List Bool) : Except DecodeError (Instr × List Bool) :=
  match e with
  | .command w =>
    match decodeCommand w with
    | .ok i => .ok (i, rest)
    | .error e => .error e
  | .token bits => decodeToken (bits ++ rest)

/-- How the host lays out a table row's bits (log 6): 32 bits are a command word; up to 8 bits are the one-bit token
pattern, 9 to 16 bits the ten-bit token pattern, each read as one number whose most significant bit comes first on the
stream. -/
def layoutTableWord (nbits w : Nat) : Except DecodeError Encoding :=
  if nbits = 32 then .ok (.command (BitVec.ofNat 32 w))
  else if 1 ≤ nbits ∧ nbits ≤ 8 then .ok (.token (bitsOf 1 w))
  else if 9 ≤ nbits ∧ nbits ≤ 16 then .ok (.token (bitsOf 10 w))
  else .error .noSuchWidth

/-- The instruction the decoder reads from a table row's bits. -/
def decodeTableWord (nbits w : Nat) : Option Instr :=
  match layoutTableWord nbits w with
  | .error _ => none
  | .ok e =>
    match decodeEncoding e [] with
    | .ok (i, _) => some i
    | .error _ => none

end Sys2Proof
end

