-- ==== Sys2Proof/Config.lean ====
section
/-! DEFINITION. What one HUFFCORE is configured with (R9, R34), and the free values of the model: constants with no body,
of which Lean can prove nothing. -/

namespace Sys2Proof

/-- MAGIC of the machine that `State.reset` describes: OPEN in the spec (R9, D4, U8), so no value is given (log 3). -/
opaque Config.magic : Word

/-- W_COUNT - 1 of the machine that `State.reset` describes: OPEN in the spec (R9, D6, U9), so no value is given (log 3). -/
opaque Config.wCountMinus1 : Fin 32

/-- ID = 0x48554631, the block identity word (R34). -/
def Config.ident : Word := 0x48554631#32

/-- The value the n-th host read sees in the bits the spec leaves `UNSPEC` (R12, R40, R65; U1 to U4; log 4). -/
opaque Config.unspecRead : Nat → Word

/-- What FREQ holds after the n-th event that leaves it unspecified (R28, R39, R116; U5; log 5). -/
opaque Config.unspecFreq : Nat → Vector Count 257

/-- What NODE holds after the n-th event that leaves it unspecified (R39, R116; U5; log 5). -/
opaque Config.unspecNode : Nat → Vector Node 513

/-- What CODE_LEN holds after the n-th event that leaves it unspecified (R39, R116; U5; log 5). -/
opaque Config.unspecCodeLen : Nat → Vector (BitVec 9) 257

/-- What CODE_VAL holds after the n-th event that leaves it unspecified (R39, R116; U5; log 5). -/
opaque Config.unspecCodeVal : Nat → Vector (BitVec 256) 257

end Sys2Proof
end

