-- ==== Sys2Proof/Machine/State.lean ====
section
/-! DEFINITION. The machine's state (10_state.md), the reasons a step can stop, and the state right after reset. -/

namespace Sys2Proof.Machine

/-- The STATUS flags of R22 but OUT_CLOSED, which stands in `OutPort` (R35) because reset does not touch it. -/
structure Flags where
  /-- BUSY: a command is executing. -/
  busy : Bool
  /-- DONE: the last accepted command other than NOP completed without error. -/
  done : Bool
  /-- ERR: a fatal error has occurred and not been cleared. -/
  err : Bool
  /-- FREQ_VALID. -/
  freqValid : Bool
  /-- TREE_VALID. -/
  treeValid : Bool
  /-- TREE_ORIGIN: false (0) a tree made by BUILD, true (1) by RDHDR. -/
  treeOrigin : Bool
  /-- CODES_VALID. -/
  codesValid : Bool
  /-- SENT: the last accepted command other than NOP was a DECODE that ended at the sentinel. -/
  sent : Bool
  deriving DecidableEq, Repr

/-- The error registers of R24. -/
structure ErrRegs where
  /-- ERRCODE. -/
  code : BitVec 8
  /-- ERRKIND. -/
  kind : BitVec 4
  /-- ERRCMD. -/
  cmd : BitVec 8
  /-- ERRPOS. -/
  pos : Ctr
  deriving DecidableEq, Repr

/-- The event counters of R26. -/
structure Counters where
  cntIn : Ctr
  cntOut : Ctr
  cntSym : Ctr
  cntSkip : Ctr
  deriving DecidableEq, Repr

/-- The tree registers of R27. -/
structure TreeRegs where
  root : NodeIdx
  nodeCount : NodeIdx
  leafCount : NodeIdx
  deriving DecidableEq, Repr

/-- The code table of R32: CODE_ENTRY, CODE_LEN, CODE_VAL. -/
structure CodeTable where
  entry : Vector Bool 257
  len : Vector (BitVec 9) 257
  val : Vector (BitVec 256) 257
  deriving DecidableEq, Repr

/-- The IN stream of R35. -/
structure InPort where
  bits : List Bool
  pos : Ctr
  deriving DecidableEq, Repr

/-- The OUT stream of R35 with its flag OUT_CLOSED (R22). -/
structure OutPort where
  bits : List Bool
  closed : Bool
  deriving DecidableEq, Repr

/-- An open internal node on the header reader's traversal stack (R36, R16): it waits for its left child, or has its left
child and waits for its right one. -/
inductive HdrFrame where
  | wantLeft (i : Fin 513)
  | wantRight (i : Fin 513) (l : NodeIdx)
  deriving DecidableEq, Repr

/-- The host's actions (R280). -/
inductive HostAction where
  /-- AttachIn(b). -/
  | attachIn (bits : List Bool)
  /-- AttachOut(). -/
  | attachOut
  /-- MemWrite(a, 4, v); at a = 0x0020 it issues the command word v. -/
  | memWrite (a : Addr) (v : Word)
  /-- MemRead(a, 4). -/
  | memRead (a : Addr)
  /-- read OUT.bits. -/
  | readOut
  /-- the hardware reset input. -/
  | reset
  deriving DecidableEq, Repr

/-- What a host action hands back to the host. -/
inductive HostObs where
  /-- the word a MemRead returned. -/
  | readback (a : Addr) (v : Word)
  /-- the bits a read of OUT.bits returned. -/
  | outRead (bits : List Bool)
  /-- the bits of the OUT stream an AttachOut replaced. -/
  | outHanded (bits : List Bool)
  deriving DecidableEq, Repr

/-- The host's side of the ports: the actions it has yet to take, in its program order (R66, R67), and what it has been
handed, newest first. The model's own field (log 2). -/
structure HostPort where
  queue : List HostAction
  log : List HostObs
  deriving DecidableEq, Repr

/-- Everything the spec gives the machine, and the host's side of its ports. -/
structure State where
  /-- The STATUS flags (R22). -/
  flags : Flags
  /-- ERRCODE, ERRKIND, ERRCMD, ERRPOS (R24). -/
  errs : ErrRegs
  /-- LASTCMD (R25). -/
  lastCmd : Word
  /-- CNT_IN, CNT_OUT, CNT_SYM, CNT_SKIP (R26). -/
  cnt : Counters
  /-- ROOT, NODE_COUNT, LEAF_COUNT (R27). -/
  tree : TreeRegs
  /-- FREQ[0..256] (R28). -/
  freq : Vector Count 257
  /-- NODE[0..512] (R29). -/
  node : Vector Node 513
  /-- CODE_ENTRY, CODE_LEN, CODE_VAL (R32). -/
  codes : CodeTable
  /-- MAGIC and W_COUNT (R9, R34). -/
  params : Params
  /-- IN (R35). -/
  inp : InPort
  /-- OUT and OUT_CLOSED (R35). -/
  out : OutPort
  /-- The header reader's traversal stack (R36): none outside a header read, so none at every command boundary (R39). -/
  hdrStack : Option (List HdrFrame)
  /-- The host's side of the ports (the model's own, log 2). -/
  host : HostPort
  /-- How many free values have been drawn so far (the model's own, logs 4 and 5). -/
  draws : Nat
  deriving DecidableEq, Repr

/-- The errors of R240. -/
inductive ErrCode where
  | magicMismatch
  | magicShort
  | hdrEos
  | payEos
  | hdrSymbol
  | hdrOversize
  | treeLeafRoot
  | illegalCmd
  | sequence
  | outClosed
  | countOvf
  deriving DecidableEq, Repr

/-- Why the model stops where the spec's invariants (R38) rule the state out. Every one is SAFE: the model stops in a state
the hardware is never in (log 7); no state with the invariants reaches one. -/
inductive Fault where
  /-- BUILD found no nonzero count although FREQ_VALID = 1, so PQ ends empty and ROOT has no value. Raised by BUILD. Safe:
  R133 makes FREQ[256] = 1 whenever FREQ_VALID = 1. -/
  | emptyFreqTable
  /-- A walk of the tree met a node index outside the arena or a leaf symbol above 256, or went deeper than NODE_CAP levels.
  Raised by DERIVE, WRHDR, DECODE, and by the header reader's own bound. Safe: R38 (e). -/
  | brokenTree
  /-- A pass over IN did not end within the accesses of R118. Raised by COUNT, ENCODE, DECODE. Safe: it needs an IN of 2^64
  bits or more, which R283 forbids the host to attach. -/
  | overlongStream
  /-- BUSY = 1 although no command is in progress. Raised by the step itself. Safe: R37. -/
  | strayBusy
  deriving DecidableEq, Repr

/-- Why the model gives no meaning. Every one is SAFE: the model stops. -/
inductive Refusal where
  /-- An instruction that has no meaning in this model yet. Raised by `exec`; no arm does so. -/
  | notModelled (mnemonic : String)
  /-- The host touched a stream while BUSY = 1 (R281, U6: "refuse: outside the model"). Raised by the step. Safe. -/
  | attachWhileBusy
  /-- AttachIn of 2^64 bits or more (R283 forbids it and states no effect). Raised by the host action. Safe. -/
  | inputTooLong
  /-- A header token was given to `exec` outside a header read: a token is no command (R70, R81). Raised by the two token
  meanings; the step never asks for it. Safe. -/
  | tokenOutsideHeader
  deriving DecidableEq, Repr

/-- Error registers holding no error (R24, R39). -/
def ErrRegs.none : ErrRegs := { code := 0, kind := 0, cmd := 0, pos := 0 }

/-- All four counters 0 (R26, R39). -/
def Counters.zero : Counters := { cntIn := 0, cntOut := 0, cntSym := 0, cntSkip := 0 }

/-- All three tree registers 0 (R27, R39). -/
def TreeRegs.zero : TreeRegs := { root := 0, nodeCount := 0, leafCount := 0 }

/-- The flags after reset: all 0 (R39). -/
def Flags.reset : Flags :=
  { busy := false, done := false, err := false, freqValid := false, treeValid := false, treeOrigin := false,
    codesValid := false, sent := false }

/-- The state right after power-on reset (R39, R270, R271). FREQ, NODE, CODE_LEN and CODE_VAL are unspecified there; the model
names zero for each (DESIGN CHOICE, log 1). MAGIC and W_COUNT are the machine's own (log 3). -/
def State.reset : State :=
  { flags := Flags.reset
    errs := ErrRegs.none
    lastCmd := 0
    cnt := Counters.zero
    tree := TreeRegs.zero
    freq := Vector.replicate 257 0
    node := Vector.replicate 513 (Node.mkInternal 0 0 0)
    codes := { entry := Vector.replicate 257 false, len := Vector.replicate 257 0, val := Vector.replicate 257 0 }
    params := { magic := Config.magic, wCountMinus1 := Config.wCountMinus1 }
    inp := { bits := [], pos := 0 }
    out := { bits := [], closed := false }
    hdrStack := Option.none
    host := { queue := [], log := [] }
    draws := 0 }

end Sys2Proof.Machine
end

