-- ==== Sys2Proof/Machine/Flags.lean ====
section
/-! DEFINITION. The flag computations: the prologue (R112), the preconditions (R113), completion (R114), what starts a call
(R131, R181), and the STATUS word (R62). -/

namespace Sys2Proof.Machine

/-- The prologue of R112 for an accepted word other than NOP: BUSY, LASTCMD, DONE, SENT and the counters. -/
def prologue (w : Word) (s : State) : State :=
  { s with
    flags := { s.flags with busy := true, done := false, sent := false }
    lastCmd := w
    cnt := Counters.zero }

/-- `Complete()` of R114. -/
def complete (s : State) : State := { s with flags := { s.flags with done := true, busy := false } }

/-- The check table of R113, in the order listed: none when every check of the command holds. -/
def precondition (i : Instr) (s : State) : Option ErrCode :=
  match i with
  | .build => if s.flags.freqValid then none else some .sequence
  | .derive => if s.flags.treeValid && !s.flags.treeOrigin then none else some .sequence
  | .wrhdr => if !s.flags.treeValid then some .sequence else if s.out.closed then some .outClosed else none
  | .encode => if !s.flags.codesValid then some .sequence else if s.out.closed then some .outClosed else none
  | .decode => if !s.flags.treeValid then some .sequence else if s.out.closed then some .outClosed else none
  | .nop => none
  | .clear => none
  | .count => none
  | .rdhdr => none
  | .flush => none
  | .hdrInternal => none
  | .hdrLeaf _ => none

/-- The four sequencing flags dropped: by COUNT (R131), RDHDR (R181), CLEAR (R116) and error capture (R250). -/
def Flags.dropValid (f : Flags) : Flags :=
  { f with freqValid := false, treeValid := false, treeOrigin := false, codesValid := false }

/-- The first action of COUNT (R131) and of RDHDR (R181): the previous call's state is discarded. -/
def startCall (s : State) : State := { s with flags := s.flags.dropValid, tree := TreeRegs.zero }

/-- `TREE_VALID <- 0 ; TREE_ORIGIN <- 0 ; CODES_VALID <- 0`, the first line of BUILD (R149). -/
def dropTree (s : State) : State :=
  { s with flags := { s.flags with treeValid := false, treeOrigin := false, codesValid := false } }

/-- The STATUS word of R62. -/
def statusWord (s : State) : Word :=
  (0 : BitVec 23) ++ BitVec.ofBool s.out.closed ++ BitVec.ofBool s.flags.sent ++ BitVec.ofBool s.flags.codesValid
    ++ BitVec.ofBool s.flags.treeOrigin ++ BitVec.ofBool s.flags.treeValid ++ BitVec.ofBool s.flags.freqValid
    ++ BitVec.ofBool s.flags.err ++ BitVec.ofBool s.flags.done ++ BitVec.ofBool s.flags.busy

/-- The level output `done_o = DONE` (R247). -/
def doneO (s : State) : Bool := s.flags.done

/-- The level output `err_o = ERR` (R247). -/
def errO (s : State) : Bool := s.flags.err

end Sys2Proof.Machine
end

