-- ==== Sys2Proof/Machine/Operands.lean ====
section
/-! DEFINITION. The implicit operands of the commands (R94, R95): the stream accesses of R52 to R56, and the typed indexes of
the three arrays. -/

namespace Sys2Proof.Machine

/-- Bits of IN that have not been read yet. -/
def State.restIn (s : State) : List Bool := s.inp.bits.drop s.inp.pos.toNat

/-- How many bits of IN have not been read yet. -/
def State.remaining (s : State) : Nat := s.inp.bits.length - s.inp.pos.toNat

/-- The part of a successful read that changes state: IN.pos and CNT_IN advance by n (R52, modulo 2^64 by R26). -/
def consumeIn (n : Nat) (s : State) : State :=
  { s with
    inp := { s.inp with pos := s.inp.pos + BitVec.ofNat 64 n }
    cnt := { s.cnt with cntIn := s.cnt.cntIn + BitVec.ofNat 64 n } }

/-- `ReadBits(n)` (R52): none is `EXHAUSTED`, which consumes nothing; the first bit read is bit n-1 of the value (R57). -/
def readBits (n : Nat) (s : State) : Option (BitVec n × State) :=
  if s.remaining < n then none
  else some (BitVec.ofNat n (valOf (s.restIn.take n)), consumeIn n s)

/-- `WriteBits(n, v)` (R54): appends `bits_n(v)` to OUT and adds n to CNT_OUT. -/
def writeBits (n v : Nat) (s : State) : State :=
  { s with
    out := { s.out with bits := s.out.bits ++ bitsOf n v }
    cnt := { s.cnt with cntOut := s.cnt.cntOut + BitVec.ofNat 64 n } }

/-- `InRewind()` (R55). -/
def inRewind (s : State) : State := { s with inp := { s.inp with pos := 0 } }

/-- `OutClose()` (R56). -/
def outClose (s : State) : State := { s with out := { s.out with closed := true } }

/-- `CNT_SYM <- CNT_SYM + 1`. -/
def countSym (s : State) : State := { s with cnt := { s.cnt with cntSym := s.cnt.cntSym + 1 } }

/-- `CNT_SKIP <- CNT_SKIP + 1`. -/
def countSkip (s : State) : State := { s with cnt := { s.cnt with cntSkip := s.cnt.cntSkip + 1 } }

/-- A byte read from IN as an index of FREQ and of the code table: an 8-bit read cannot return 256 (R133). -/
def byteIdx (r : BitVec 8) : SymIdx := ⟨r.toNat, by omega⟩

/-- A leaf symbol as an index of FREQ and of the code table; none for 257..511, which spell no symbol (R83). -/
def symIdx (y : Sym) : Option SymIdx := if h : y.toNat < 257 then some ⟨y.toNat, h⟩ else none

/-- A node index as an index of the arena; none for 513..1023, which name no entry (R29, R30). -/
def arenaIdx (i : NodeIdx) : Option (Fin 513) := if h : i.toNat < 513 then some ⟨i.toNat, h⟩ else none

/-- The 10-bit register form of an arena index. -/
def nodeIdx (i : Fin 513) : NodeIdx := BitVec.ofNat 10 i.val

/-- `NODE[i]`, none where the index names no entry. -/
def nodeAt (node : Vector Node 513) (i : NodeIdx) : Option Node :=
  match arenaIdx i with
  | some k => some node[k]
  | none => none

/-- The symbols 0..256 in ascending order. -/
def allSyms : List SymIdx := List.finRange 257

/-- The symbols in ascending order, each with its entry of a frequency table. -/
def symCounts (freq : Vector Count 257) : List (SymIdx × Count) := allSyms.zip freq.toList

/-- `2^W_COUNT - 1`, the largest value a frequency entry can hold (R134). -/
def maxCount (p : Params) : Count := BitVec.ofNat 32 (2 ^ p.wCount - 1)

/-- `FREQ[k] <- FREQ[k] + 1`. -/
def bumpFreq (k : SymIdx) (s : State) : State := { s with freq := s.freq.set k (s.freq[k] + 1) }

/-- `CODE_ENTRY[k] <- 1 ; CODE_LEN[k] <- l ; CODE_VAL[k] <- v` (R161). -/
def CodeTable.put (c : CodeTable) (k : SymIdx) (l : BitVec 9) (v : BitVec 256) : CodeTable :=
  { entry := c.entry.set k true, len := c.len.set k l, val := c.val.set k v }

/-- `for s in 0..256 do CODE_ENTRY[s] <- 0` (R161). -/
def CodeTable.noEntries (c : CodeTable) : CodeTable := { c with entry := Vector.replicate 257 false }

/-- `number of s with CODE_ENTRY[s] = 1` (R161). -/
def CodeTable.countEntries (c : CodeTable) : Nat := (c.entry.toList.filter id).length

end Sys2Proof.Machine
end

