-- ==== Sys2Proof/Machine/Ops.lean ====
section
/-! DEFINITION. The shared operations: error capture (R250) and the way back from it (R251), reset (R270), how a body ends,
and the execution of a command word (R112). -/

namespace Sys2Proof.Machine

/-- The value of ERRCODE for each error (R240). -/
def ErrCode.number : ErrCode → BitVec 8
  | .magicMismatch => 0x01
  | .magicShort => 0x02
  | .hdrEos => 0x03
  | .payEos => 0x04
  | .hdrSymbol => 0x05
  | .hdrOversize => 0x06
  | .treeLeafRoot => 0x07
  | .illegalCmd => 0x10
  | .sequence => 0x11
  | .outClosed => 0x12
  | .countOvf => 0x13

/-- `kind(code)`, the value of ERRKIND for each error (R241). -/
def ErrCode.kind : ErrCode → BitVec 4
  | .magicMismatch => 1
  | .magicShort => 1
  | .hdrEos => 2
  | .payEos => 2
  | .hdrSymbol => 2
  | .hdrOversize => 2
  | .treeLeafRoot => 2
  | .illegalCmd => 3
  | .sequence => 3
  | .outClosed => 3
  | .countOvf => 4

/-- Error capture (R250), the machine's one way of taking an exception: the error registers are written, every valid flag is
dropped and BUSY falls. DONE and SENT stay as the prologue left them. The header reader's stack does not outlive its command
(R36). -/
def raise (e : ErrCode) (s : State) : State :=
  { s with
    flags := { s.flags.dropValid with err := true, busy := false }
    errs := { code := e.number, kind := e.kind, cmd := s.lastCmd.extractLsb' 0 8, pos := s.inp.pos }
    hdrStack := none }

/-- FREQ, NODE, CODE_LEN and CODE_VAL become unspecified: each takes a free value, FREQ and the weights within their widths
W_COUNT and W_WEIGHT (R28, R29; R39, R116, U5; log 5). -/
def forgetArrays (s : State) : State :=
  { s with
    freq := (Config.unspecFreq s.draws).map (fun x => x &&& maxCount s.params)
    node := (Config.unspecNode s.draws).map
      (fun n => { n with w := n.w &&& BitVec.ofNat 41 (2 ^ s.params.wWeight - 1) })
    codes := { s.codes with len := Config.unspecCodeLen s.draws, val := Config.unspecCodeVal s.draws }
    draws := s.draws + 1 }

/-- The way back from the error state, the body of CLEAR (R116, R251). CODE_ENTRY goes to its reset value 0, as "the state
after CLEAR equals the reset state" says (log 8). -/
def returnToReset (s : State) : State :=
  { forgetArrays s with
    flags := { s.flags.dropValid with err := false }
    errs := ErrRegs.none
    tree := TreeRegs.zero
    codes := (forgetArrays s).codes.noEntries }

/-- The hardware reset (R270): every piece of state to R39's value; IN, OUT and OUT_CLOSED are the host's and stay, the
parameters stay, the unspecified arrays take free values (log 5). -/
def hardReset (s : State) : State :=
  { forgetArrays s with
    flags := Flags.reset
    errs := ErrRegs.none
    lastCmd := 0
    cnt := Counters.zero
    tree := TreeRegs.zero
    codes := (forgetArrays s).codes.noEntries
    hdrStack := none }

/-- How a command's body ends. -/
inductive Ran where
  /-- It ran to its end (`return`). -/
  | done (s : State)
  /-- It met `raise Error(e)`, with every effect so far in place (R15, R248). -/
  | raised (e : ErrCode) (s : State)
  /-- The state broke an invariant of R38 (log 7). -/
  | broken (f : Fault)
  deriving Repr

/-- `Complete()` after a normal end (R114), error capture after a raise (R250). -/
def Ran.finish : Ran → Host.Outcome State Fault Refusal
  | .done t => .next (complete t)
  | .raised e t => .next (raise e t)
  | .broken f => .fault f

/-- `Execute(w)` of R112 for a word that is a command other than NOP: discarded while ERR = 1 unless it is CLEAR (R111), else
the prologue, the checks, the body and the completion. -/
def runCommand (w : Word) (check : State → Option ErrCode) (body : State → Ran) (s : State) :
    Host.Outcome State Fault Refusal :=
  if s.flags.err && w != wordClear then .next s
  else
    match check (prologue w s) with
    | some e => .next (raise e (prologue w s))
    | none => (body (prologue w s)).finish

/-- `Execute(w)` of R112 for an illegal word (R93): discarded while ERR = 1, else E_ILLEGAL_CMD. -/
def execIllegal (w : Word) (s : State) : Host.Outcome State Fault Refusal :=
  if s.flags.err then .next s else .next (raise .illegalCmd (prologue w s))

end Sys2Proof.Machine
end

