-- ==== Sys2Proof/Machine/Building.lean ====
section
/-! DEFINITION. The tree builder: BUILD (42_tree_builder.md). -/

namespace Sys2Proof.Machine

/-- An entry (w, q, i) of PQ (R144): weight, sequence number, node index. -/
structure PqEntry where
  w : Weight
  q : Nat
  i : NodeIdx
  deriving DecidableEq, Repr

/-- The transient state of BUILD (R36): the arena being written, PQ as a set of entries, and SEQ. -/
structure BuildCtx where
  node : Vector Node 513
  pq : List PqEntry
  seq : Nat
  deriving DecidableEq, Repr

/-- The order of R144: by weight, then by sequence number. -/
def PqEntry.before (a b : PqEntry) : Bool := decide (a.w.toNat < b.w.toNat) || (decide (a.w.toNat = b.w.toNat) && decide (a.q < b.q))

/-- `RemoveMin(PQ)` of R144: the entry with the smallest key and the set without it. -/
def removeMin : List PqEntry → Option (PqEntry × List PqEntry)
  | [] => none
  | e :: rest =>
    match removeMin rest with
    | none => some (e, [])
    | some (m, rest') => if m.before e then some (m, e :: rest') else some (e, rest)

/-- A node is written at index SEQ and entered in PQ with sequence number SEQ (R147, R149). -/
def BuildCtx.add (c : BuildCtx) (n : Node) : BuildCtx :=
  { node := c.node.setIfInBounds c.seq n
    pq := { w := n.w, q := c.seq, i := BitVec.ofNat 10 c.seq } :: c.pq
    seq := c.seq + 1 }

/-- The leaf of a symbol (R141). -/
def leafOf (freq : Vector Count 257) (k : SymIdx) : Node :=
  Node.mkLeaf (BitVec.ofNat 9 k.val) (freq[k].setWidth 41)

/-- `LS` of R149: the symbols with a nonzero count, ascending (R141). -/
def liveSyms (freq : Vector Count 257) : List SymIdx := ((symCounts freq).filter (fun p => p.2 != 0)).map (·.1)

/-- The leaves BUILD inserts, in insertion order (R141): with exactly one live symbol the padding leaf comes first (R143). -/
def initialLeaves (freq : Vector Count 257) : List Node :=
  let ls := liveSyms freq
  if ls.length = 1 then Node.mkLeaf 0 0 :: ls.map (leafOf freq) else ls.map (leafOf freq)

/-- The merge loop of R149: the first entry removed is the left child, the second the right (R145, R146). -/
def mergeLoop : Nat → BuildCtx → BuildCtx
  | 0, c => c
  | fuel + 1, c =>
    match removeMin c.pq with
    | none => c
    | some (a, pq1) =>
      match removeMin pq1 with
      | none => c
      | some (b, pq2) => mergeLoop fuel ({ c with pq := pq2 }.add (Node.mkInternal (a.w + b.w) a.i b.i))

/-- The body of BUILD (R149, R148). -/
def buildBody (s : State) : Ran :=
  let s := dropTree s
  let leaves := initialLeaves s.freq
  let c := leaves.foldl BuildCtx.add { node := s.node, pq := [], seq := 0 }
  let m := mergeLoop c.pq.length c
  match m.pq with
  | [e] =>
    .done { s with
      node := m.node
      tree := { root := e.i, nodeCount := BitVec.ofNat 10 m.seq, leafCount := BitVec.ofNat 10 leaves.length }
      flags := { s.flags with treeValid := true } }
  | _ => .broken .emptyFreqTable

/-- BUILD (R149). -/
def execBuild (s : State) : Host.Outcome State Fault Refusal :=
  runCommand wordBuild (precondition .build) buildBody s

end Sys2Proof.Machine
end

