-- ==== Sys2Proof/Machine/Coding.lean ====
section
/-! DEFINITION. The stream encoder and decoder: ENCODE (46_stream_encoder.md), DECODE (47_stream_decoder.md). -/

namespace Sys2Proof.Machine

/-- `WriteBits(CODE_LEN[k], CODE_VAL[k])` (R87, R201). -/
def writeCode (k : SymIdx) (s : State) : State := writeBits s.codes.len[k].toNat s.codes.val[k].toNat s

/-- The loop of R201, within `fuel` reads; a byte with no code entry is skipped and counted (R202). -/
def encodeLoop : Nat → State → Ran
  | 0, _ => .broken .overlongStream
  | fuel + 1, s =>
    match readBits 8 s with
    | none => .done s
    | some (r, s1) =>
      if s1.codes.entry[byteIdx r] then encodeLoop fuel (countSym (writeCode (byteIdx r) s1))
      else encodeLoop fuel (countSkip s1)

/-- The body of ENCODE (R201): rewind, the pass, then the terminator (R203). -/
def encodeBody (s : State) : Ran :=
  match encodeLoop (s.inp.bits.length / 8 + 1) (inRewind s) with
  | .done t => .done (writeCode sentinelIdx t)
  | .raised e t => .raised e t
  | .broken f => .broken f

/-- ENCODE (R201). -/
def execEncode (s : State) : Host.Outcome State Fault Refusal :=
  runCommand wordEncode (precondition .encode) encodeBody s

/-- The loop of R211, within `fuel` reads: `ptr` is PTR (R36), and each turn is one transition of R218. -/
def decodeLoop : Nat → NodeIdx → State → Ran
  | 0, _, _ => .broken .overlongStream
  | fuel + 1, ptr, s =>
    match readBits 1 s with
    | none => .raised .payEos s
    | some (b, s1) =>
      match nodeAt s1.node ptr with
      | none => .broken .brokenTree
      | some n =>
        let p := if b = 0 then n.left else n.right
        match nodeAt s1.node p with
        | none => .broken .brokenTree
        | some c =>
          if c.leaf then
            if c.sym = sentinelSym then .done { s1 with flags := { s1.flags with sent := true } }
            else decodeLoop fuel s1.tree.root (countSym (writeBits 8 c.sym.toNat s1))
          else decodeLoop fuel p s1

/-- The body of DECODE (R211): a leaf root is refused before any read (R212); at most one read per bit left and one more
(R118). -/
def decodeBody (s : State) : Ran :=
  match nodeAt s.node s.tree.root with
  | none => .broken .brokenTree
  | some r => if r.leaf then .raised .treeLeafRoot s else decodeLoop (s.remaining + 1) s.tree.root s

/-- DECODE (R211). -/
def execDecode (s : State) : Host.Outcome State Fault Refusal :=
  runCommand wordDecode (precondition .decode) decodeBody s

end Sys2Proof.Machine
end

