-- ==== Sys2Proof/Machine/Control.lean ====
section
/-! DEFINITION. The control commands: NOP, CLEAR, FLUSH (40_dispatch_and_control.md). -/

namespace Sys2Proof.Machine

/-- NOP (R115): no state change, whether executed or discarded. -/
def execNop (s : State) : Host.Outcome State Fault Refusal := .next s

/-- CLEAR (R116): accepted even while ERR = 1. -/
def execClear (s : State) : Host.Outcome State Fault Refusal :=
  runCommand wordClear (precondition .clear) (fun t => .done (returnToReset t)) s

/-- FLUSH (R117). -/
def execFlush (s : State) : Host.Outcome State Fault Refusal :=
  runCommand wordFlush (precondition .flush) (fun t => .done (outClose t)) s

end Sys2Proof.Machine
end

