-- ==== Sys2Proof/Machine/Counting.lean ====
section
/-! DEFINITION. The frequency counter: COUNT (41_frequency_counter.md). -/

namespace Sys2Proof.Machine

/-- The loop of R132, within `fuel` reads. -/
def countLoop : Nat → State → Ran
  | 0, _ => .broken .overlongStream
  | fuel + 1, s =>
    match readBits 8 s with
    | none => .done s
    | some (r, s1) =>
      if s1.freq[byteIdx r] = maxCount s1.params then .raised .countOvf s1
      else countLoop fuel (countSym (bumpFreq (byteIdx r) s1))

/-- `for s in 0..256 do FREQ[s] <- 0` (R132). -/
def zeroFreq (s : State) : State := { s with freq := Vector.replicate 257 0 }

/-- `FREQ[256] <- 1 ; FREQ_VALID <- 1` (R132, R133). -/
def finishCount (s : State) : State :=
  { s with freq := s.freq.set sentinelIdx 1, flags := { s.flags with freqValid := true } }

/-- The body of COUNT (R132): at most floor(remaining / 8) + 1 reads (R118). -/
def countBody (s : State) : Ran :=
  match countLoop (s.remaining / 8 + 1) (zeroFreq (startCall s)) with
  | .done t => .done (finishCount t)
  | .raised e t => .raised e t
  | .broken f => .broken f

/-- COUNT (R132). -/
def execCount (s : State) : Host.Outcome State Fault Refusal :=
  runCommand wordCount (precondition .count) countBody s

end Sys2Proof.Machine
end

