-- ==== Sys2Proof/Machine/Deriving.lean ====
section
/-! DEFINITION. The code table deriver: DERIVE (43_code_table.md). -/

namespace Sys2Proof.Machine

/-- `Visit(i, l, v)` of R161, within `fuel` levels: left subtree first (R163); none where the arena is no tree (log 7). -/
def visit (freq : Vector Count 257) (node : Vector Node 513) :
    Nat → NodeIdx → BitVec 9 → BitVec 256 → CodeTable → Option CodeTable
  | 0, _, _, _, _ => none
  | fuel + 1, i, l, v, c =>
    match nodeAt node i with
    | none => none
    | some n =>
      if n.leaf then
        match symIdx n.sym with
        | none => none
        | some k => if freq[k] != 0 then some (c.put k l v) else some c
      else
        match visit freq node fuel n.left (l + 1) (v <<< 1) c with
        | none => none
        | some c1 => visit freq node fuel n.right (l + 1) ((v <<< 1) + 1) c1

/-- The body of DERIVE (R161). -/
def deriveBody (s : State) : Ran :=
  match visit s.freq s.node nodeCap s.tree.root 0 0 s.codes.noEntries with
  | none => .broken .brokenTree
  | some c =>
    .done { s with
      codes := c
      cnt := { s.cnt with cntSym := BitVec.ofNat 64 c.countEntries }
      flags := { s.flags with codesValid := true } }

/-- DERIVE (R161). `CODES_VALID <- 0` at the body's start is overwritten on every path that answers a state. -/
def execDerive (s : State) : Host.Outcome State Fault Refusal :=
  runCommand wordDerive (precondition .derive) deriveBody s

end Sys2Proof.Machine
end

