-- ==== Sys2Proof/Machine/Header.lean ====
section
/-! DEFINITION. The header codec: WRHDR (44_header_write.md), RDHDR (45_header_read.md) and the two header tokens (R81). -/

namespace Sys2Proof.Machine

/-- `Ser(i)` of R171, within `fuel` levels: preorder, left before right (R172); none where the arena is no tree (log 7). -/
def ser (node : Vector Node 513) : Nat → NodeIdx → State → Option State
  | 0, _, _ => none
  | fuel + 1, i, s =>
    match nodeAt node i with
    | none => none
    | some n =>
      if n.leaf then some (writeBits 9 n.sym.toNat (writeBits 1 1 s))
      else
        match ser node fuel n.left (writeBits 1 0 s) with
        | none => none
        | some s1 => ser node fuel n.right s1

/-- The body of WRHDR (R171): the magic, then the header. -/
def wrhdrBody (s : State) : Ran :=
  match ser s.node nodeCap s.tree.root (writeBits 32 s.params.magic.toNat s) with
  | none => .broken .brokenTree
  | some t => .done t

/-- WRHDR (R171). -/
def execWrhdr (s : State) : Host.Outcome State Fault Refusal :=
  runCommand wordWrhdr (precondition .wrhdr) wrhdrBody s

/-- `ROOT <- Des() ; TREE_VALID <- 1 ; TREE_ORIGIN <- 1` (R183): the header has ended with its root at index c. -/
def headerDone (c : NodeIdx) (s : State) : State :=
  { s with
    tree := { s.tree with root := c }
    flags := { s.flags with treeValid := true, treeOrigin := true }
    hdrStack := none }

/-- `Des()` returns index c to the node that waits for it (R183): a left child is remembered; a right child completes its
parent, `NODE[i].LEFT <- l ; NODE[i].RIGHT <- r`, which returns in its turn. With no node waiting the header has ended
(R84). -/
def returnChild : List HdrFrame → NodeIdx → State → State
  | [], c, s => headerDone c s
  | .wantLeft i :: below, c, s => { s with hdrStack := some (.wantRight i c :: below) }
  | .wantRight i l :: below, c, s =>
    returnChild below (nodeIdx i) { s with node := s.node.set i { s.node[i] with left := l, right := c } }

/-- `i <- NODE_COUNT ; NODE_COUNT <- NODE_COUNT + 1` of R183, after its capacity check: none is a full arena (R186), asked as
NODE_COUNT ≥ NODE_CAP, which for the counts of R27 (0..513) is NODE_COUNT = NODE_CAP. -/
def allocNode (s : State) : Option (Fin 513 × State) :=
  if h : s.tree.nodeCount.toNat < 513 then
    some (⟨s.tree.nodeCount.toNat, h⟩, { s with tree := { s.tree with nodeCount := s.tree.nodeCount + 1 } })
  else none

/-- `NODE[i] <- Internal(W = 0, LEFT = 0, RIGHT = 0)`, then the node waits for its left child (R183). -/
def openInternal (stack : List HdrFrame) (i : Fin 513) (s : State) : State :=
  { s with node := s.node.set i (Node.mkInternal 0 0 0), hdrStack := some (.wantLeft i :: stack) }

/-- `NODE[i] <- Leaf(SYM = s, W = 0) ; LEAF_COUNT <- LEAF_COUNT + 1`, then `Des()` returns (R183). -/
def closeLeaf (stack : List HdrFrame) (i : Fin 513) (y : Sym) (s : State) : State :=
  returnChild stack (nodeIdx i)
    { s with
      node := s.node.set i (Node.mkLeaf y 0)
      tree := { s.tree with leafCount := s.tree.leafCount + 1 } }

/-- One call of `Des()` up to its first recursive call or its return (R183): the flag read, the capacity check, the node, and
for a leaf the symbol read and its range check, in the order of R245. -/
def desToken (stack : List HdrFrame) (s : State) : Ran :=
  match readBits 1 s with
  | none => .raised .hdrEos s
  | some (f, s1) =>
    match allocNode s1 with
    | none => .raised .hdrOversize s1
    | some (i, s2) =>
      if f = 0 then .done (openInternal stack i s2)
      else
        match readBits 9 s2 with
        | none => .raised .hdrEos s2
        | some (y, s3) => if symLegal y then .done (closeLeaf stack i y s3) else .raised .hdrSymbol s3

/-- The tokens of a header until it ends, within `fuel` tokens. -/
def headerLoop : Nat → State → Ran
  | 0, _ => .broken .brokenTree
  | fuel + 1, s =>
    match s.hdrStack with
    | none => .done s
    | some stack =>
      match desToken stack s with
      | .done t => headerLoop fuel t
      | .raised e t => .raised e t
      | .broken f => .broken f

/-- The body of RDHDR (R183): the call's start (R181), the magic (R182), then the header: at most NODE_CAP tokens are
accepted (R186), so NODE_CAP + 1 turns of the loop always end it. -/
def rdhdrBody (s : State) : Ran :=
  let s := startCall s
  match readBits 32 s with
  | none => .raised .magicShort s
  | some (m, s1) =>
    if m != s1.params.magic then .raised .magicMismatch s1
    else headerLoop (nodeCap + 1) { s1 with hdrStack := some [] }

/-- RDHDR (R183). -/
def execRdhdr (s : State) : Host.Outcome State Fault Refusal :=
  runCommand wordRdhdr (precondition .rdhdr) rdhdrBody s

/-- Inside a header read the command ends when its stack is gone (R114), and goes on otherwise. -/
def settleHeader (s : State) : State :=
  match s.hdrStack with
  | none => complete s
  | some _ => s

/-- One token of a header read ends: as a command's body does, but a header that has not ended goes on. -/
def Ran.settle : Ran → Host.Outcome State Fault Refusal
  | .done t => .next (settleHeader t)
  | .raised e t => .next (raise e t)
  | .broken f => .fault f

/-- The header reader's own turn: one call of `desToken` (R183). -/
def readHeaderToken (s : State) : Host.Outcome State Fault Refusal :=
  match s.hdrStack with
  | none => .fault .strayBusy
  | some stack => (desToken stack s).settle

/-- HDR_INTERNAL (R81, R183): what the header reader does with the token `0` that stands next on IN. Its one bit is consumed;
a full arena raises E_HDR_OVERSIZE (R186); else the node is made and waits for its left child. -/
def execHdrInternal (s : State) : Host.Outcome State Fault Refusal :=
  match s.hdrStack with
  | none => .refused .tokenOutsideHeader
  | some stack =>
    match allocNode (consumeIn 1 s) with
    | none => .next (raise .hdrOversize (consumeIn 1 s))
    | some (i, s1) => .next (openInternal stack i s1)

/-- HDR_LEAF (R81, R183): what the header reader does with the token `1sssssssss` that stands next on IN. The flag bit is
consumed before the capacity check (R186) and the nine symbol bits before the range check (R185). -/
def execHdrLeaf (y : Sym) (s : State) : Host.Outcome State Fault Refusal :=
  match s.hdrStack with
  | none => .refused .tokenOutsideHeader
  | some stack =>
    match allocNode (consumeIn 1 s) with
    | none => .next (raise .hdrOversize (consumeIn 1 s))
    | some (i, s1) =>
      if symLegal y then .next (settleHeader (closeLeaf stack i y (consumeIn 9 s1)))
      else .next (raise .hdrSymbol (consumeIn 9 s1))

end Sys2Proof.Machine
end

