-- ==== Sys2Proof/Machine/Window.lean ====
section
/-! DEFINITION. The host register window (R62 to R65): addresses turned into registers, and what a read of each returns. -/

namespace Sys2Proof.Machine

/-- The registers of R62 and R63. CMD is the one the host writes. -/
inductive WinReg where
  | ident | status | errInfo | errPosLo | errPosHi | lastCmd | root | nodeCount | leafCount
  | cntInLo | cntInHi | cntOutLo | cntOutHi | cntSymLo | cntSymHi | cntSkipLo | cntSkipHi
  | magic | params | inPosLo | inPosHi | cmd
  | freq (k : SymIdx)
  | nodeLink (i : Fin 513)
  | nodeWLo (i : Fin 513)
  | nodeWHi (i : Fin 513)
  | codeInfo (k : SymIdx)
  | codeWord (k : SymIdx) (j : Fin 8)
  deriving DecidableEq, Repr

/-- The address of CMD (R62). -/
def cmdAddr : Addr := 0x0020#16

/-- The scalar registers of R62, address by address. -/
def scalarReg : Nat → Option WinReg
  | 0x00 => some .ident
  | 0x01 => some .status
  | 0x02 => some .errInfo
  | 0x03 => some .errPosLo
  | 0x04 => some .errPosHi
  | 0x05 => some .lastCmd
  | 0x06 => some .root
  | 0x07 => some .nodeCount
  | 0x08 => some .leafCount
  | 0x09 => some .cntInLo
  | 0x0A => some .cntInHi
  | 0x0B => some .cntOutLo
  | 0x0C => some .cntOutHi
  | 0x0D => some .cntSymLo
  | 0x0E => some .cntSymHi
  | 0x0F => some .cntSkipLo
  | 0x10 => some .cntSkipHi
  | 0x11 => some .magic
  | 0x12 => some .params
  | 0x13 => some .inPosLo
  | 0x14 => some .inPosHi
  | 0x20 => some .cmd
  | _ => none

/-- Entry n of an array window that starts at `base`, as an index below `size`. -/
def windowIdx (size base a : Nat) : Option (Fin size) :=
  if h : base ≤ a ∧ a - base < size then some ⟨a - base, h.2⟩ else none

/-- The register at a word address: the scalar map of R62, then the array windows of R63; none is an address neither lists. -/
def regAt (addr : Addr) : Option WinReg :=
  let a := addr.toNat
  match scalarReg a with
  | some r => some r
  | none =>
    match windowIdx 257 0x0100 a, windowIdx 513 0x0400 a, windowIdx 513 0x0800 a, windowIdx 513 0x0C00 a,
      windowIdx 257 0x1000 a, windowIdx (8 * 257) 0x2000 a with
    | some k, _, _, _, _, _ => some (.freq k)
    | _, some i, _, _, _, _ => some (.nodeLink i)
    | _, _, some i, _, _, _ => some (.nodeWLo i)
    | _, _, _, some i, _, _ => some (.nodeWHi i)
    | _, _, _, _, some k, _ => some (.codeInfo k)
    | _, _, _, _, _, some n => some (.codeWord ⟨n.val / 8, by omega⟩ ⟨n.val % 8, by omega⟩)
    | none, none, none, none, none, none => none

/-- The low n bits set. -/
def lowMask (n : Nat) : Word := BitVec.ofNat 32 (2 ^ n - 1)

/-- The layout of NODE_LINK (R63). -/
def linkWord (n : Node) : Word := BitVec.ofBool n.leaf ++ (0 : BitVec 2) ++ n.sym ++ n.right ++ n.left

/-- NODE[i] is valid to a host read (R40). -/
def nodeReadable (s : State) (i : Fin 513) : Bool := s.flags.treeValid && decide (i.val < s.tree.nodeCount.toNat)

/-- CODE_LEN[k] and CODE_VAL[k] are valid to a host read (R40). -/
def codeReadable (s : State) (k : SymIdx) : Bool := s.flags.codesValid && s.codes.entry[k]

/-- What a read returns while BUSY = 0 (R62, R63). `u` is the free draw that fills the bits the spec leaves `UNSPEC`: only the
bits of the invalid field, the bits shown as 0 read 0 (R63). -/
def readReg (s : State) (u : Word) : WinReg → Word
  | .ident => Config.ident
  | .status => statusWord s
  | .errInfo => (0 : BitVec 12) ++ s.errs.cmd ++ s.errs.kind ++ s.errs.code
  | .errPosLo => s.errs.pos.extractLsb' 0 32
  | .errPosHi => s.errs.pos.extractLsb' 32 32
  | .lastCmd => s.lastCmd
  | .root => s.tree.root.setWidth 32
  | .nodeCount => s.tree.nodeCount.setWidth 32
  | .leafCount => s.tree.leafCount.setWidth 32
  | .cntInLo => s.cnt.cntIn.extractLsb' 0 32
  | .cntInHi => s.cnt.cntIn.extractLsb' 32 32
  | .cntOutLo => s.cnt.cntOut.extractLsb' 0 32
  | .cntOutHi => s.cnt.cntOut.extractLsb' 32 32
  | .cntSymLo => s.cnt.cntSym.extractLsb' 0 32
  | .cntSymHi => s.cnt.cntSym.extractLsb' 32 32
  | .cntSkipLo => s.cnt.cntSkip.extractLsb' 0 32
  | .cntSkipHi => s.cnt.cntSkip.extractLsb' 32 32
  | .magic => s.params.magic
  | .params => (0 : BitVec 14) ++ BitVec.ofNat 10 nodeCap ++ BitVec.ofNat 8 s.params.wCount
  | .inPosLo => s.inp.pos.extractLsb' 0 32
  | .inPosHi => s.inp.pos.extractLsb' 32 32
  | .cmd => 0
  | .freq k => if s.flags.freqValid then s.freq[k] else u &&& lowMask s.params.wCount
  | .nodeLink i => if nodeReadable s i then linkWord s.node[i] else u &&& 0x9FFFFFFF#32
  | .nodeWLo i =>
    if nodeReadable s i then s.node[i].w.extractLsb' 0 32 else u &&& lowMask (min 32 s.params.wWeight)
  | .nodeWHi i =>
    if nodeReadable s i then (s.node[i].w.extractLsb' 32 9).setWidth 32 else u &&& lowMask (s.params.wWeight - 32)
  | .codeInfo k =>
    if codeReadable s k then (1 : BitVec 1) ++ (0 : BitVec 22) ++ s.codes.len[k] else u &&& 0x000001FF#32
  | .codeWord k j => if codeReadable s k then s.codes.val[k].extractLsb' (32 * j.val) 32 else u

/-- `MemRead(a, 4)`: R62 to R64 while BUSY = 0; while BUSY = 1 STATUS is exact and every other read is `UNSPEC` (R65). -/
def readWindow (s : State) (u : Word) (a : Addr) : Word :=
  if s.flags.busy && regAt a != some .status then u
  else
    match regAt a with
    | some r => readReg s u r
    | none => 0

end Sys2Proof.Machine
end

