-- ==== Sys2Proof/Machine/HostActions.lean ====
section
/-! DEFINITION. What the host can do (R280), and which event comes next: the model's fetch (log 2). -/

namespace Sys2Proof.Machine

/-- The effect of a host action other than a command write (R280). -/
def hostAct (a : HostAction) (s : State) : Host.Outcome State Fault Refusal :=
  match a with
  | .attachIn b =>
    if b.length < 2 ^ 64 then .next { s with inp := { bits := b, pos := 0 } } else .refused .inputTooLong
  | .attachOut =>
    .next { s with
      out := { bits := [], closed := false }
      host := { s.host with log := .outHanded s.out.bits :: s.host.log } }
  | .memWrite _ _ => .next s
  | .memRead x =>
    .next { s with
      host := { s.host with log := .readback x (readWindow s (Config.unspecRead s.draws) x) :: s.host.log }
      draws := s.draws + 1 }
  | .readOut => .next { s with host := { s.host with log := .outRead s.out.bits :: s.host.log } }
  | .reset => .next (hardReset s)

/-- The event a step runs. -/
inductive Event where
  /-- A command word accepted from CMD. -/
  | command (w : Word) (s : State)
  /-- The next header token of a header read in progress. -/
  | token (i : Instr) (s : State)
  /-- A header read in progress with no whole token left on IN. -/
  | cutToken (s : State)
  /-- Another host action. -/
  | host (a : HostAction) (s : State)
  /-- The host touches a stream while BUSY = 1. -/
  | trespass
  /-- BUSY = 1 with no command in progress. -/
  | stray
  /-- Nothing to do: the machine is idle and holds its state (R259). -/
  | idle (s : State)
  deriving Repr

/-- The host has taken its next action. -/
def popHost (s : State) (q : List HostAction) : State := { s with host := { s.host with queue := q } }

/-- The command in progress goes on: only a header read can be in progress between two steps. -/
def nextToken (s : State) : Event :=
  match s.hdrStack with
  | none => .stray
  | some _ =>
    match decodeToken s.restIn with
    | .ok (i, _) => .token i s
    | .error _ => .cutToken s

/-- The next event at a command boundary: the host's next action (R67); the host may stay silent (R259, R287). -/
def nextAtBoundary (s : State) : Event :=
  match s.host.queue with
  | [] => .idle s
  | .memWrite a v :: q => if a = cmdAddr then .command v (popHost s q) else .host (.memWrite a v) (popHost s q)
  | .attachIn b :: q => .host (.attachIn b) (popHost s q)
  | .attachOut :: q => .host .attachOut (popHost s q)
  | .memRead a :: q => .host (.memRead a) (popHost s q)
  | .readOut :: q => .host .readOut (popHost s q)
  | .reset :: q => .host .reset (popHost s q)

/-- The next event while BUSY = 1: a reset ends the command (R270, R272); a register read or a write without effect is
served (R64, R65); a command write is held (R66), and so is a read of OUT, an action of command boundaries (R280); an attach is
outside the model (R281). DESIGN CHOICE (log 13): nothing behind a held action is served while BUSY = 1, so a reset that stands
behind a held command write waits until the command has ended and that word has had its turn; R66 and R270 do not say what
becomes of a write that is held when reset is asserted. -/
def nextWhileBusy (s : State) : Event :=
  match s.host.queue with
  | [] => nextToken s
  | .memWrite a v :: q => if a = cmdAddr then nextToken s else .host (.memWrite a v) (popHost s q)
  | .attachIn _ :: _ => .trespass
  | .attachOut :: _ => .trespass
  | .memRead a :: q => .host (.memRead a) (popHost s q)
  | .readOut :: _ => nextToken s
  | .reset :: q => .host .reset (popHost s q)

/-- The model's fetch. -/
def nextEvent (s : State) : Event := if s.flags.busy then nextWhileBusy s else nextAtBoundary s

end Sys2Proof.Machine
end

