-- ==== Sys2Proof/Machine/Step.lean ====
section
/-! DEFINITION. The step: one event, a command being atomic (R110). -/

namespace Sys2Proof.Machine

/-- One step (R67, R110): the next event is taken and run to its end. -/
def step (s : State) : Host.Outcome State Fault Refusal :=
  match nextEvent s with
  | .command w t =>
    match decodeCommand w with
    | .ok i => exec i t
    | .error _ => execIllegal w t
  | .token i t => exec i t
  | .cutToken t => readHeaderToken t
  | .host a t => hostAct a t
  | .trespass => .refused .attachWhileBusy
  | .stray => .fault .strayBusy
  | .idle t => .next t

/-- The same instruction placed where the next step finds it (log 6). A command word is placed as the host's next write to CMD,
at a command boundary. A header token is placed as all of IN, inside a header read whose root it is, with the host silent.
Bits of no table row's width are placed nowhere. -/
def State.withFetchWord (s : State) (nbits w : Nat) : State :=
  match layoutTableWord nbits w with
  | .error _ => s
  | .ok (.command v) =>
    { s with
      flags := { s.flags with busy := false }
      hdrStack := none
      host := { s.host with queue := .memWrite cmdAddr v :: s.host.queue } }
  | .ok (.token bits) =>
    { s with
      flags := { s.flags with busy := true }
      hdrStack := some []
      inp := { bits := bits, pos := 0 }
      host := { s.host with queue := [] } }

end Sys2Proof.Machine
end

