-- ==== Sys2Proof/Safety.lean ====
section
/-! DEFINITION. What the claims are stated in: the tree an arena holds (R17, R81), what a byte sequence is read as, and the
invariants of the state at a command boundary (R38). -/

namespace Sys2Proof.Machine

/-! ## Trees as shapes (R17) -/

/-- A tree by its shape and its leaf symbols; node indexes and weights take no part (R17). -/
inductive HTree where
  | leaf (y : Sym)
  | node (l r : HTree)
  deriving DecidableEq, Repr

/-- The number of nodes. -/
def HTree.size : HTree → Nat
  | .leaf _ => 1
  | .node l r => 1 + l.size + r.size

/-- The leaf symbols, left to right. -/
def HTree.leaves : HTree → List Sym
  | .leaf y => [y]
  | .node l r => l.leaves ++ r.leaves

/-- `H(T)` of R81: the header of the tree, in preorder. -/
def HTree.header : HTree → List Bool
  | .leaf y => true :: bitsOf 9 y.toNat
  | .node l r => false :: (l.header ++ r.header)

/-- The path of every leaf with its symbol, left to right: 0 to a left child, 1 to a right child (R17, R86). -/
def HTree.paths : HTree → List (List Bool × Sym)
  | .leaf y => [([], y)]
  | .node l r => l.paths.map (fun p => (false :: p.1, p.2)) ++ r.paths.map (fun p => (true :: p.1, p.2))

/-- Every leaf symbol is a symbol, 0..256 (R83). -/
def HTree.symsLegal (t : HTree) : Bool := t.leaves.all symLegal

/-- The arena holds the tree at an index. -/
def holds (node : Vector Node 513) : HTree → NodeIdx → Bool
  | .leaf y, i =>
    match nodeAt node i with
    | some n => n.leaf && n.sym == y
    | none => false
  | .node l r, i =>
    match nodeAt node i with
    | some n => !n.leaf && holds node l n.left && holds node r n.right
    | none => false

/-- The indexes the tree's nodes have in the arena, in preorder. -/
def places (node : Vector Node 513) : HTree → NodeIdx → List NodeIdx
  | .leaf _, i => [i]
  | .node l r, i =>
    match nodeAt node i with
    | some n => i :: (places node l n.left ++ places node r n.right)
    | none => [i]

/-- R38 (e): the entries below NODE_COUNT are exactly the nodes of the tree t rooted at ROOT, each reached once, and every leaf
symbol is at most 256; LEAF_COUNT is its number of leaves (R27). -/
def treeAt (s : State) (t : HTree) : Bool :=
  holds s.node t s.tree.root
    && decide (places s.node t s.tree.root).Nodup
    && (places s.node t s.tree.root).all (fun i => decide (i.toNat < s.tree.nodeCount.toNat))
    && decide (t.size = s.tree.nodeCount.toNat)
    && decide (t.leaves.length = s.tree.leafCount.toNat)
    && t.symsLegal

/-- R38 (f), R148: a built tree has distinct leaf symbols, the sentinel among them, and an internal root. -/
def HTree.built : HTree → Bool
  | .leaf _ => false
  | .node l r => decide ((HTree.node l r).leaves.Nodup) && decide (sentinelSym ∈ (HTree.node l r).leaves)

/-- The bits of symbol k's code (R32, R87). -/
def codeBits (c : CodeTable) (k : SymIdx) : List Bool := bitsOf c.len[k].toNat c.val[k].toNat

/-- The 9-bit symbol of an index. -/
def symOf (k : SymIdx) : Sym := BitVec.ofNat 9 k.val

/-- R32, R86, R162: the code table of a tree has an entry for exactly the leaf symbols with a nonzero count, each holding the
path of its leaf and no bit above it. -/
def codesFor (freq : Vector Count 257) (t : HTree) (c : CodeTable) : Bool :=
  allSyms.all (fun k =>
    (c.entry[k] == (decide (symOf k ∈ t.leaves) && freq[k] != 0))
      && (!c.entry[k] || (decide ((codeBits c k, symOf k) ∈ t.paths) && decide (c.val[k].toNat < 2 ^ c.len[k].toNat))))

/-! ## What streams are read as -/

/-- The whole bytes of a bit sequence, bit 7 first (R58); a fragment of 1 to 7 bits at the end is no byte (R52, R135). -/
def bytesOf : List Bool → List (BitVec 8)
  | b7 :: b6 :: b5 :: b4 :: b3 :: b2 :: b1 :: b0 :: rest =>
    BitVec.ofNat 8 (valOf [b7, b6, b5, b4, b3, b2, b1, b0]) :: bytesOf rest
  | _ => []

/-- How often symbol k occurs among the bytes. -/
def tally (bytes : List (BitVec 8)) (k : SymIdx) : Nat := (bytes.filter (fun b => byteIdx b == k)).length

/-- What the decoder's state machine (R218) does on a tree, from the subtree `cur` it points at: the data symbols it emits,
and the bits after the sentinel's code where it ends there; none where the bits end first (R211, R213). -/
def descend (root : HTree) : HTree → List Bool → List Sym × Option (List Bool)
  | _, [] => ([], none)
  | .leaf _, _ :: _ => ([], none)
  | .node l r, b :: bs =>
    match (if b then r else l) with
    | .leaf y =>
      if y = sentinelSym then ([], some bs)
      else (y :: (descend root root bs).1, (descend root root bs).2)
    | .node l' r' => descend root (.node l' r') bs

/-- The output bits of emitted symbols: one byte each, most significant bit first (R214). -/
def emitted (ys : List Sym) : List Bool := ys.flatMap (fun y => bitsOf 8 y.toNat)

/-- ENCODE's output for the bytes: each byte's code where it has an entry (R202), then the sentinel's code (R203). -/
def payload (c : CodeTable) (bytes : List (BitVec 8)) : List Bool :=
  bytes.flatMap (fun b => if c.entry[byteIdx b] then codeBits c (byteIdx b) else []) ++ codeBits c sentinelIdx

/-! ## What BUILD makes -/

/-- Arena entry k by its number. -/
def entryAt (node : Vector Node 513) (k : Nat) : Node := node[k]?.getD (Node.mkInternal 0 0 0)

/-- The key (weight, sequence number) of R144 of arena entry k, whose index is its sequence number (R147): `a` before `b`. -/
def keyBefore (node : Vector Node 513) (a b : Nat) : Prop :=
  (entryAt node a).w.toNat < (entryAt node b).w.toNat
    ∨ ((entryAt node a).w.toNat = (entryAt node b).w.toNat ∧ a < b)

/-- With L leaves, entry m still waits in PQ when node k is about to be made: it exists, and no node made before k has it as a
child. -/
def waiting (node : Vector Node 513) (L k m : Nat) : Prop :=
  m < k ∧ ∀ j, L ≤ j → j < k → (entryAt node j).left.toNat ≠ m ∧ (entryAt node j).right.toNat ≠ m

/-- R142, R144 to R146: node k merges the two entries that come first in PQ, the first as its left child and the second as its
right child, and weighs their sum. -/
def mergesFirstTwo (node : Vector Node 513) (L k : Nat) : Prop :=
  ∃ a b, entryAt node k = Node.mkInternal ((entryAt node a).w + (entryAt node b).w) (BitVec.ofNat 10 a) (BitVec.ofNat 10 b)
    ∧ waiting node L k a ∧ waiting node L k b ∧ keyBefore node a b
    ∧ ∀ m, waiting node L k m → m = a ∨ m = b ∨ keyBefore node b m

/-- The sum of all frequency entries. -/
def freqSum (freq : Vector Count 257) : Nat := (allSyms.map (fun k => freq[k].toNat)).sum

/-! ## The register window -/

/-- The word addresses that R62 and R63 leave unlisted, range by range. -/
def unlisted (a : Nat) : Bool :=
  decide (0x0015 ≤ a ∧ a ≤ 0x001F) || decide (0x0021 ≤ a ∧ a ≤ 0x00FF) || decide (0x0201 ≤ a ∧ a ≤ 0x03FF)
    || decide (0x0601 ≤ a ∧ a ≤ 0x07FF) || decide (0x0A01 ≤ a ∧ a ≤ 0x0BFF) || decide (0x0E01 ≤ a ∧ a ≤ 0x0FFF)
    || decide (0x1101 ≤ a ∧ a ≤ 0x1FFF) || decide (0x2808 ≤ a)

/-! ## The invariants of R38 -/

/-- No command is in progress (R37, R39): BUSY = 0 and no transient state. -/
def boundary (s : State) : Bool := !s.flags.busy && s.hdrStack.isNone

/-- R38 (a) to (d), and what R22 says of DONE and SENT beside ERR. -/
def flagsInv (f : Flags) : Bool :=
  (!(f.treeValid && !f.treeOrigin) || f.freqValid)
    && (!f.codesValid || (f.treeValid && !f.treeOrigin))
    && (!f.err || (!f.freqValid && !f.treeValid && !f.codesValid))
    && (!f.treeOrigin || f.treeValid)
    && (!f.err || !f.done)
    && (!f.sent || f.done)

/-- The errors of R240. -/
def allErrCodes : List ErrCode :=
  [.magicMismatch, .magicShort, .hdrEos, .payEos, .hdrSymbol, .hdrOversize, .treeLeafRoot, .illegalCmd, .sequence, .outClosed,
    .countOvf]

/-- The commands that raise an error (R240): E_ILLEGAL_CMD is raised by illegal words only. -/
def raisedBy : ErrCode → List Instr
  | .magicMismatch => [.rdhdr]
  | .magicShort => [.rdhdr]
  | .hdrEos => [.rdhdr]
  | .payEos => [.decode]
  | .hdrSymbol => [.rdhdr]
  | .hdrOversize => [.rdhdr]
  | .treeLeafRoot => [.decode]
  | .illegalCmd => []
  | .sequence => [.build, .derive, .wrhdr, .encode, .decode]
  | .outClosed => [.wrhdr, .encode, .decode]
  | .countOvf => [.count]

/-- R24, R240, R241, R250: the error registers hold a listed code with its kind and the failing word's OP field while ERR = 1,
and 0 while ERR = 0. -/
def errInv (s : State) : Bool :=
  if s.flags.err then
    allErrCodes.any (fun e => s.errs.code == e.number && s.errs.kind == e.kind) && s.errs.cmd == s.lastCmd.extractLsb' 0 8
  else s.errs == ErrRegs.none

/-- R35, R283: IN.pos is a position of IN, and IN is shorter than 2^64 bits. -/
def streamInv (p : InPort) : Bool := decide (p.pos.toNat ≤ p.bits.length) && decide (p.bits.length < 2 ^ 64)

/-- R28, R133: every frequency entry fits W_COUNT bits, and a complete table counts the sentinel once. -/
def freqInv (s : State) : Bool :=
  allSyms.all (fun k => decide (s.freq[k].toNat ≤ 2 ^ s.params.wCount - 1))
    && (!s.flags.freqValid || s.freq[sentinelIdx] == 1)

/-- R38 (e) and (f), and the code table while CODES_VALID = 1 (R22). -/
def treeInv (s : State) : Prop :=
  s.flags.treeValid = true →
    ∃ t, treeAt s t = true ∧ (s.flags.treeOrigin = false → t.built = true)
      ∧ (s.flags.codesValid = true → codesFor s.freq t s.codes = true)

/-- The state at a command boundary. -/
def Inv (s : State) : Prop :=
  boundary s = true ∧ flagsInv s.flags = true ∧ errInv s = true ∧ streamInv s.inp = true ∧ freqInv s = true ∧ treeInv s

/-- Two states a host cannot tell apart and no command may: equal but for array entries whose validity condition fails (R40). -/
def sameVisible (s t : State) : Prop :=
  { s with freq := t.freq, node := t.node, codes := t.codes } = t
    ∧ (s.flags.freqValid = true → s.freq = t.freq)
    ∧ (s.flags.treeValid = true → ∀ i : Fin 513, i.val < s.tree.nodeCount.toNat → s.node[i] = t.node[i])
    ∧ (s.flags.codesValid = true →
        s.codes.entry = t.codes.entry
          ∧ ∀ k : SymIdx, s.codes.entry[k] = true → s.codes.len[k] = t.codes.len[k] ∧ s.codes.val[k] = t.codes.val[k])

/-- What a command leaves that is turned away by a check, or by a body that has done nothing yet: the prologue (R112) and the
capture (R250), every other piece of state as it was. -/
def turnedAway (w : Word) (e : ErrCode) (s : State) : State :=
  { s with
    flags := { Flags.reset with err := true }
    errs := { code := e.number, kind := e.kind, cmd := w.extractLsb' 0 8, pos := s.inp.pos }
    lastCmd := w
    cnt := Counters.zero
    hdrStack := none }

/-- What an RDHDR leaves that fails with n bits consumed (R181, R248 to R250): the counts and the arena are where the error
found them, IN.pos and CNT_IN have advanced by n, and every other piece of state is as it was. -/
def rdhdrFailed (e : ErrCode) (n : Nat) (tree : TreeRegs) (node : Vector Node 513) (s : State) : State :=
  { s with
    flags := { Flags.reset with err := true }
    errs := { code := e.number, kind := e.kind, cmd := 0x06, pos := s.inp.pos + BitVec.ofNat 64 n }
    lastCmd := 0x00000006
    cnt := { Counters.zero with cntIn := BitVec.ofNat 64 n }
    tree := tree
    node := node
    inp := { s.inp with pos := s.inp.pos + BitVec.ofNat 64 n }
    hdrStack := none }

/-! ## Headers as tokens (R81, R84) -/

/-- Header tokens that RDHDR accepts one by one: no command among them, and every leaf's symbol a symbol (R83). -/
def goodTokens (ts : List Instr) : Bool := ts.all (fun i => !i.isCommand && i.wf)

/-- The bits of tokens, one after the other (R81). -/
def tokenBits (ts : List Instr) : List Bool :=
  ts.flatMap (fun i =>
    match encode i with
    | .token b => b
    | .command _ => [])

/-- R84's counter: from n subtrees still to be read, how many are left after the tokens; an internal node adds one, a leaf takes
one away, and at 0 the header has ended. -/
def headerOpen : Nat → List Instr → Nat
  | n, [] => n
  | 0, _ :: _ => 0
  | n + 1, i :: ts => headerOpen (if i = .hdrInternal then n + 2 else n) ts

/-- The counts after the tokens of a header (R183): every token takes an entry, and `more` entries have been taken besides. -/
def tokenCounts (ts : List Instr) (more : Nat) : TreeRegs :=
  { root := 0
    nodeCount := BitVec.ofNat 10 (ts.length + more)
    leafCount := BitVec.ofNat 10 (ts.filter (fun i => i != .hdrInternal)).length }

/-- What tokens leave in the arena (R183, R187, R248): token k has entry k, a leaf as it is and an internal node with weight 0,
and the entries from the number of tokens on are as before. -/
def tokensWritten (ts : List Instr) (old nd : Vector Node 513) : Prop :=
  (∀ k y, ts[k]? = some (.hdrLeaf y) → entryAt nd k = Node.mkLeaf y 0)
    ∧ (∀ k, ts[k]? = some .hdrInternal → (entryAt nd k).leaf = false ∧ (entryAt nd k).sym = 0 ∧ (entryAt nd k).w = 0)
    ∧ ∀ k, ts.length ≤ k → k < 513 → entryAt nd k = entryAt old k

/-- RDHDR once the magic has matched (R181, R182, R183): the header reader is about to read the root's flag. -/
def headerStart (s : State) : State :=
  { s with
    flags := { Flags.reset with busy := true }
    lastCmd := 0x00000006
    cnt := { Counters.zero with cntIn := 32 }
    tree := TreeRegs.zero
    inp := { s.inp with pos := s.inp.pos + 32 }
    hdrStack := some [] }

/-- Right children returned one after the other (R183): each waiting node gets its left child and the index returned to it, and
returns its own index. The answer is the arena and the last index returned. -/
def closeParents : List (Fin 513 × NodeIdx) → NodeIdx → Vector Node 513 → Vector Node 513 × NodeIdx
  | [], c, nd => (nd, c)
  | (j, l) :: js, c, nd => closeParents js (BitVec.ofNat 10 j.val) (nd.set j { nd[j] with left := l, right := c })

/-- The header reader's own turns, at most n, until the header has ended or failed. -/
def headerTurns : Nat → State → Host.Outcome State Fault Refusal
  | 0, s => .next s
  | n + 1, s =>
    match s.hdrStack with
    | none => .next s
    | some _ =>
      match readHeaderToken s with
      | .next t => headerTurns n t
      | .fault f => .fault f
      | .refused r => .refused r

/-- The commands of a sequence, one after the other. -/
def execAll : List Instr → State → Host.Outcome State Fault Refusal
  | [], s => .next s
  | i :: is, s =>
    match exec i s with
    | .next t => execAll is t
    | .fault f => .fault f
    | .refused r => .refused r

/-- COMPRESS of R100 without its last command, FLUSH, which writes no bit. -/
def compressOpen : List Instr := [.count, .build, .derive, .wrhdr, .encode]

/-- DECOMPRESS of R100 without its last command, FLUSH, which clears SENT (log 9). -/
def decompressOpen : List Instr := [.rdhdr, .decode]

end Sys2Proof.Machine
end

