-- ==== Sys2Proof/Certificates/Slice0/Obligations.lean ====
section
/-! DEFINITION. The statements for the provers. Each docstring names what of the spec it formalises, and what in it is the
model's own choice. -/

open Sys2Proof Sys2Proof.Machine

/-! ## Encodings -/

/-- A few words and tokens decode to what 30_encoding.md (R81, R92) says they stand for: a sanity statement. -/
def Obligations.ListedWordsDecode : Prop :=
  decodeCommand 0x00000000 = .ok .nop ∧ decodeCommand 0x00000001 = .ok .clear ∧ decodeCommand 0x00000003 = .ok .build ∧
  decodeCommand 0x00000006 = .ok .rdhdr ∧ decodeCommand 0x00000009 = .ok .flush ∧
  decodeToken [false, true] = .ok (.hdrInternal, [true]) ∧
  decodeToken [true, false, false, true, false, false, false, false, true, false, false] = .ok (.hdrLeaf 66, [false])

/-- Decoding the encoding of any well-formed instruction gives it back, with every symbol a leaf token admits, and whatever
follows a token on the stream is left alone (R81, R83, R92, R96). -/
def Obligations.DecodeOfEncodeIsTheInstruction : Prop :=
  ∀ (i : Instr) (rest : List Bool), i.wf = true → decodeEncoding (encode i) rest = .ok (i, rest)

/-- A command has one spelling, and a token decoded from a stream is, bit for bit, the token the encoder writes (R81, R89, R96,
R99). -/
def Obligations.DecodedBitsAreTheEncoding : Prop :=
  (∀ (w : Word) (i : Instr), decodeCommand w = .ok i → i.isCommand = true ∧ encode i = .command w) ∧
  ∀ (b rest : List Bool) (i : Instr), decodeToken b = .ok (i, rest) →
    ∃ bits, encode i = .token bits ∧ bits ++ rest = b

/-- R93: a word is illegal exactly when RSV ≠ 0 or OP is in 0x0A..0xFF, so the legal words are the ten words 0x00000000 to
0x00000009; and executing an illegal word, while ERR = 0, raises E_ILLEGAL_CMD. -/
def Obligations.IllegalWordsRaise : Prop :=
  (∀ w : Word, decodeCommand w = .error .illegalCommand ↔ (w.extractLsb' 8 24 ≠ 0 ∨ 0x0A ≤ (w.extractLsb' 0 8).toNat)) ∧
  (∀ w : Word, (∃ i, decodeCommand w = .ok i) ↔ w.toNat ≤ 9) ∧
  ∀ (s : State) (w : Word), s.flags.err = false → (w.extractLsb' 8 24 ≠ 0 ∨ 0x0A ≤ (w.extractLsb' 0 8).toNat) →
    execIllegal w s = .next (turnedAway w .illegalCmd s)

/-! ## The step -/

/-- When the host's next action writes a word to CMD that decodes to a command, the step is that command's meaning, the host's
action taken, and where the word decodes to none it is the illegal word's; inside a header read, when the bits at IN.pos decode
to a token, the step is that token's meaning (R110, R112, R183). That the host's pending actions stand in a queue is the model's
choice (log 2); that a header read can be entered between two tokens is the model's choice (log 6). -/
def Obligations.StepRunsTheDecodedInstruction : Prop :=
  (∀ (s : State) (w : Word) (q : List HostAction), s.flags.busy = false → s.host.queue = .memWrite 0x0020 w :: q →
    (∀ i, decodeCommand w = .ok i → step s = exec i { s with host := { s.host with queue := q } }) ∧
    ∀ e, decodeCommand w = .error e → step s = execIllegal w { s with host := { s.host with queue := q } }) ∧
  ∀ (s : State) (stack : List HdrFrame) (i : Instr) (rest : List Bool), s.flags.busy = true → s.hdrStack = some stack →
    s.host.queue = [] → decodeToken s.restIn = .ok (i, rest) → step s = exec i s

/-- The header reader's turn, which reads IN bit by bit as R183 does, is the meaning of the whole token that stands next on IN.
That a token has a meaning of its own, and that it is this turn, is the model's choice (log 6). The turn on a token cut short is
in RdhdrRefusesACutHeader. -/
def Obligations.HeaderReaderRunsItsTokens : Prop :=
  ∀ (s : State) (stack : List HdrFrame) (i : Instr) (rest : List Bool), s.hdrStack = some stack →
    s.inp.bits.length < 2 ^ 64 → decodeToken s.restIn = .ok (i, rest) → readHeaderToken s = exec i s

/-- RDHDR, one atomic step (R110), is the header reader's turns one after the other, once the magic has matched (R183). -/
def Obligations.RdhdrIsItsTurns : Prop :=
  ∀ s : State, s.flags.err = false → 32 ≤ s.remaining → BitVec.ofNat 32 (valOf (s.restIn.take 32)) = s.params.magic →
    exec .rdhdr s = headerTurns 514 { s with
      flags := { Flags.reset with busy := true }
      lastCmd := 0x00000006
      cnt := { Counters.zero with cntIn := 32 }
      tree := TreeRegs.zero
      inp := { s.inp with pos := s.inp.pos + 32 }
      hdrStack := some [] }

/-! ## Errors, their capture, and the way back -/

/-- The code and the kind of every error (R240, R241), and R250, the capture itself: what it writes, and that OUT_CLOSED, IN, OUT, the counters, ROOT, NODE_COUNT, LEAF_COUNT and
everything else stay; DONE and SENT are 0 by the prologue. That the header reader's stack is dropped is R36's. -/
def Obligations.CaptureWritesTheErrorState : Prop :=
  (allErrCodes.map fun e => (e.number.toNat, e.kind.toNat)) =
    [(0x01, 1), (0x02, 1), (0x03, 2), (0x04, 2), (0x05, 2), (0x06, 2), (0x07, 2), (0x10, 3), (0x11, 3), (0x12, 3), (0x13, 4)] ∧
  ∀ (e : ErrCode) (s : State), s.flags.done = false → s.flags.sent = false →
    raise e s = { s with
      flags := { Flags.reset with err := true }
      errs := { code := e.number, kind := e.kind, cmd := s.lastCmd.extractLsb' 0 8, pos := s.inp.pos }
      hdrStack := none }

/-- Every command that ends by an error ends in a captured state: its error is one R240 lists for it, the error registers hold
that error's code and kind, the OP field of the failing word and IN.pos, every valid flag is 0, and OUT_CLOSED and the
parameters stay (R240, R241, R244, R250). -/
def Obligations.FailedCommandIsCaptured : Prop :=
  ∀ (i : Instr) (s t : State), i.isCommand = true → s.flags.err = false → exec i s = .next t → t.flags.err = true →
    t.flags = { Flags.reset with err := true } ∧ encode i = .command t.lastCmd ∧ t.hdrStack = none ∧
    t.out.closed = s.out.closed ∧ t.params = s.params ∧
    ∃ e, i ∈ raisedBy e ∧
      t.errs = { code := e.number, kind := e.kind, cmd := t.lastCmd.extractLsb' 0 8, pos := t.inp.pos }

/-- Every command other than NOP that ends without error leaves DONE = 1 and BUSY = 0 and its word in LASTCMD, and SENT = 1 if
and only if it is a DECODE (R22, R25, R112, R114). -/
def Obligations.CompletedCommandSetsDone : Prop :=
  ∀ (i : Instr) (s t : State), i.isCommand = true → i ≠ .nop → exec i s = .next t → t.flags.err = false →
    t.flags.done = true ∧ t.flags.busy = false ∧ encode i = .command t.lastCmd ∧ (t.flags.sent = true ↔ i = .decode)

/-- R111: while ERR = 1 every word other than 0x00000001 is discarded, whether it is a command or an illegal word: it changes no
state at all and raises no error. -/
def Obligations.DiscardedWhileErr : Prop :=
  ∀ (s : State) (w : Word), s.flags.err = true → w ≠ 0x00000001 →
    (∀ i, decodeCommand w = .ok i → exec i s = .next s) ∧
    ∀ e, decodeCommand w = .error e → execIllegal w s = .next s

/-- The first check of R113 on each of the five commands: where it fails the command raises E_SEQUENCE, whatever OUT_CLOSED is
(R244), with nothing done but the prologue and the capture. -/
def Obligations.SequenceChecks : Prop :=
  ∀ s : State, s.flags.err = false →
    (s.flags.freqValid = false → exec .build s = .next (turnedAway 0x00000003 .sequence s)) ∧
    (s.flags.treeValid = false ∨ s.flags.treeOrigin = true → exec .derive s = .next (turnedAway 0x00000004 .sequence s)) ∧
    (s.flags.treeValid = false → exec .wrhdr s = .next (turnedAway 0x00000005 .sequence s)) ∧
    (s.flags.codesValid = false → exec .encode s = .next (turnedAway 0x00000007 .sequence s)) ∧
    (s.flags.treeValid = false → exec .decode s = .next (turnedAway 0x00000008 .sequence s))

/-- The second check of R113: with its first check met, a command that writes OUT raises E_OUT_CLOSED on a closed OUT. -/
def Obligations.ClosedOutputChecks : Prop :=
  ∀ s : State, s.flags.err = false → s.out.closed = true →
    (s.flags.treeValid = true → exec .wrhdr s = .next (turnedAway 0x00000005 .outClosed s)) ∧
    (s.flags.codesValid = true → exec .encode s = .next (turnedAway 0x00000007 .outClosed s)) ∧
    (s.flags.treeValid = true → exec .decode s = .next (turnedAway 0x00000008 .outClosed s))

/-! ## The control commands and reset -/

/-- NOP changes no state (R115), while ERR = 1 too (R111). -/
def Obligations.NopChangesNothing : Prop :=
  ∀ s : State, exec .nop s = .next s

/-- CLEAR, in every state, ERR = 1 or not: the state after it is the reset state but for DONE = 1 and LASTCMD = 0x00000001; IN,
OUT, OUT_CLOSED and the parameters stay, and FREQ, NODE, CODE_LEN and CODE_VAL hold anything (R116, R251, R272). That
CODE_ENTRY is 0 is read from R116's last sentence (log 8). -/
def Obligations.ClearReturnsToReset : Prop :=
  ∀ s : State, ∃ fr nd ln vl, exec .clear s = .next { State.reset with
    flags := { Flags.reset with done := true }
    lastCmd := 0x00000001
    freq := fr
    node := nd
    codes := { entry := Vector.replicate 257 false, len := ln, val := vl }
    params := s.params
    inp := s.inp
    out := s.out
    hdrStack := s.hdrStack
    host := s.host
    draws := s.draws + 1 }

/-- FLUSH closes OUT, appends nothing, and writes DONE, SENT, LASTCMD and the counters as every command does (R56, R117). -/
def Obligations.FlushClosesOut : Prop :=
  ∀ s : State, s.flags.err = false → exec .flush s = .next { s with
    flags := { s.flags with busy := false, done := true, sent := false }
    lastCmd := 0x00000009
    cnt := Counters.zero
    out := { s.out with closed := true } }

/-- The values R39 gives after reset, and at power-on the streams of R35. -/
def Obligations.ResetState : Prop :=
  State.reset.flags = Flags.mk false false false false false false false false ∧
  State.reset.errs = { code := 0, kind := 0, cmd := 0, pos := 0 } ∧ State.reset.lastCmd = 0 ∧
  State.reset.cnt = { cntIn := 0, cntOut := 0, cntSym := 0, cntSkip := 0 } ∧
  State.reset.tree = { root := 0, nodeCount := 0, leafCount := 0 } ∧
  State.reset.codes.entry = Vector.replicate 257 false ∧
  State.reset.inp = { bits := [], pos := 0 } ∧ State.reset.out = { bits := [], closed := false } ∧
  State.reset.hdrStack = none

/-- The reset input, at a command boundary or while BUSY = 1: every piece of state to its value of R39, a command in progress
ended without DONE or an error, and IN, OUT and OUT_CLOSED unchanged (R270). -/
def Obligations.HardResetKeepsTheStreams : Prop :=
  ∀ (s : State) (q : List HostAction), s.host.queue = .reset :: q →
    ∃ fr nd ln vl, step s = .next { State.reset with
      freq := fr
      node := nd
      codes := { entry := Vector.replicate 257 false, len := ln, val := vl }
      params := s.params
      inp := s.inp
      out := s.out
      host := { s.host with queue := q }
      draws := s.draws + 1 }

/-! ## COUNT -/

/-- COUNT where no entry overflows: FREQ holds each byte's tally over the whole bytes from IN.pos, FREQ[256] is 1, the previous
call's state is gone, CNT_IN and CNT_SYM count the bits and the bytes, and nothing else changes (R131 to R133, R135). -/
def Obligations.CountTalliesTheInput : Prop :=
  ∀ (s : State) (bs : List (BitVec 8)), s.flags.err = false → s.inp.bits.length < 2 ^ 64 → bytesOf s.restIn = bs →
    (∀ k, tally bs k ≤ 2 ^ s.params.wCount - 1) →
    ∃ fr : Vector Count 257,
      exec .count s = .next { s with
        flags := { Flags.reset with done := true, freqValid := true }
        lastCmd := 0x00000002
        cnt := { Counters.zero with
          cntIn := BitVec.ofNat 64 (8 * bs.length), cntSym := BitVec.ofNat 64 bs.length }
        tree := TreeRegs.zero
        freq := fr
        inp := { s.inp with pos := s.inp.pos + BitVec.ofNat 64 (8 * bs.length) } } ∧
      (∀ b : BitVec 8, fr[byteIdx b].toNat = tally bs (byteIdx b)) ∧ fr[sentinelIdx] = 1

/-- R134: the first byte whose entry is full raises E_COUNT_OVF: IN.pos and CNT_IN include that byte, its entry is unchanged
and CNT_SYM does not count it. -/
def Obligations.CountOverflowRaises : Prop :=
  ∀ (s : State) (pre post : List (BitVec 8)) (b : BitVec 8), s.flags.err = false → s.inp.bits.length < 2 ^ 64 →
    bytesOf s.restIn = pre ++ b :: post → (∀ k, tally pre k ≤ 2 ^ s.params.wCount - 1) →
    tally pre (byteIdx b) = 2 ^ s.params.wCount - 1 →
    ∃ fr : Vector Count 257,
      exec .count s = .next { s with
        flags := { Flags.reset with err := true }
        errs := { code := 0x13, kind := 4, cmd := 0x02, pos := s.inp.pos + BitVec.ofNat 64 (8 * (pre.length + 1)) }
        lastCmd := 0x00000002
        cnt := { Counters.zero with
          cntIn := BitVec.ofNat 64 (8 * (pre.length + 1)), cntSym := BitVec.ofNat 64 pre.length }
        tree := TreeRegs.zero
        freq := fr
        inp := { s.inp with pos := s.inp.pos + BitVec.ofNat 64 (8 * (pre.length + 1)) }
        hdrStack := none } ∧
      ∀ k, fr[k].toNat = tally pre k

/-! ## BUILD -/

/-- BUILD's registers and leaves: with L leaves, one per symbol with a nonzero count in ascending order, and the padding leaf
first where there is only one (R141, R143), ROOT = 2L - 2, NODE_COUNT = 2L - 1, LEAF_COUNT = L (R148), the leaves stand at
0..L-1 (R147), the sentinel's last, the root is internal, and entries from NODE_COUNT on and everything else are as before. The
sentinel's count is nonzero whenever FREQ_VALID = 1 (R133). -/
def Obligations.BuildMakesOneLeafPerSymbol : Prop :=
  ∀ (s : State) (leaves : List Node) (L : Nat), s.flags.err = false → s.flags.freqValid = true → s.freq[sentinelIdx] ≠ 0 →
    (let live := allSyms.filter (fun k => s.freq[k] != 0)
     leaves = (if live.length = 1 then [Node.mkLeaf 0 0] else []) ++
       live.map (fun k => Node.mkLeaf (symOf k) (s.freq[k].setWidth 41))) →
    L = leaves.length →
    ∃ nd : Vector Node 513,
      exec .build s = .next { s with
        flags := { s.flags with
          busy := false
          done := true
          sent := false
          treeValid := true
          treeOrigin := false
          codesValid := false }
        lastCmd := 0x00000003
        cnt := Counters.zero
        tree := TreeRegs.mk (BitVec.ofNat 10 (2 * L - 2)) (BitVec.ofNat 10 (2 * L - 1)) (BitVec.ofNat 10 L)
        node := nd } ∧
      2 ≤ L ∧ L ≤ 257 ∧ (∀ k, k < L → leaves[k]? = some (entryAt nd k)) ∧ (entryAt nd (L - 1)).sym = sentinelSym ∧
      (entryAt nd (2 * L - 2)).leaf = false ∧
      ∀ k, 2 * L - 1 ≤ k → k < 513 → entryAt nd k = entryAt s.node k

/-- R142 and R144 to R147: each internal node k, made in the order of its index, merges the two entries that come first by
(weight, insertion order) among those not yet merged, the first removed as its left child and the second as its right child. -/
def Obligations.BuildMergesTheFirstTwo : Prop :=
  ∀ s t : State, s.flags.err = false → s.flags.freqValid = true → s.freq[sentinelIdx] ≠ 0 → exec .build s = .next t →
    ∀ k, t.tree.leafCount.toNat ≤ k → k < t.tree.nodeCount.toNat → mergesFirstTwo t.node t.tree.leafCount.toNat k

/-- R31, R145 and R150 (i): no weight addition overflows, so each internal node weighs the sum of its children as numbers, and
the root weighs the sum of all frequency entries. -/
def Obligations.BuildWeightsAddUp : Prop :=
  ∀ s t : State, s.flags.err = false → s.flags.freqValid = true → s.freq[sentinelIdx] ≠ 0 → exec .build s = .next t →
    (∀ k, t.tree.leafCount.toNat ≤ k → k < t.tree.nodeCount.toNat →
      (entryAt t.node k).w.toNat =
        (entryAt t.node (entryAt t.node k).left.toNat).w.toNat + (entryAt t.node (entryAt t.node k).right.toNat).w.toNat) ∧
    (entryAt t.node t.tree.root.toNat).w.toNat = freqSum s.freq

/-- R38 (e) and (f) for a built tree, and R141: BUILD leaves one strictly binary tree whose leaf symbols are distinct, include
the sentinel, and are the symbols with a nonzero count, with symbol 0 beside the sentinel where only the sentinel has one. -/
def Obligations.BuildMakesATree : Prop :=
  ∀ s u : State, s.flags.err = false → s.flags.freqValid = true → s.freq[sentinelIdx] ≠ 0 → exec .build s = .next u →
    ∃ t, treeAt u t = true ∧ t.built = true ∧
      ∀ k : SymIdx, symOf k ∈ t.leaves ↔ (s.freq[k] ≠ 0 ∨ ((∀ j : SymIdx, s.freq[j] ≠ 0 → j = sentinelIdx) ∧ k = 0))

/-! ## DERIVE -/

/-- DERIVE on a built tree: exactly the leaf symbols with a nonzero count get an entry, each holding its leaf's path, CNT_SYM
counts them, and nothing else changes (R161 to R163). -/
def Obligations.DeriveRecordsThePaths : Prop :=
  ∀ (s : State) (t : HTree), s.flags.err = false → s.flags.treeValid = true → s.flags.treeOrigin = false →
    treeAt s t = true → t.leaves.Nodup →
    ∃ c : CodeTable,
      exec .derive s = .next { s with
        flags := { s.flags with busy := false, done := true, sent := false, codesValid := true }
        lastCmd := 0x00000004
        cnt := { Counters.zero with
          cntSym := BitVec.ofNat 64 (allSyms.filter (fun k => decide (symOf k ∈ t.leaves) && s.freq[k] != 0)).length }
        codes := c } ∧
      (∀ k : SymIdx, c.entry[k] = true ↔ (symOf k ∈ t.leaves ∧ s.freq[k] ≠ 0)) ∧
      (∀ (k : SymIdx) (p : List Bool), (p, symOf k) ∈ t.paths → s.freq[k] ≠ 0 →
        c.len[k].toNat = p.length ∧ c.val[k].toNat = valOf p) ∧
      ∀ k : SymIdx, c.entry[k] = false → c.len[k] = s.codes.len[k] ∧ c.val[k] = s.codes.val[k]

/-- The codes of a complete table are prefix-free (R86, R237; an inference the spec marks as its own). -/
def Obligations.CodesArePrefixFree : Prop :=
  ∀ (s : State) (k j : SymIdx), Inv s → s.flags.codesValid = true → s.codes.entry[k] = true → s.codes.entry[j] = true →
    k ≠ j → ¬ codeBits s.codes k <+: codeBits s.codes j

/-! ## The header codec -/

/-- WRHDR appends the magic, most significant bit first, and the tree's header in preorder, 32 + 11L - 1 bits for L leaves, and
changes nothing else (R80 to R82, R171 to R173). -/
def Obligations.WrhdrWritesMagicAndHeader : Prop :=
  ∀ (s : State) (t : HTree), s.flags.err = false → s.flags.treeValid = true → s.out.closed = false → treeAt s t = true →
    exec .wrhdr s = .next { s with
      flags := { s.flags with busy := false, done := true, sent := false }
      lastCmd := 0x00000005
      cnt := { Counters.zero with cntOut := BitVec.ofNat 64 (32 + (11 * t.leaves.length - 1)) }
      out := { s.out with bits := s.out.bits ++ bitsOf 32 s.params.magic.toNat ++ t.header } }

/-- RDHDR on the magic and any header of at most 513 nodes with legal symbols: the tree stands in the arena in preorder with
ROOT = 0 and all weights 0, the counts are its own, IN.pos stands after the header, and nothing else changes (R181, R183, R187
to R189). -/
def Obligations.RdhdrRebuildsTheTree : Prop :=
  ∀ (s : State) (t : HTree) (rest : List Bool), s.flags.err = false → s.inp.bits.length < 2 ^ 64 →
    s.restIn = bitsOf 32 s.params.magic.toNat ++ (t.header ++ rest) → t.symsLegal = true → t.size ≤ 513 →
    ∃ nd : Vector Node 513,
      exec .rdhdr s = .next { s with
        flags := { Flags.reset with done := true, treeValid := true, treeOrigin := true }
        lastCmd := 0x00000006
        cnt := { Counters.zero with cntIn := BitVec.ofNat 64 (32 + (11 * t.leaves.length - 1)) }
        tree := { root := 0, nodeCount := BitVec.ofNat 10 t.size, leafCount := BitVec.ofNat 10 t.leaves.length }
        node := nd
        inp := { s.inp with pos := s.inp.pos + BitVec.ofNat 64 (32 + (11 * t.leaves.length - 1)) }
        hdrStack := none } ∧
      holds nd t 0 = true ∧ places nd t 0 = (List.range t.size).map (BitVec.ofNat 10) ∧
      (∀ k, k < t.size → (entryAt nd k).w = 0) ∧ ∀ k, t.size ≤ k → k < 513 → entryAt nd k = entryAt s.node k

/-- R182: fewer than 32 bits left raise E_MAGIC_SHORT with nothing consumed; 32 bits that differ from MAGIC raise
E_MAGIC_MISMATCH with them consumed; both are kind 1, no header bit is read and OUT is not written. -/
def Obligations.RdhdrChecksTheMagic : Prop :=
  ∀ s : State, s.flags.err = false →
    (s.remaining < 32 → exec .rdhdr s = .next { s with
      flags := { Flags.reset with err := true }
      errs := { code := 0x02, kind := 1, cmd := 0x06, pos := s.inp.pos }
      lastCmd := 0x00000006
      cnt := Counters.zero
      tree := TreeRegs.zero
      hdrStack := none }) ∧
    (32 ≤ s.remaining → BitVec.ofNat 32 (valOf (s.restIn.take 32)) ≠ s.params.magic → exec .rdhdr s = .next { s with
      flags := { Flags.reset with err := true }
      errs := { code := 0x01, kind := 1, cmd := 0x06, pos := s.inp.pos + 32 }
      lastCmd := 0x00000006
      cnt := { Counters.zero with cntIn := 32 }
      tree := TreeRegs.zero
      inp := { s.inp with pos := s.inp.pos + 32 }
      hdrStack := none })

/-- A header cut after whole tokens raises E_HDR_EOS with exactly those consumed, NODE_COUNT and LEAF_COUNT counting them; cut
inside a leaf's symbol it raises E_HDR_EOS with the leaf's flag consumed, none of the 0 to 8 symbol bits, and the leaf's entry
counted in NODE_COUNT (R184, R189 (b), (d), (e), (h)). The tokens need not begin any tree's header of 513 nodes or fewer. The
arena is the one the tokens' own meanings make. The last part says the same of the header reader's single turn, in a state inside
a header read (log 6), where a full arena, NODE_COUNT ≥ 513 (log 7), comes before the symbol (R245). -/
def Obligations.RdhdrRefusesACutHeader : Prop :=
  (∀ (s : State) (ts : List Instr), s.flags.err = false → s.inp.bits.length < 2 ^ 64 → goodTokens ts = true →
    headerOpen 1 ts ≠ 0 →
    (ts.length ≤ 513 → s.restIn = bitsOf 32 s.params.magic.toNat ++ tokenBits ts →
      ∃ u, execAll ts (headerStart s) = .next u ∧ tokensWritten ts s.node u.node ∧
        exec .rdhdr s = .next (rdhdrFailed .hdrEos (32 + (tokenBits ts).length) (tokenCounts ts 0) u.node s)) ∧
    ∀ c : List Bool, ts.length < 513 → c.length < 9 →
      s.restIn = bitsOf 32 s.params.magic.toNat ++ (tokenBits ts ++ true :: c) →
      ∃ u, execAll ts (headerStart s) = .next u ∧ tokensWritten ts s.node u.node ∧
        exec .rdhdr s = .next (rdhdrFailed .hdrEos (32 + (tokenBits ts).length + 1) (tokenCounts ts 1) u.node s)) ∧
  ∀ (s : State) (stack : List HdrFrame), s.flags.busy = true → s.hdrStack = some stack → s.host.queue = [] →
    s.inp.bits.length < 2 ^ 64 →
    (s.restIn = [] → step s = .next { s with
      flags := { s.flags.dropValid with busy := false, err := true }
      errs := { code := 0x03, kind := 2, cmd := s.lastCmd.extractLsb' 0 8, pos := s.inp.pos }
      hdrStack := none }) ∧
    ∀ c : List Bool, s.restIn = true :: c → c.length < 9 →
      (s.tree.nodeCount.toNat < 513 → step s = .next { s with
        flags := { s.flags.dropValid with busy := false, err := true }
        errs := { code := 0x03, kind := 2, cmd := s.lastCmd.extractLsb' 0 8, pos := s.inp.pos + 1 }
        cnt := { s.cnt with cntIn := s.cnt.cntIn + 1 }
        tree := { s.tree with nodeCount := s.tree.nodeCount + 1 }
        inp := { s.inp with pos := s.inp.pos + 1 }
        hdrStack := none }) ∧
      (513 ≤ s.tree.nodeCount.toNat → step s = .next { s with
        flags := { s.flags.dropValid with busy := false, err := true }
        errs := { code := 0x06, kind := 2, cmd := s.lastCmd.extractLsb' 0 8, pos := s.inp.pos + 1 }
        cnt := { s.cnt with cntIn := s.cnt.cntIn + 1 }
        inp := { s.inp with pos := s.inp.pos + 1 }
        hdrStack := none })

/-- The first leaf whose symbol field holds 257..511 raises E_HDR_SYMBOL, with its 9 bits consumed and its entry counted in
NODE_COUNT but not in LEAF_COUNT, whatever follows it on IN, and also where IN ends there (R185, R245). Before it stand whole
tokens with legal symbols, which have not ended the header; the arena is the one they make. -/
def Obligations.RdhdrRefusesABadSymbol : Prop :=
  ∀ (s : State) (ts : List Instr) (y : Sym) (rest : List Bool), s.flags.err = false → s.inp.bits.length < 2 ^ 64 →
    goodTokens ts = true → headerOpen 1 ts ≠ 0 → ts.length < 513 → 256 < y.toNat →
    s.restIn = bitsOf 32 s.params.magic.toNat ++ (tokenBits ts ++ (true :: (bitsOf 9 y.toNat ++ rest))) →
    ∃ u, execAll ts (headerStart s) = .next u ∧ tokensWritten ts s.node u.node ∧
      exec .rdhdr s = .next (rdhdrFailed .hdrSymbol (32 + (tokenBits ts).length + 10) (tokenCounts ts 1) u.node s)

/-- After 513 whole tokens that have not ended the header, the flag of a 514th node, 0 or 1, is consumed and raises
E_HDR_OVERSIZE, whatever follows it; NODE_COUNT is 513 and LEAF_COUNT counts the leaves among the 513 (R186, R189 (e), (h)). -/
def Obligations.RdhdrRefusesABigHeader : Prop :=
  ∀ (s : State) (ts : List Instr) (f : Bool) (rest : List Bool), s.flags.err = false → s.inp.bits.length < 2 ^ 64 →
    goodTokens ts = true → headerOpen 1 ts ≠ 0 → ts.length = 513 →
    s.restIn = bitsOf 32 s.params.magic.toNat ++ (tokenBits ts ++ f :: rest) →
    ∃ u, execAll ts (headerStart s) = .next u ∧ tokensWritten ts s.node u.node ∧
      exec .rdhdr s = .next (rdhdrFailed .hdrOversize (32 + (tokenBits ts).length + 1) (tokenCounts ts 0) u.node s)

/-- The token 0 inside a header read: a new internal node waits for its children, or the arena is full and E_HDR_OVERSIZE is
raised with the flag bit consumed (R183, R186). R186 says NODE_COUNT = 513 of a full arena; that the model asks NODE_COUNT ≥ 513
is its own reading (log 7). Outside a header read the model refuses the token (log 6). -/
def Obligations.InternalTokenOpensANode : Prop :=
  ∀ s : State,
    (s.hdrStack = none → exec .hdrInternal s = .refused .tokenOutsideHeader) ∧
    ∀ stack : List HdrFrame, s.hdrStack = some stack →
      (∀ i : Fin 513, i.val = s.tree.nodeCount.toNat → exec .hdrInternal s = .next { s with
        cnt := { s.cnt with cntIn := s.cnt.cntIn + 1 }
        tree := { s.tree with nodeCount := s.tree.nodeCount + 1 }
        node := s.node.set i (Node.mkInternal 0 0 0)
        inp := { s.inp with pos := s.inp.pos + 1 }
        hdrStack := some (.wantLeft i :: stack) }) ∧
      (513 ≤ s.tree.nodeCount.toNat → exec .hdrInternal s = .next { s with
        flags := { s.flags.dropValid with busy := false, err := true }
        errs := { code := 0x06, kind := 2, cmd := s.lastCmd.extractLsb' 0 8, pos := s.inp.pos + 1 }
        cnt := { s.cnt with cntIn := s.cnt.cntIn + 1 }
        inp := { s.inp with pos := s.inp.pos + 1 }
        hdrStack := none })

/-- The leaf token inside a header read (R183). With room in the arena and a legal symbol it always completes, whatever nodes
wait: the leaf is written at index NODE_COUNT, its index completes every parent that waits for a right child, innermost first,
each of which returns its own index, and the last index returned ends the header as its ROOT where no node waits, or is
remembered as the left child of the node that does. Every stack of waiting nodes has one of these two forms. A symbol above 256
raises E_HDR_SYMBOL with its 9 bits consumed and the leaf's entry counted in NODE_COUNT (R185); a full arena raises E_HDR_OVERSIZE
with the flag bit consumed (R186), and that the model asks NODE_COUNT ≥ 513 of it is its own reading (log 7). That a token has a
meaning of its own, and that the model refuses it outside a header read, is the model's choice (log 6). -/
def Obligations.LeafTokenClosesANode : Prop :=
  ∀ (s : State) (y : Sym),
    (s.hdrStack = none → exec (.hdrLeaf y) s = .refused .tokenOutsideHeader) ∧
    ∀ stack : List HdrFrame, s.hdrStack = some stack →
      (s.tree.nodeCount.toNat < 513 → y.toNat ≤ 256 →
        ∃ t, exec (.hdrLeaf y) s = .next t ∧ t.flags.err = s.flags.err ∧ t.tree.leafCount = s.tree.leafCount + 1) ∧
      (∀ (i : Fin 513) (rights : List (Fin 513 × NodeIdx)), i.val = s.tree.nodeCount.toNat → y.toNat ≤ 256 →
        (let closed := closeParents rights s.tree.nodeCount (s.node.set i (Node.mkLeaf y 0))
         let t : State := { s with
          cnt := { s.cnt with cntIn := s.cnt.cntIn + 10 }
          tree := { s.tree with nodeCount := s.tree.nodeCount + 1, leafCount := s.tree.leafCount + 1 }
          node := closed.1
          inp := { s.inp with pos := s.inp.pos + 10 } }
         (stack = rights.map (fun p => .wantRight p.1 p.2) → exec (.hdrLeaf y) s = .next { t with
           flags := { s.flags with busy := false, done := true, treeValid := true, treeOrigin := true }
           tree := { t.tree with root := closed.2 }
           hdrStack := none }) ∧
         ∀ (j : Fin 513) (below : List HdrFrame), stack = rights.map (fun p => .wantRight p.1 p.2) ++ .wantLeft j :: below →
           exec (.hdrLeaf y) s = .next { t with hdrStack := some (.wantRight j closed.2 :: below) })) ∧
      (s.tree.nodeCount.toNat < 513 → 256 < y.toNat → exec (.hdrLeaf y) s = .next { s with
        flags := { s.flags.dropValid with busy := false, err := true }
        errs := { code := 0x05, kind := 2, cmd := s.lastCmd.extractLsb' 0 8, pos := s.inp.pos + 10 }
        cnt := { s.cnt with cntIn := s.cnt.cntIn + 10 }
        tree := { s.tree with nodeCount := s.tree.nodeCount + 1 }
        inp := { s.inp with pos := s.inp.pos + 10 }
        hdrStack := none }) ∧
      (513 ≤ s.tree.nodeCount.toNat → exec (.hdrLeaf y) s = .next { s with
        flags := { s.flags.dropValid with busy := false, err := true }
        errs := { code := 0x06, kind := 2, cmd := s.lastCmd.extractLsb' 0 8, pos := s.inp.pos + 1 }
        cnt := { s.cnt with cntIn := s.cnt.cntIn + 1 }
        inp := { s.inp with pos := s.inp.pos + 1 }
        hdrStack := none })

/-- Every header RDHDR accepts is the header of a tree, which the arena then holds (R38 (e), R183, R188). -/
def Obligations.AcceptedHeadersAreTrees : Prop :=
  ∀ s u : State, s.flags.err = false → s.inp.bits.length < 2 ^ 64 → exec .rdhdr s = .next u → u.flags.err = false →
    ∃ t, s.restIn = bitsOf 32 s.params.magic.toNat ++ (t.header ++ u.restIn) ∧ treeAt u t = true

/-- R232, header fidelity. A tree written by WRHDR and read by RDHDR on a machine with the same MAGIC is read as the same tree
(shape and leaf symbols, so every path), and a header RDHDR accepted is written again bit for bit by WRHDR. -/
def Obligations.HeaderFidelity : Prop :=
  (∀ (s : State) (t : HTree), s.flags.err = false → s.flags.treeValid = true → s.out.closed = false → treeAt s t = true →
    ∃ w h, exec .wrhdr s = .next w ∧ w.out.bits = s.out.bits ++ (bitsOf 32 s.params.magic.toNat ++ h) ∧
      ∀ (u : State) (rest : List Bool), u.params.magic = s.params.magic → u.flags.err = false →
        u.inp.bits.length < 2 ^ 64 → u.restIn = bitsOf 32 s.params.magic.toNat ++ h ++ rest →
        ∃ v, exec .rdhdr u = .next v ∧ v.flags.treeValid = true ∧ treeAt v t = true ∧ v.restIn = rest) ∧
  ∀ u v : State, u.flags.err = false → u.inp.bits.length < 2 ^ 64 → u.out.closed = false → exec .rdhdr u = .next v →
    v.flags.err = false →
    ∃ h w, u.restIn = bitsOf 32 u.params.magic.toNat ++ h ++ v.restIn ∧ exec .wrhdr v = .next w ∧
      w.out.bits = v.out.bits ++ (bitsOf 32 u.params.magic.toNat ++ h)

/-! ## ENCODE and DECODE -/

/-- ENCODE rewinds IN, appends the code of every byte that has an entry, skips and counts every other byte, appends the
sentinel's code once, and changes nothing else (R200 to R204). -/
def Obligations.EncodeWritesThePayload : Prop :=
  ∀ (s : State) (bs : List (BitVec 8)), s.flags.err = false → s.flags.codesValid = true → s.out.closed = false →
    s.inp.bits.length < 2 ^ 64 → bytesOf s.inp.bits = bs →
    exec .encode s = .next { s with
      flags := { s.flags with busy := false, done := true, sent := false }
      lastCmd := 0x00000007
      cnt :=
        { cntIn := BitVec.ofNat 64 (8 * bs.length)
          cntOut := BitVec.ofNat 64 (payload s.codes bs).length
          cntSym := BitVec.ofNat 64 (bs.filter (fun b => s.codes.entry[byteIdx b])).length
          cntSkip := BitVec.ofNat 64 (bs.filter (fun b => !s.codes.entry[byteIdx b])).length }
      inp := { s.inp with pos := BitVec.ofNat 64 (8 * bs.length) }
      out := { s.out with bits := s.out.bits ++ payload s.codes bs } }

/-- R215: DECODE ends at the first sentinel leaf it reaches and reads no further bit; each data leaf reached before it has
emitted its byte (R211, R214, R218). -/
def Obligations.DecodeEndsAtTheSentinel : Prop :=
  ∀ (s : State) (l r : HTree) (ys : List Sym) (rest : List Bool), s.flags.err = false → s.flags.treeValid = true →
    s.out.closed = false → s.inp.bits.length < 2 ^ 64 → treeAt s (.node l r) = true →
    descend (.node l r) (.node l r) s.restIn = (ys, some rest) →
    exec .decode s = .next { s with
      flags := { s.flags with busy := false, done := true, sent := true }
      lastCmd := 0x00000008
      cnt :=
        { cntIn := BitVec.ofNat 64 (s.remaining - rest.length)
          cntOut := BitVec.ofNat 64 (8 * ys.length)
          cntSym := BitVec.ofNat 64 ys.length
          cntSkip := 0 }
      inp := { s.inp with pos := s.inp.pos + BitVec.ofNat 64 (s.remaining - rest.length) }
      out := { s.out with bits := s.out.bits ++ emitted ys } }

/-- R213: where the bits end before the sentinel's leaf is reached, DECODE raises E_PAY_EOS with every bit consumed, and the
bytes already emitted stay on OUT. -/
def Obligations.DecodeRunsOutOfBits : Prop :=
  ∀ (s : State) (l r : HTree) (ys : List Sym), s.flags.err = false → s.flags.treeValid = true → s.out.closed = false →
    s.inp.bits.length < 2 ^ 64 → s.inp.pos.toNat ≤ s.inp.bits.length → treeAt s (.node l r) = true →
    descend (.node l r) (.node l r) s.restIn = (ys, none) →
    exec .decode s = .next { s with
      flags := { Flags.reset with err := true }
      errs := { code := 0x04, kind := 2, cmd := 0x08, pos := BitVec.ofNat 64 s.inp.bits.length }
      lastCmd := 0x00000008
      cnt :=
        { cntIn := BitVec.ofNat 64 s.remaining
          cntOut := BitVec.ofNat 64 (8 * ys.length)
          cntSym := BitVec.ofNat 64 ys.length
          cntSkip := 0 }
      inp := { s.inp with pos := BitVec.ofNat 64 s.inp.bits.length }
      out := { s.out with bits := s.out.bits ++ emitted ys }
      hdrStack := none }

/-- R212: a leaf root is refused with E_TREE_LEAFROOT, kind 2, before any bit is read. -/
def Obligations.DecodeRefusesALeafRoot : Prop :=
  ∀ (s : State) (y : Sym), s.flags.err = false → s.flags.treeValid = true → s.out.closed = false →
    holds s.node (.leaf y) s.tree.root = true →
    exec .decode s = .next { s with
      flags := { Flags.reset with err := true }
      errs := { code := 0x07, kind := 2, cmd := 0x08, pos := s.inp.pos }
      lastCmd := 0x00000008
      cnt := Counters.zero
      hdrStack := none }

/-- The payload part of R230: the bits ENCODE appends for an input whose bytes all have entries, read by DECODE on any tree of
the same shape, give the input back, end at the sentinel, and leave what follows unread. -/
def Obligations.PayloadFidelity : Prop :=
  ∀ (s u : State) (l r : HTree) (bs : List (BitVec 8)) (rest : List Bool),
    s.flags.err = false → s.flags.codesValid = true → s.out.closed = false → s.inp.bits.length < 2 ^ 64 →
    bytesOf s.inp.bits = bs → codesFor s.freq (.node l r) s.codes = true → (∀ b ∈ bs, s.codes.entry[byteIdx b] = true) →
    s.codes.entry[sentinelIdx] = true →
    u.flags.err = false → u.flags.treeValid = true → u.out.closed = false → u.inp.bits.length < 2 ^ 64 →
    treeAt u (.node l r) = true →
    ∃ w h, exec .encode s = .next w ∧ w.out.bits = s.out.bits ++ h ∧
      (u.restIn = h ++ rest →
        ∃ v, exec .decode u = .next v ∧ v.flags.sent = true ∧ v.out.bits = u.out.bits ++ bitsOfBytes bs ∧ v.restIn = rest)

/-- R230, round-trip: from any state with ERR = 0, COMPRESS on the bits of any bytes none of which overflows a count, and then
DECOMPRESS on OUT's bits on any machine with the same MAGIC, end without error with the bytes' bits on OUT. SENT = 1 when DECODE
has ended at the sentinel; FLUSH, DECOMPRESS's last command, writes no bit and clears it (log 9). -/
def Obligations.RoundTrip : Prop :=
  ∀ (s : State) (bs : List (BitVec 8)), s.flags.err = false → s.inp = { bits := bitsOfBytes bs, pos := 0 } →
    s.out = { bits := [], closed := false } → 8 * bs.length < 2 ^ 64 → (∀ k, tally bs k ≤ 2 ^ s.params.wCount - 1) →
    ∃ w, execAll (compressOpen ++ [.flush]) s = .next w ∧ w.flags.err = false ∧
      ∀ u : State, u.params.magic = s.params.magic → u.flags.err = false → u.inp = { bits := w.out.bits, pos := 0 } →
        w.out.bits.length < 2 ^ 64 → u.out = { bits := [], closed := false } →
        ∃ v x, execAll decompressOpen u = .next v ∧ v.flags.err = false ∧ v.flags.sent = true ∧ v.out.bits = bitsOfBytes bs ∧
          exec .flush v = .next x ∧ x.flags.err = false ∧ x.out.bits = bitsOfBytes bs

/-- R231, determinism: what COMPRESS puts on OUT is a function of the bytes and of MAGIC alone: neither the state before it nor
W_COUNT shows in it, where no count overflows. -/
def Obligations.CompressionIsDeterministic : Prop :=
  ∀ (s s' : State) (bs : List (BitVec 8)), s.flags.err = false → s'.flags.err = false →
    s.inp = { bits := bitsOfBytes bs, pos := 0 } → s'.inp = s.inp → 8 * bs.length < 2 ^ 64 →
    s.out = { bits := [], closed := false } → s'.out = s.out → s'.params.magic = s.params.magic →
    (∀ k, tally bs k ≤ 2 ^ s.params.wCount - 1) → (∀ k, tally bs k ≤ 2 ^ s'.params.wCount - 1) →
    ∃ w w', execAll (compressOpen ++ [.flush]) s = .next w ∧ execAll (compressOpen ++ [.flush]) s' = .next w' ∧
      w.out.bits = w'.out.bits

/-! ## Invariants of every step -/

/-- The state right after reset meets every invariant of R38. -/
def Obligations.ResetMeetsTheInvariants : Prop := Inv State.reset

/-- Commands are atomic (R37, R110): a step from a command boundary ends at one; and it keeps R38 (a) to (d), and that DONE and
SENT exclude ERR (R22). -/
def Obligations.StepKeepsTheFlags : Prop :=
  ∀ s t : State, boundary s = true → flagsInv s.flags = true → step s = .next t → boundary t = true ∧ flagsInv t.flags = true

/-- R24, R240, R241 and R250: while ERR = 1 the error registers hold a listed code, its kind and LASTCMD's OP field, and while
ERR = 0 they are 0: kept by every step, inside a header read too. -/
def Obligations.StepKeepsTheErrorRegisters : Prop :=
  ∀ s t : State, errInv s = true → step s = .next t → errInv t = true

/-- R28 and R133: FREQ's entries fit W_COUNT bits, and a complete table counts the sentinel once: kept by every step from a
command boundary. -/
def Obligations.StepKeepsFreq : Prop :=
  ∀ s t : State, boundary s = true → freqInv s = true → step s = .next t → freqInv t = true

/-- R35: IN.pos stays a position of IN, and IN stays below the length R283 asks for: kept by every step. -/
def Obligations.StepKeepsInPos : Prop :=
  ∀ s t : State, streamInv s.inp = true → step s = .next t → streamInv t.inp = true

/-- R34 and R55: no step changes the parameters, and only AttachIn changes IN's bits. -/
def Obligations.StepKeepsParametersAndInput : Prop :=
  ∀ s t : State, step s = .next t →
    t.params = s.params ∧ (t.inp.bits = s.inp.bits ∨ ∃ b q, s.host.queue = .attachIn b :: q ∧ t.inp.bits = b)

/-- R248 and R54: OUT only grows, by bits at its end, unless the host attaches a new one; and once closed it is not written
(R113). -/
def Obligations.StepOnlyAppendsToOut : Prop :=
  ∀ s t : State, step s = .next t → (∀ q, s.host.queue ≠ .attachOut :: q) →
    (∃ b, t.out.bits = s.out.bits ++ b) ∧ (s.out.closed = true → t.out = s.out)

/-- The headline invariant: every step keeps R38 whole, with the tree of (e), the distinct symbols and the sentinel of (f), and
a complete code table holding the paths of the tree. -/
def Obligations.StepKeepsTheInvariants : Prop :=
  ∀ s t : State, Inv s → step s = .next t → Inv t

/-- R110 and R238: with the invariants of R38 every command ends, normally or with an error, in a state with the invariants. -/
def Obligations.EveryCommandEnds : Prop :=
  ∀ (i : Instr) (s : State), i.isCommand = true → Inv s → ∃ t, exec i s = .next t ∧ Inv t

/-- With the invariants no step faults, and the one refusal is an AttachIn of 2^64 bits or more (R238, R283; the faults and the
refusals are the model's, log 7). -/
def Obligations.InvariantStatesNeverFault : Prop :=
  ∀ s : State, Inv s →
    (∀ f, step s ≠ .fault f) ∧
    ∀ r, step s = .refused r → ∃ b q, s.host.queue = .attachIn b :: q ∧ 2 ^ 64 ≤ b.length

/-- R40 and R119: no command reads an array entry whose validity condition fails: from two states with the invariants that
differ in such entries only, a command gives two states that differ in such entries only. -/
def Obligations.UnspecReachesNoCommand : Prop :=
  ∀ (i : Instr) (s s' t : State), i.isCommand = true → Inv s → Inv s' → sameVisible s s' → exec i s = .next t →
    ∃ t', exec i s' = .next t' ∧ sameVisible t t'

/-! ## The register window and the host -/

/-- R40 and R63: what an invalid entry holds never shows in a read: the bits a read leaves UNSPEC come from the free draw. -/
def Obligations.InvalidEntriesDoNotShow : Prop :=
  ∀ (s s' : State) (u : Word) (a : Addr), sameVisible s s' → readWindow s u a = readWindow s' u a

/-- The layout of STATUS, bit by bit (R62), and BUSY among its bits at any time (R65). -/
def Obligations.StatusLayout : Prop :=
  ∀ (s : State) (u : Word),
    let w := readWindow s u 0x0001
    w.getLsbD 0 = s.flags.busy ∧ w.getLsbD 1 = s.flags.done ∧ w.getLsbD 2 = s.flags.err ∧ w.getLsbD 3 = s.flags.freqValid ∧
    w.getLsbD 4 = s.flags.treeValid ∧ w.getLsbD 5 = s.flags.treeOrigin ∧ w.getLsbD 6 = s.flags.codesValid ∧
    w.getLsbD 7 = s.flags.sent ∧ w.getLsbD 8 = s.out.closed ∧ w.extractLsb' 9 23 = 0

/-- What reads return while BUSY = 0 but for STATUS, which StatusLayout gives (R62 to R64): every scalar register at its address,
FREQ, the links and both halves of the weight of a node, and the code table, each while it is valid; bit 31 of CODE_INFO exact in
every state; 0 at CMD and at every address that R62 and R63 do not list. That bits 30..9 of an invalid CODE_INFO read 0 is the
model's reading (log 4). -/
def Obligations.ValidEntriesReadExactly : Prop :=
  ∀ (s : State) (u : Word), s.flags.busy = false →
    readWindow s u 0x0000 = 0x48554631 ∧
    readWindow s u 0x0002 = (s.errs.cmd.setWidth 32 <<< 12) ||| (s.errs.kind.setWidth 32 <<< 8) ||| s.errs.code.setWidth 32 ∧
    readWindow s u 0x0003 = s.errs.pos.extractLsb' 0 32 ∧ readWindow s u 0x0004 = s.errs.pos.extractLsb' 32 32 ∧
    readWindow s u 0x0005 = s.lastCmd ∧
    (readWindow s u 0x0006).toNat = s.tree.root.toNat ∧ (readWindow s u 0x0007).toNat = s.tree.nodeCount.toNat ∧
    (readWindow s u 0x0008).toNat = s.tree.leafCount.toNat ∧
    readWindow s u 0x0009 = s.cnt.cntIn.extractLsb' 0 32 ∧ readWindow s u 0x000A = s.cnt.cntIn.extractLsb' 32 32 ∧
    readWindow s u 0x000B = s.cnt.cntOut.extractLsb' 0 32 ∧ readWindow s u 0x000C = s.cnt.cntOut.extractLsb' 32 32 ∧
    readWindow s u 0x000D = s.cnt.cntSym.extractLsb' 0 32 ∧ readWindow s u 0x000E = s.cnt.cntSym.extractLsb' 32 32 ∧
    readWindow s u 0x000F = s.cnt.cntSkip.extractLsb' 0 32 ∧ readWindow s u 0x0010 = s.cnt.cntSkip.extractLsb' 32 32 ∧
    readWindow s u 0x0011 = s.params.magic ∧ (readWindow s u 0x0012).toNat = s.params.wCount + 513 * 2 ^ 8 ∧
    readWindow s u 0x0013 = s.inp.pos.extractLsb' 0 32 ∧ readWindow s u 0x0014 = s.inp.pos.extractLsb' 32 32 ∧
    readWindow s u 0x0020 = 0 ∧
    (∀ a : Addr, unlisted a.toNat = true → readWindow s u a = 0) ∧
    (∀ k : SymIdx, s.flags.freqValid = true → readWindow s u (BitVec.ofNat 16 (0x0100 + k.val)) = s.freq[k]) ∧
    (∀ i : Fin 513, s.flags.treeValid = true → i.val < s.tree.nodeCount.toNat →
      (let w := readWindow s u (BitVec.ofNat 16 (0x0400 + i.val))
       w.extractLsb' 0 10 = s.node[i].left ∧ w.extractLsb' 10 10 = s.node[i].right ∧ w.extractLsb' 20 9 = s.node[i].sym ∧
         w.extractLsb' 29 2 = 0 ∧ w.getLsbD 31 = s.node[i].leaf) ∧
      readWindow s u (BitVec.ofNat 16 (0x0800 + i.val)) = s.node[i].w.extractLsb' 0 32 ∧
      (readWindow s u (BitVec.ofNat 16 (0x0C00 + i.val))).toNat = s.node[i].w.toNat / 2 ^ 32) ∧
    ∀ k : SymIdx,
      (let w := readWindow s u (BitVec.ofNat 16 (0x1000 + k.val))
       w.getLsbD 31 = (s.flags.codesValid && s.codes.entry[k]) ∧ w.extractLsb' 9 22 = 0 ∧
         (s.flags.codesValid = true → s.codes.entry[k] = true → w.extractLsb' 0 9 = s.codes.len[k])) ∧
      (s.flags.codesValid = true → s.codes.entry[k] = true → ∀ j : Fin 8,
        readWindow s u (BitVec.ofNat 16 (0x2000 + 8 * k.val + j.val)) = s.codes.val[k].extractLsb' (32 * j.val) 32)

/-- R61 and R64: a host read changes nothing but what the host has been handed, and a write to any address but CMD changes
nothing at all, at a command boundary and while BUSY = 1. The queue, the log and the count of free draws are the model's
(logs 2 and 4). -/
def Obligations.HostAccessesHaveNoSideEffect : Prop :=
  ∀ (s : State) (a : Addr) (v : Word) (q : List HostAction),
    (s.host.queue = .memRead a :: q → step s = .next { s with
      host := { queue := q, log := .readback a (readWindow s (Config.unspecRead s.draws) a) :: s.host.log }
      draws := s.draws + 1 }) ∧
    (s.host.queue = .memWrite a v :: q → a ≠ 0x0020 → step s = .next { s with host := { s.host with queue := q } })

/-- The host's stream actions at a command boundary (R280): AttachIn replaces IN and rewinds it, AttachOut empties and opens OUT
and hands the old bits over, and reading OUT changes nothing. An IN of 2^64 bits or more is refused (R283, log 7). -/
def Obligations.AttachReplacesTheStreams : Prop :=
  ∀ (s : State) (b : List Bool) (q : List HostAction), s.flags.busy = false →
    (s.host.queue = .attachIn b :: q → b.length < 2 ^ 64 →
      step s = .next { s with inp := { bits := b, pos := 0 }, host := { s.host with queue := q } }) ∧
    (s.host.queue = .attachIn b :: q → 2 ^ 64 ≤ b.length → step s = .refused .inputTooLong) ∧
    (s.host.queue = .attachOut :: q → step s = .next { s with
      out := { bits := [], closed := false }
      host := { queue := q, log := .outHanded s.out.bits :: s.host.log } }) ∧
    (s.host.queue = .readOut :: q → step s = .next { s with
      host := { queue := q, log := .outRead s.out.bits :: s.host.log } })

/-- While BUSY = 1: a write to CMD is held (R66), a read of any address but STATUS is UNSPEC (R65), and an attach is outside the
model (R281). That nothing behind the held write is served, a reset included, is the model's choice (log 13). -/
def Obligations.BusyHoldsTheHost : Prop :=
  ∀ s : State, s.flags.busy = true →
    (∀ (w : Word) (q : List HostAction) (t : State), s.host.queue = .memWrite 0x0020 w :: q → step s = .next t →
      t.host.queue = s.host.queue) ∧
    (∀ (u : Word) (a : Addr), a ≠ 0x0001 → readWindow s u a = u) ∧
    (∀ (b : List Bool) (q : List HostAction), s.host.queue = .attachIn b :: q → step s = .refused .attachWhileBusy) ∧
    (∀ q : List HostAction, s.host.queue = .attachOut :: q → step s = .refused .attachWhileBusy)
end

