-- ==== Sys2Proof/Laws/Bits.lean ====
section
/-! SUPPORT. Bit sequences and values: the laws of R11's notation, and of the byte reading of a sequence. -/

namespace Sys2Proof.Machine

@[simp] theorem length_bitsOf (n v : Nat) : (bitsOf n v).length = n := by
  induction n with
  | zero => rfl
  | succ n ih => simp [bitsOf, ih]

theorem foldl_valOf (b : List Bool) (acc : Nat) :
    b.foldl (fun a x => 2 * a + x.toNat) acc = acc * 2 ^ b.length + valOf b := by
  induction b generalizing acc with
  | nil => simp [valOf]
  | cons x b ih =>
    have hx : valOf (x :: b) = b.foldl (fun a x => 2 * a + x.toNat) (2 * 0 + x.toNat) := rfl
    rw [List.foldl_cons, ih, hx, ih, List.length_cons, pow_succ]
    ring

@[simp] theorem valOf_nil : valOf [] = 0 := rfl

theorem valOf_cons (x : Bool) (b : List Bool) : valOf (x :: b) = x.toNat * 2 ^ b.length + valOf b := by
  have hx : valOf (x :: b) = b.foldl (fun a x => 2 * a + x.toNat) (2 * 0 + x.toNat) := rfl
  rw [hx, foldl_valOf]
  ring

theorem valOf_append (a b : List Bool) : valOf (a ++ b) = valOf a * 2 ^ b.length + valOf b := by
  have ha : valOf (a ++ b) = b.foldl (fun a x => 2 * a + x.toNat) (valOf a) := by
    rw [valOf, List.foldl_append]; rfl
  rw [ha, foldl_valOf]

theorem valOf_lt (b : List Bool) : valOf b < 2 ^ b.length := by
  induction b with
  | nil => simp
  | cons x b ih =>
    rw [valOf_cons, List.length_cons, pow_succ]
    cases x <;> simp <;> omega

/-- A field written by `bits_n` reads back as the value's low n bits (R57). -/
theorem valOf_bitsOf_mod (n v : Nat) : valOf (bitsOf n v) = v % 2 ^ n := by
  induction n with
  | zero => simp [bitsOf, Nat.mod_one]
  | succ n ih =>
    rw [bitsOf, valOf_cons, ih, length_bitsOf, Nat.mod_pow_succ, Nat.testBit_eq_decide_div_mod_eq]
    have h2 : v / 2 ^ n % 2 < 2 := Nat.mod_lt _ (by omega)
    rcases (by omega : v / 2 ^ n % 2 = 0 ∨ v / 2 ^ n % 2 = 1) with h | h <;> simp [h]
    omega

theorem valOf_bitsOf {n v : Nat} (h : v < 2 ^ n) : valOf (bitsOf n v) = v := by
  rw [valOf_bitsOf_mod, Nat.mod_eq_of_lt h]

theorem bitsOf_mod (n v : Nat) : bitsOf n (v % 2 ^ n) = bitsOf n v := by
  suffices h : ∀ m, m ≤ n → bitsOf m (v % 2 ^ n) = bitsOf m v from h n le_rfl
  intro m
  induction m with
  | zero => intro _; rfl
  | succ m ih =>
    intro hm
    simp only [bitsOf, Nat.testBit_mod_two_pow, ih (by omega)]
    simp [show m < n by omega]

theorem valOf_inj {a b : List Bool} (hl : a.length = b.length) (hv : valOf a = valOf b) : a = b := by
  induction a generalizing b with
  | nil => exact (List.length_eq_zero_iff.mp hl.symm).symm
  | cons x a ih =>
    cases b with
    | nil => simp at hl
    | cons y b =>
      have hl' : a.length = b.length := by simpa using hl
      have ha := valOf_lt a
      have hb := valOf_lt b
      rw [valOf_cons, valOf_cons, hl'] at hv
      rw [hl'] at ha
      have hxy : x = y := by
        cases x <;> cases y <;> simp at hv ⊢ <;> omega
      subst hxy
      rw [ih hl' (by omega)]

/-- The bits of the value a sequence spells are the sequence. -/
theorem bitsOf_valOf (b : List Bool) : bitsOf b.length (valOf b) = b :=
  valOf_inj (by simp) (valOf_bitsOf (valOf_lt b))

@[simp] theorem length_bitsOfBytes (bs : List (BitVec 8)) : (bitsOfBytes bs).length = 8 * bs.length := by
  induction bs with
  | nil => rfl
  | cons b bs ih => simp [bitsOfBytes, ih]; omega

theorem bytesOf_append_byte (b : BitVec 8) (rest : List Bool) :
    bytesOf (bitsOf 8 b.toNat ++ rest) = b :: bytesOf rest := by
  have h : valOf (bitsOf 8 b.toNat) = b.toNat := valOf_bitsOf b.isLt
  simp only [bitsOf] at h
  simp only [bitsOf, List.cons_append, List.nil_append, bytesOf, h, BitVec.ofNat_toNat, BitVec.setWidth_eq]

/-- A byte sequence's bits read back as the bytes, whatever fragment follows (R135 (b)). -/
theorem bytesOf_bitsOfBytes (bs : List (BitVec 8)) {frag : List Bool} (h : frag.length < 8) :
    bytesOf (bitsOfBytes bs ++ frag) = bs := by
  induction bs with
  | nil =>
    match frag, h with
    | [], _ => rfl
    | [_], _ => rfl
    | [_, _], _ => rfl
    | [_, _, _], _ => rfl
    | [_, _, _, _], _ => rfl
    | [_, _, _, _, _], _ => rfl
    | [_, _, _, _, _, _], _ => rfl
    | [_, _, _, _, _, _, _], _ => rfl
  | cons b bs ih => rw [bitsOfBytes, List.append_assoc, bytesOf_append_byte, ih]

theorem bytesOf_of_lt {b : List Bool} (h : b.length < 8) : bytesOf b = [] := by
  simpa [bitsOfBytes] using bytesOf_bitsOfBytes [] h

theorem bytesOf_of_ge {b : List Bool} (h : 8 ≤ b.length) :
    bytesOf b = BitVec.ofNat 8 (valOf (b.take 8)) :: bytesOf (b.drop 8) := by
  match b, h with
  | b7 :: b6 :: b5 :: b4 :: b3 :: b2 :: b1 :: b0 :: rest, _ => simp [bytesOf]

theorem length_bytesOf (b : List Bool) : (bytesOf b).length = b.length / 8 := by
  induction h : b.length / 8 generalizing b with
  | zero => rw [bytesOf_of_lt (by omega)]; rfl
  | succ n ih =>
    rw [bytesOf_of_ge (by omega), List.length_cons, ih (b.drop 8) (by simp; omega)]

end Sys2Proof.Machine
end

