-- ==== Sys2Proof/Laws/State.lean ====
section
/-! SUPPORT. What each named update does to each field of the state: one lemma per field per update, true by definition. -/

namespace Sys2Proof.Machine

variable (s : State)

/-! ### consumeIn -/

@[simp] theorem consumeIn_flags (n : Nat) : (consumeIn n s).flags = s.flags := rfl
@[simp] theorem consumeIn_errs (n : Nat) : (consumeIn n s).errs = s.errs := rfl
@[simp] theorem consumeIn_lastCmd (n : Nat) : (consumeIn n s).lastCmd = s.lastCmd := rfl
@[simp] theorem consumeIn_cnt (n : Nat) : (consumeIn n s).cnt = { s.cnt with cntIn := s.cnt.cntIn + BitVec.ofNat 64 n } := rfl
@[simp] theorem consumeIn_tree (n : Nat) : (consumeIn n s).tree = s.tree := rfl
@[simp] theorem consumeIn_freq (n : Nat) : (consumeIn n s).freq = s.freq := rfl
@[simp] theorem consumeIn_node (n : Nat) : (consumeIn n s).node = s.node := rfl
@[simp] theorem consumeIn_codes (n : Nat) : (consumeIn n s).codes = s.codes := rfl
@[simp] theorem consumeIn_params (n : Nat) : (consumeIn n s).params = s.params := rfl
@[simp] theorem consumeIn_inp (n : Nat) : (consumeIn n s).inp = { s.inp with pos := s.inp.pos + BitVec.ofNat 64 n } := rfl
@[simp] theorem consumeIn_out (n : Nat) : (consumeIn n s).out = s.out := rfl
@[simp] theorem consumeIn_hdrStack (n : Nat) : (consumeIn n s).hdrStack = s.hdrStack := rfl
@[simp] theorem consumeIn_host (n : Nat) : (consumeIn n s).host = s.host := rfl
@[simp] theorem consumeIn_draws (n : Nat) : (consumeIn n s).draws = s.draws := rfl

/-! ### writeBits -/

@[simp] theorem writeBits_flags (n v : Nat) : (writeBits n v s).flags = s.flags := rfl
@[simp] theorem writeBits_errs (n v : Nat) : (writeBits n v s).errs = s.errs := rfl
@[simp] theorem writeBits_lastCmd (n v : Nat) : (writeBits n v s).lastCmd = s.lastCmd := rfl
@[simp] theorem writeBits_cnt (n v : Nat) : (writeBits n v s).cnt = { s.cnt with cntOut := s.cnt.cntOut + BitVec.ofNat 64 n } := rfl
@[simp] theorem writeBits_tree (n v : Nat) : (writeBits n v s).tree = s.tree := rfl
@[simp] theorem writeBits_freq (n v : Nat) : (writeBits n v s).freq = s.freq := rfl
@[simp] theorem writeBits_node (n v : Nat) : (writeBits n v s).node = s.node := rfl
@[simp] theorem writeBits_codes (n v : Nat) : (writeBits n v s).codes = s.codes := rfl
@[simp] theorem writeBits_params (n v : Nat) : (writeBits n v s).params = s.params := rfl
@[simp] theorem writeBits_inp (n v : Nat) : (writeBits n v s).inp = s.inp := rfl
@[simp] theorem writeBits_out (n v : Nat) : (writeBits n v s).out = { s.out with bits := s.out.bits ++ bitsOf n v } := rfl
@[simp] theorem writeBits_hdrStack (n v : Nat) : (writeBits n v s).hdrStack = s.hdrStack := rfl
@[simp] theorem writeBits_host (n v : Nat) : (writeBits n v s).host = s.host := rfl
@[simp] theorem writeBits_draws (n v : Nat) : (writeBits n v s).draws = s.draws := rfl

/-! ### inRewind -/

@[simp] theorem inRewind_flags : (inRewind s).flags = s.flags := rfl
@[simp] theorem inRewind_errs : (inRewind s).errs = s.errs := rfl
@[simp] theorem inRewind_lastCmd : (inRewind s).lastCmd = s.lastCmd := rfl
@[simp] theorem inRewind_cnt : (inRewind s).cnt = s.cnt := rfl
@[simp] theorem inRewind_tree : (inRewind s).tree = s.tree := rfl
@[simp] theorem inRewind_freq : (inRewind s).freq = s.freq := rfl
@[simp] theorem inRewind_node : (inRewind s).node = s.node := rfl
@[simp] theorem inRewind_codes : (inRewind s).codes = s.codes := rfl
@[simp] theorem inRewind_params : (inRewind s).params = s.params := rfl
@[simp] theorem inRewind_inp : (inRewind s).inp = { s.inp with pos := 0 } := rfl
@[simp] theorem inRewind_out : (inRewind s).out = s.out := rfl
@[simp] theorem inRewind_hdrStack : (inRewind s).hdrStack = s.hdrStack := rfl
@[simp] theorem inRewind_host : (inRewind s).host = s.host := rfl
@[simp] theorem inRewind_draws : (inRewind s).draws = s.draws := rfl

/-! ### outClose -/

@[simp] theorem outClose_flags : (outClose s).flags = s.flags := rfl
@[simp] theorem outClose_errs : (outClose s).errs = s.errs := rfl
@[simp] theorem outClose_lastCmd : (outClose s).lastCmd = s.lastCmd := rfl
@[simp] theorem outClose_cnt : (outClose s).cnt = s.cnt := rfl
@[simp] theorem outClose_tree : (outClose s).tree = s.tree := rfl
@[simp] theorem outClose_freq : (outClose s).freq = s.freq := rfl
@[simp] theorem outClose_node : (outClose s).node = s.node := rfl
@[simp] theorem outClose_codes : (outClose s).codes = s.codes := rfl
@[simp] theorem outClose_params : (outClose s).params = s.params := rfl
@[simp] theorem outClose_inp : (outClose s).inp = s.inp := rfl
@[simp] theorem outClose_out : (outClose s).out = { s.out with closed := true } := rfl
@[simp] theorem outClose_hdrStack : (outClose s).hdrStack = s.hdrStack := rfl
@[simp] theorem outClose_host : (outClose s).host = s.host := rfl
@[simp] theorem outClose_draws : (outClose s).draws = s.draws := rfl

/-! ### countSym -/

@[simp] theorem countSym_flags : (countSym s).flags = s.flags := rfl
@[simp] theorem countSym_errs : (countSym s).errs = s.errs := rfl
@[simp] theorem countSym_lastCmd : (countSym s).lastCmd = s.lastCmd := rfl
@[simp] theorem countSym_cnt : (countSym s).cnt = { s.cnt with cntSym := s.cnt.cntSym + 1 } := rfl
@[simp] theorem countSym_tree : (countSym s).tree = s.tree := rfl
@[simp] theorem countSym_freq : (countSym s).freq = s.freq := rfl
@[simp] theorem countSym_node : (countSym s).node = s.node := rfl
@[simp] theorem countSym_codes : (countSym s).codes = s.codes := rfl
@[simp] theorem countSym_params : (countSym s).params = s.params := rfl
@[simp] theorem countSym_inp : (countSym s).inp = s.inp := rfl
@[simp] theorem countSym_out : (countSym s).out = s.out := rfl
@[simp] theorem countSym_hdrStack : (countSym s).hdrStack = s.hdrStack := rfl
@[simp] theorem countSym_host : (countSym s).host = s.host := rfl
@[simp] theorem countSym_draws : (countSym s).draws = s.draws := rfl

/-! ### countSkip -/

@[simp] theorem countSkip_flags : (countSkip s).flags = s.flags := rfl
@[simp] theorem countSkip_errs : (countSkip s).errs = s.errs := rfl
@[simp] theorem countSkip_lastCmd : (countSkip s).lastCmd = s.lastCmd := rfl
@[simp] theorem countSkip_cnt : (countSkip s).cnt = { s.cnt with cntSkip := s.cnt.cntSkip + 1 } := rfl
@[simp] theorem countSkip_tree : (countSkip s).tree = s.tree := rfl
@[simp] theorem countSkip_freq : (countSkip s).freq = s.freq := rfl
@[simp] theorem countSkip_node : (countSkip s).node = s.node := rfl
@[simp] theorem countSkip_codes : (countSkip s).codes = s.codes := rfl
@[simp] theorem countSkip_params : (countSkip s).params = s.params := rfl
@[simp] theorem countSkip_inp : (countSkip s).inp = s.inp := rfl
@[simp] theorem countSkip_out : (countSkip s).out = s.out := rfl
@[simp] theorem countSkip_hdrStack : (countSkip s).hdrStack = s.hdrStack := rfl
@[simp] theorem countSkip_host : (countSkip s).host = s.host := rfl
@[simp] theorem countSkip_draws : (countSkip s).draws = s.draws := rfl

/-! ### bumpFreq -/

@[simp] theorem bumpFreq_flags (k : SymIdx) : (bumpFreq k s).flags = s.flags := rfl
@[simp] theorem bumpFreq_errs (k : SymIdx) : (bumpFreq k s).errs = s.errs := rfl
@[simp] theorem bumpFreq_lastCmd (k : SymIdx) : (bumpFreq k s).lastCmd = s.lastCmd := rfl
@[simp] theorem bumpFreq_cnt (k : SymIdx) : (bumpFreq k s).cnt = s.cnt := rfl
@[simp] theorem bumpFreq_tree (k : SymIdx) : (bumpFreq k s).tree = s.tree := rfl
@[simp] theorem bumpFreq_freq (k : SymIdx) : (bumpFreq k s).freq = s.freq.set k (s.freq[k] + 1) := rfl
@[simp] theorem bumpFreq_node (k : SymIdx) : (bumpFreq k s).node = s.node := rfl
@[simp] theorem bumpFreq_codes (k : SymIdx) : (bumpFreq k s).codes = s.codes := rfl
@[simp] theorem bumpFreq_params (k : SymIdx) : (bumpFreq k s).params = s.params := rfl
@[simp] theorem bumpFreq_inp (k : SymIdx) : (bumpFreq k s).inp = s.inp := rfl
@[simp] theorem bumpFreq_out (k : SymIdx) : (bumpFreq k s).out = s.out := rfl
@[simp] theorem bumpFreq_hdrStack (k : SymIdx) : (bumpFreq k s).hdrStack = s.hdrStack := rfl
@[simp] theorem bumpFreq_host (k : SymIdx) : (bumpFreq k s).host = s.host := rfl
@[simp] theorem bumpFreq_draws (k : SymIdx) : (bumpFreq k s).draws = s.draws := rfl

/-! ### prologue -/

@[simp] theorem prologue_flags (w : Word) : (prologue w s).flags = { s.flags with busy := true, done := false, sent := false } := rfl
@[simp] theorem prologue_errs (w : Word) : (prologue w s).errs = s.errs := rfl
@[simp] theorem prologue_lastCmd (w : Word) : (prologue w s).lastCmd = w := rfl
@[simp] theorem prologue_cnt (w : Word) : (prologue w s).cnt = Counters.zero := rfl
@[simp] theorem prologue_tree (w : Word) : (prologue w s).tree = s.tree := rfl
@[simp] theorem prologue_freq (w : Word) : (prologue w s).freq = s.freq := rfl
@[simp] theorem prologue_node (w : Word) : (prologue w s).node = s.node := rfl
@[simp] theorem prologue_codes (w : Word) : (prologue w s).codes = s.codes := rfl
@[simp] theorem prologue_params (w : Word) : (prologue w s).params = s.params := rfl
@[simp] theorem prologue_inp (w : Word) : (prologue w s).inp = s.inp := rfl
@[simp] theorem prologue_out (w : Word) : (prologue w s).out = s.out := rfl
@[simp] theorem prologue_hdrStack (w : Word) : (prologue w s).hdrStack = s.hdrStack := rfl
@[simp] theorem prologue_host (w : Word) : (prologue w s).host = s.host := rfl
@[simp] theorem prologue_draws (w : Word) : (prologue w s).draws = s.draws := rfl

/-! ### complete -/

@[simp] theorem complete_flags : (complete s).flags = { s.flags with done := true, busy := false } := rfl
@[simp] theorem complete_errs : (complete s).errs = s.errs := rfl
@[simp] theorem complete_lastCmd : (complete s).lastCmd = s.lastCmd := rfl
@[simp] theorem complete_cnt : (complete s).cnt = s.cnt := rfl
@[simp] theorem complete_tree : (complete s).tree = s.tree := rfl
@[simp] theorem complete_freq : (complete s).freq = s.freq := rfl
@[simp] theorem complete_node : (complete s).node = s.node := rfl
@[simp] theorem complete_codes : (complete s).codes = s.codes := rfl
@[simp] theorem complete_params : (complete s).params = s.params := rfl
@[simp] theorem complete_inp : (complete s).inp = s.inp := rfl
@[simp] theorem complete_out : (complete s).out = s.out := rfl
@[simp] theorem complete_hdrStack : (complete s).hdrStack = s.hdrStack := rfl
@[simp] theorem complete_host : (complete s).host = s.host := rfl
@[simp] theorem complete_draws : (complete s).draws = s.draws := rfl

/-! ### startCall -/

@[simp] theorem startCall_flags : (startCall s).flags = s.flags.dropValid := rfl
@[simp] theorem startCall_errs : (startCall s).errs = s.errs := rfl
@[simp] theorem startCall_lastCmd : (startCall s).lastCmd = s.lastCmd := rfl
@[simp] theorem startCall_cnt : (startCall s).cnt = s.cnt := rfl
@[simp] theorem startCall_tree : (startCall s).tree = TreeRegs.zero := rfl
@[simp] theorem startCall_freq : (startCall s).freq = s.freq := rfl
@[simp] theorem startCall_node : (startCall s).node = s.node := rfl
@[simp] theorem startCall_codes : (startCall s).codes = s.codes := rfl
@[simp] theorem startCall_params : (startCall s).params = s.params := rfl
@[simp] theorem startCall_inp : (startCall s).inp = s.inp := rfl
@[simp] theorem startCall_out : (startCall s).out = s.out := rfl
@[simp] theorem startCall_hdrStack : (startCall s).hdrStack = s.hdrStack := rfl
@[simp] theorem startCall_host : (startCall s).host = s.host := rfl
@[simp] theorem startCall_draws : (startCall s).draws = s.draws := rfl

/-! ### dropTree -/

@[simp] theorem dropTree_flags : (dropTree s).flags = { s.flags with treeValid := false, treeOrigin := false, codesValid := false } := rfl
@[simp] theorem dropTree_errs : (dropTree s).errs = s.errs := rfl
@[simp] theorem dropTree_lastCmd : (dropTree s).lastCmd = s.lastCmd := rfl
@[simp] theorem dropTree_cnt : (dropTree s).cnt = s.cnt := rfl
@[simp] theorem dropTree_tree : (dropTree s).tree = s.tree := rfl
@[simp] theorem dropTree_freq : (dropTree s).freq = s.freq := rfl
@[simp] theorem dropTree_node : (dropTree s).node = s.node := rfl
@[simp] theorem dropTree_codes : (dropTree s).codes = s.codes := rfl
@[simp] theorem dropTree_params : (dropTree s).params = s.params := rfl
@[simp] theorem dropTree_inp : (dropTree s).inp = s.inp := rfl
@[simp] theorem dropTree_out : (dropTree s).out = s.out := rfl
@[simp] theorem dropTree_hdrStack : (dropTree s).hdrStack = s.hdrStack := rfl
@[simp] theorem dropTree_host : (dropTree s).host = s.host := rfl
@[simp] theorem dropTree_draws : (dropTree s).draws = s.draws := rfl

/-! ### raise -/

@[simp] theorem raise_flags (e : ErrCode) : (raise e s).flags = { s.flags.dropValid with err := true, busy := false } := rfl
@[simp] theorem raise_errs (e : ErrCode) : (raise e s).errs = { code := e.number, kind := e.kind, cmd := s.lastCmd.extractLsb' 0 8, pos := s.inp.pos } := rfl
@[simp] theorem raise_lastCmd (e : ErrCode) : (raise e s).lastCmd = s.lastCmd := rfl
@[simp] theorem raise_cnt (e : ErrCode) : (raise e s).cnt = s.cnt := rfl
@[simp] theorem raise_tree (e : ErrCode) : (raise e s).tree = s.tree := rfl
@[simp] theorem raise_freq (e : ErrCode) : (raise e s).freq = s.freq := rfl
@[simp] theorem raise_node (e : ErrCode) : (raise e s).node = s.node := rfl
@[simp] theorem raise_codes (e : ErrCode) : (raise e s).codes = s.codes := rfl
@[simp] theorem raise_params (e : ErrCode) : (raise e s).params = s.params := rfl
@[simp] theorem raise_inp (e : ErrCode) : (raise e s).inp = s.inp := rfl
@[simp] theorem raise_out (e : ErrCode) : (raise e s).out = s.out := rfl
@[simp] theorem raise_hdrStack (e : ErrCode) : (raise e s).hdrStack = none := rfl
@[simp] theorem raise_host (e : ErrCode) : (raise e s).host = s.host := rfl
@[simp] theorem raise_draws (e : ErrCode) : (raise e s).draws = s.draws := rfl

/-! ### forgetArrays -/

@[simp] theorem forgetArrays_flags : (forgetArrays s).flags = s.flags := rfl
@[simp] theorem forgetArrays_errs : (forgetArrays s).errs = s.errs := rfl
@[simp] theorem forgetArrays_lastCmd : (forgetArrays s).lastCmd = s.lastCmd := rfl
@[simp] theorem forgetArrays_cnt : (forgetArrays s).cnt = s.cnt := rfl
@[simp] theorem forgetArrays_tree : (forgetArrays s).tree = s.tree := rfl
@[simp] theorem forgetArrays_freq : (forgetArrays s).freq = (Config.unspecFreq s.draws).map (fun x => x &&& maxCount s.params) := rfl
@[simp] theorem forgetArrays_node : (forgetArrays s).node = (Config.unspecNode s.draws).map (fun n => { n with w := n.w &&& BitVec.ofNat 41 (2 ^ s.params.wWeight - 1) }) := rfl
@[simp] theorem forgetArrays_codes : (forgetArrays s).codes = { s.codes with len := Config.unspecCodeLen s.draws, val := Config.unspecCodeVal s.draws } := rfl
@[simp] theorem forgetArrays_params : (forgetArrays s).params = s.params := rfl
@[simp] theorem forgetArrays_inp : (forgetArrays s).inp = s.inp := rfl
@[simp] theorem forgetArrays_out : (forgetArrays s).out = s.out := rfl
@[simp] theorem forgetArrays_hdrStack : (forgetArrays s).hdrStack = s.hdrStack := rfl
@[simp] theorem forgetArrays_host : (forgetArrays s).host = s.host := rfl
@[simp] theorem forgetArrays_draws : (forgetArrays s).draws = s.draws + 1 := rfl

/-! ### returnToReset -/

@[simp] theorem returnToReset_flags : (returnToReset s).flags = { s.flags.dropValid with err := false } := rfl
@[simp] theorem returnToReset_errs : (returnToReset s).errs = ErrRegs.none := rfl
@[simp] theorem returnToReset_lastCmd : (returnToReset s).lastCmd = s.lastCmd := rfl
@[simp] theorem returnToReset_cnt : (returnToReset s).cnt = s.cnt := rfl
@[simp] theorem returnToReset_tree : (returnToReset s).tree = TreeRegs.zero := rfl
@[simp] theorem returnToReset_freq : (returnToReset s).freq = (forgetArrays s).freq := rfl
@[simp] theorem returnToReset_node : (returnToReset s).node = (forgetArrays s).node := rfl
@[simp] theorem returnToReset_codes : (returnToReset s).codes = (forgetArrays s).codes.noEntries := rfl
@[simp] theorem returnToReset_params : (returnToReset s).params = s.params := rfl
@[simp] theorem returnToReset_inp : (returnToReset s).inp = s.inp := rfl
@[simp] theorem returnToReset_out : (returnToReset s).out = s.out := rfl
@[simp] theorem returnToReset_hdrStack : (returnToReset s).hdrStack = s.hdrStack := rfl
@[simp] theorem returnToReset_host : (returnToReset s).host = s.host := rfl
@[simp] theorem returnToReset_draws : (returnToReset s).draws = s.draws + 1 := rfl

/-! ### hardReset -/

@[simp] theorem hardReset_flags : (hardReset s).flags = Flags.reset := rfl
@[simp] theorem hardReset_errs : (hardReset s).errs = ErrRegs.none := rfl
@[simp] theorem hardReset_lastCmd : (hardReset s).lastCmd = 0 := rfl
@[simp] theorem hardReset_cnt : (hardReset s).cnt = Counters.zero := rfl
@[simp] theorem hardReset_tree : (hardReset s).tree = TreeRegs.zero := rfl
@[simp] theorem hardReset_freq : (hardReset s).freq = (forgetArrays s).freq := rfl
@[simp] theorem hardReset_node : (hardReset s).node = (forgetArrays s).node := rfl
@[simp] theorem hardReset_codes : (hardReset s).codes = (forgetArrays s).codes.noEntries := rfl
@[simp] theorem hardReset_params : (hardReset s).params = s.params := rfl
@[simp] theorem hardReset_inp : (hardReset s).inp = s.inp := rfl
@[simp] theorem hardReset_out : (hardReset s).out = s.out := rfl
@[simp] theorem hardReset_hdrStack : (hardReset s).hdrStack = none := rfl
@[simp] theorem hardReset_host : (hardReset s).host = s.host := rfl
@[simp] theorem hardReset_draws : (hardReset s).draws = s.draws + 1 := rfl

/-! ### zeroFreq -/

@[simp] theorem zeroFreq_flags : (zeroFreq s).flags = s.flags := rfl
@[simp] theorem zeroFreq_errs : (zeroFreq s).errs = s.errs := rfl
@[simp] theorem zeroFreq_lastCmd : (zeroFreq s).lastCmd = s.lastCmd := rfl
@[simp] theorem zeroFreq_cnt : (zeroFreq s).cnt = s.cnt := rfl
@[simp] theorem zeroFreq_tree : (zeroFreq s).tree = s.tree := rfl
@[simp] theorem zeroFreq_freq : (zeroFreq s).freq = Vector.replicate 257 0 := rfl
@[simp] theorem zeroFreq_node : (zeroFreq s).node = s.node := rfl
@[simp] theorem zeroFreq_codes : (zeroFreq s).codes = s.codes := rfl
@[simp] theorem zeroFreq_params : (zeroFreq s).params = s.params := rfl
@[simp] theorem zeroFreq_inp : (zeroFreq s).inp = s.inp := rfl
@[simp] theorem zeroFreq_out : (zeroFreq s).out = s.out := rfl
@[simp] theorem zeroFreq_hdrStack : (zeroFreq s).hdrStack = s.hdrStack := rfl
@[simp] theorem zeroFreq_host : (zeroFreq s).host = s.host := rfl
@[simp] theorem zeroFreq_draws : (zeroFreq s).draws = s.draws := rfl

/-! ### finishCount -/

@[simp] theorem finishCount_flags : (finishCount s).flags = { s.flags with freqValid := true } := rfl
@[simp] theorem finishCount_errs : (finishCount s).errs = s.errs := rfl
@[simp] theorem finishCount_lastCmd : (finishCount s).lastCmd = s.lastCmd := rfl
@[simp] theorem finishCount_cnt : (finishCount s).cnt = s.cnt := rfl
@[simp] theorem finishCount_tree : (finishCount s).tree = s.tree := rfl
@[simp] theorem finishCount_freq : (finishCount s).freq = s.freq.set sentinelIdx 1 := rfl
@[simp] theorem finishCount_node : (finishCount s).node = s.node := rfl
@[simp] theorem finishCount_codes : (finishCount s).codes = s.codes := rfl
@[simp] theorem finishCount_params : (finishCount s).params = s.params := rfl
@[simp] theorem finishCount_inp : (finishCount s).inp = s.inp := rfl
@[simp] theorem finishCount_out : (finishCount s).out = s.out := rfl
@[simp] theorem finishCount_hdrStack : (finishCount s).hdrStack = s.hdrStack := rfl
@[simp] theorem finishCount_host : (finishCount s).host = s.host := rfl
@[simp] theorem finishCount_draws : (finishCount s).draws = s.draws := rfl

/-! ### headerDone -/

@[simp] theorem headerDone_flags (c : NodeIdx) : (headerDone c s).flags = { s.flags with treeValid := true, treeOrigin := true } := rfl
@[simp] theorem headerDone_errs (c : NodeIdx) : (headerDone c s).errs = s.errs := rfl
@[simp] theorem headerDone_lastCmd (c : NodeIdx) : (headerDone c s).lastCmd = s.lastCmd := rfl
@[simp] theorem headerDone_cnt (c : NodeIdx) : (headerDone c s).cnt = s.cnt := rfl
@[simp] theorem headerDone_tree (c : NodeIdx) : (headerDone c s).tree = { s.tree with root := c } := rfl
@[simp] theorem headerDone_freq (c : NodeIdx) : (headerDone c s).freq = s.freq := rfl
@[simp] theorem headerDone_node (c : NodeIdx) : (headerDone c s).node = s.node := rfl
@[simp] theorem headerDone_codes (c : NodeIdx) : (headerDone c s).codes = s.codes := rfl
@[simp] theorem headerDone_params (c : NodeIdx) : (headerDone c s).params = s.params := rfl
@[simp] theorem headerDone_inp (c : NodeIdx) : (headerDone c s).inp = s.inp := rfl
@[simp] theorem headerDone_out (c : NodeIdx) : (headerDone c s).out = s.out := rfl
@[simp] theorem headerDone_hdrStack (c : NodeIdx) : (headerDone c s).hdrStack = none := rfl
@[simp] theorem headerDone_host (c : NodeIdx) : (headerDone c s).host = s.host := rfl
@[simp] theorem headerDone_draws (c : NodeIdx) : (headerDone c s).draws = s.draws := rfl

/-! ### popHost -/

@[simp] theorem popHost_flags (q : List HostAction) : (popHost s q).flags = s.flags := rfl
@[simp] theorem popHost_errs (q : List HostAction) : (popHost s q).errs = s.errs := rfl
@[simp] theorem popHost_lastCmd (q : List HostAction) : (popHost s q).lastCmd = s.lastCmd := rfl
@[simp] theorem popHost_cnt (q : List HostAction) : (popHost s q).cnt = s.cnt := rfl
@[simp] theorem popHost_tree (q : List HostAction) : (popHost s q).tree = s.tree := rfl
@[simp] theorem popHost_freq (q : List HostAction) : (popHost s q).freq = s.freq := rfl
@[simp] theorem popHost_node (q : List HostAction) : (popHost s q).node = s.node := rfl
@[simp] theorem popHost_codes (q : List HostAction) : (popHost s q).codes = s.codes := rfl
@[simp] theorem popHost_params (q : List HostAction) : (popHost s q).params = s.params := rfl
@[simp] theorem popHost_inp (q : List HostAction) : (popHost s q).inp = s.inp := rfl
@[simp] theorem popHost_out (q : List HostAction) : (popHost s q).out = s.out := rfl
@[simp] theorem popHost_hdrStack (q : List HostAction) : (popHost s q).hdrStack = s.hdrStack := rfl
@[simp] theorem popHost_host (q : List HostAction) : (popHost s q).host = { s.host with queue := q } := rfl
@[simp] theorem popHost_draws (q : List HostAction) : (popHost s q).draws = s.draws := rfl

@[simp] theorem dropValid_busy (f : Flags) : f.dropValid.busy = f.busy := rfl
@[simp] theorem dropValid_done (f : Flags) : f.dropValid.done = f.done := rfl
@[simp] theorem dropValid_err (f : Flags) : f.dropValid.err = f.err := rfl
@[simp] theorem dropValid_sent (f : Flags) : f.dropValid.sent = f.sent := rfl
@[simp] theorem dropValid_freqValid (f : Flags) : f.dropValid.freqValid = false := rfl
@[simp] theorem dropValid_treeValid (f : Flags) : f.dropValid.treeValid = false := rfl
@[simp] theorem dropValid_treeOrigin (f : Flags) : f.dropValid.treeOrigin = false := rfl
@[simp] theorem dropValid_codesValid (f : Flags) : f.dropValid.codesValid = false := rfl

end Sys2Proof.Machine
end

