-- ==== Sys2Proof/Laws/Commands.lean ====
section
/-! SUPPORT. How a command word runs (R111, R112): said once, for every command. -/

namespace Sys2Proof.Machine

theorem finish_done (t : State) : (Ran.done t).finish = .next (complete t) := rfl

theorem finish_raised (e : ErrCode) (t : State) : (Ran.raised e t).finish = .next (raise e t) := rfl

theorem finish_broken (f : Fault) : (Ran.broken f).finish = .fault f := rfl

/-- A word other than CLEAR is discarded while ERR = 1 (R111). -/
theorem runCommand_discarded {w : Word} {check : State → Option ErrCode} {body : State → Ran} {s : State}
    (he : s.flags.err = true) (hw : w ≠ wordClear) : runCommand w check body s = .next s := by
  simp [runCommand, he, hw]

/-- An accepted word whose check fails raises that error with nothing but the prologue done (R113). -/
theorem runCommand_checked {w : Word} {check : State → Option ErrCode} {body : State → Ran} {s : State} {e : ErrCode}
    (h : s.flags.err = false ∨ w = wordClear) (hc : check (prologue w s) = some e) :
    runCommand w check body s = .next (raise e (prologue w s)) := by
  rcases h with h | rfl <;> simp [runCommand, *]

/-- An accepted word whose checks hold runs its body and ends as the body does (R112, R114, R250). -/
theorem runCommand_ran {w : Word} {check : State → Option ErrCode} {body : State → Ran} {s : State}
    (h : s.flags.err = false ∨ w = wordClear) (hc : check (prologue w s) = none) :
    runCommand w check body s = (body (prologue w s)).finish := by
  rcases h with h | rfl <;> simp [runCommand, *]

/-- Everything a command that answers a next state can have done. -/
theorem runCommand_next {w : Word} {check : State → Option ErrCode} {body : State → Ran} {s t : State}
    (h : runCommand w check body s = .next t) :
    (s.flags.err = true ∧ w ≠ wordClear ∧ t = s) ∨
    (∃ e, check (prologue w s) = some e ∧ t = raise e (prologue w s)) ∨
    (∃ e u, check (prologue w s) = none ∧ body (prologue w s) = .raised e u ∧ t = raise e u) ∨
    (∃ u, check (prologue w s) = none ∧ body (prologue w s) = .done u ∧ t = complete u) := by
  unfold runCommand at h
  split at h
  case isTrue hd =>
    simp only [Bool.and_eq_true, bne_iff_ne, ne_eq] at hd
    exact .inl ⟨hd.1, hd.2, by simpa using h.symm⟩
  case isFalse =>
    right
    split at h
    case h_1 e he => exact .inl ⟨e, he, by simpa using h.symm⟩
    case h_2 hc =>
      right
      cases hb : body (prologue w s) with
      | done u => exact .inr ⟨u, hc, rfl, by simpa [hb, Ran.finish] using h.symm⟩
      | raised e u => exact .inl ⟨e, u, hc, rfl, by simpa [hb, Ran.finish] using h.symm⟩
      | broken f => simp [hb, Ran.finish] at h

/-- A command never refuses. -/
theorem runCommand_not_refused {w : Word} {check : State → Option ErrCode} {body : State → Ran} {s : State} {r : Refusal} :
    runCommand w check body s ≠ .refused r := by
  unfold runCommand
  split
  · simp
  · split
    · simp
    · cases body (prologue w s) <;> simp [Ran.finish]

end Sys2Proof.Machine
end

