-- ==== Sys2Proof/Laws/Streams.lean ====
section
/-! SUPPORT. The stream accesses (R52, R54): each says once everything it can do. -/

namespace Sys2Proof.Machine

theorem length_restIn (s : State) : s.restIn.length = s.remaining := by
  simp [State.restIn, State.remaining]

/-- `ReadBits(n)` in full (R52): exhausted, or the next n bits and nothing but IN.pos and CNT_IN changed. -/
theorem readBits_eq (n : Nat) (s : State) :
    readBits n s = if s.remaining < n then none
      else some (BitVec.ofNat n (valOf (s.restIn.take n)), consumeIn n s) := rfl

theorem readBits_exhausted {n : Nat} {s : State} (h : s.remaining < n) : readBits n s = none := by
  simp [readBits_eq, h]

theorem readBits_ok {n : Nat} {s : State} (h : n ≤ s.remaining) :
    readBits n s = some (BitVec.ofNat n (valOf (s.restIn.take n)), consumeIn n s) := by
  simp [readBits_eq, Nat.not_lt.mpr h]

theorem readBits_some {n : Nat} {s t : State} {v : BitVec n} (h : readBits n s = some (v, t)) :
    n ≤ s.remaining ∧ v = BitVec.ofNat n (valOf (s.restIn.take n)) ∧ t = consumeIn n s := by
  rw [readBits_eq] at h
  split at h
  · exact absurd h (by simp)
  · simp only [Option.some.injEq, Prod.mk.injEq] at h
    exact ⟨by omega, h.1.symm, h.2.symm⟩

/-- After n bits are consumed the position has moved by n: no wrap on a stream R283 allows. -/
theorem pos_consumeIn {n : Nat} {s : State} (hl : s.inp.bits.length < 2 ^ 64) (h : n ≤ s.remaining) (hp : 0 < n) :
    (consumeIn n s).inp.pos.toNat = s.inp.pos.toNat + n := by
  simp only [State.remaining] at h
  simp only [consumeIn_inp, BitVec.toNat_add, BitVec.toNat_ofNat]
  omega

theorem restIn_consumeIn {n : Nat} {s : State} (hl : s.inp.bits.length < 2 ^ 64) (h : n ≤ s.remaining) (hp : 0 < n) :
    (consumeIn n s).restIn = s.restIn.drop n := by
  simp only [State.restIn, pos_consumeIn hl h hp, List.drop_drop]
  rfl

theorem remaining_consumeIn {n : Nat} {s : State} (hl : s.inp.bits.length < 2 ^ 64) (h : n ≤ s.remaining) (hp : 0 < n) :
    (consumeIn n s).remaining = s.remaining - n := by
  rw [← length_restIn, restIn_consumeIn hl h hp, List.length_drop, length_restIn]

/-- A field that stands next on IN is read whole, most significant bit first (R57). -/
theorem readBits_field {n v : Nat} {s : State} {rest : List Bool} (h : s.restIn = bitsOf n v ++ rest) :
    readBits n s = some (BitVec.ofNat n v, consumeIn n s) := by
  have hr : n ≤ s.remaining := by rw [← length_restIn, h]; simp
  have ht : (bitsOf n v ++ rest).take n = bitsOf n v := by simp
  have hv : BitVec.ofNat n (v % 2 ^ n) = BitVec.ofNat n v := BitVec.eq_of_toNat_eq (by simp)
  rw [readBits_ok hr, h, ht, valOf_bitsOf_mod, hv]

theorem restIn_after_field {n v : Nat} {s : State} {rest : List Bool} (hl : s.inp.bits.length < 2 ^ 64) (hp : 0 < n)
    (h : s.restIn = bitsOf n v ++ rest) : (consumeIn n s).restIn = rest := by
  have hr : n ≤ s.remaining := by rw [← length_restIn, h]; simp
  rw [restIn_consumeIn hl hr hp, h]
  simp

/-- A consumed prefix keeps the position on the stream (R35). -/
theorem streamInv_consumeIn {n : Nat} {s : State} (hi : streamInv s.inp = true) (h : n ≤ s.remaining) (hp : 0 < n) :
    streamInv (consumeIn n s).inp = true := by
  simp only [streamInv, Bool.and_eq_true, decide_eq_true_eq] at hi ⊢
  have hpos := pos_consumeIn hi.2 h hp
  simp only [State.remaining] at h
  refine ⟨?_, hi.2⟩
  rw [hpos]
  simp only [consumeIn_inp]
  omega

end Sys2Proof.Machine
end

