-- ==== Sys2Proof/Laws/Trees.lean ====
section
/-! SUPPORT. Trees and the arenas that hold them: sizes, and what a held tree says of the arena's entries. -/

namespace Sys2Proof.Machine

theorem nodeAt_some {node : Vector Node 513} {i : NodeIdx} {n : Node} :
    nodeAt node i = some n ↔ ∃ h : i.toNat < 513, node[i.toNat] = n := by
  by_cases h : i.toNat < 513 <;> simp [nodeAt, arenaIdx, h]

/-- A held leaf, spelt out. -/
theorem holds_leaf {node : Vector Node 513} {y : Sym} {i : NodeIdx} (h : holds node (.leaf y) i = true) :
    ∃ n, nodeAt node i = some n ∧ n.leaf = true ∧ n.sym = y := by
  rw [holds] at h
  cases hn : nodeAt node i with
  | none => simp [hn] at h
  | some n => exact ⟨n, rfl, by simpa [hn] using h⟩

/-- A held internal node, spelt out: both children are held at its two indexes (R29). -/
theorem holds_node {node : Vector Node 513} {l r : HTree} {i : NodeIdx} (h : holds node (.node l r) i = true) :
    ∃ n, nodeAt node i = some n ∧ n.leaf = false ∧ holds node l n.left = true ∧ holds node r n.right = true := by
  rw [holds] at h
  cases hn : nodeAt node i with
  | none => simp [hn] at h
  | some n => exact ⟨n, rfl, by simpa [hn, and_assoc] using h⟩

theorem one_le_size (t : HTree) : 1 ≤ t.size := by
  cases t <;> simp only [HTree.size] <;> omega

theorem one_le_leaves (t : HTree) : 1 ≤ t.leaves.length := by
  induction t with
  | leaf y => simp [HTree.leaves]
  | node l r ihl ihr => simp [HTree.leaves]; omega

/-- A strictly binary tree with L leaves has L - 1 internal nodes (R30). -/
theorem size_eq (t : HTree) : t.size + 1 = 2 * t.leaves.length := by
  induction t with
  | leaf y => simp [HTree.size, HTree.leaves]
  | node l r ihl ihr => simp only [HTree.size, HTree.leaves, List.length_append]; omega

theorem length_paths (t : HTree) : t.paths.length = t.leaves.length := by
  induction t with
  | leaf y => rfl
  | node l r ihl ihr => simp [HTree.paths, HTree.leaves, ihl, ihr]

/-- The symbols of the paths are the leaf symbols, in order. -/
theorem map_snd_paths (t : HTree) : t.paths.map (·.2) = t.leaves := by
  induction t with
  | leaf y => rfl
  | node l r ihl ihr => simp [HTree.paths, HTree.leaves, ← ihl, ← ihr, Function.comp_def]

/-- A path is shorter than the number of leaves (R33). -/
theorem length_path_lt {t : HTree} {p : List Bool × Sym} (h : p ∈ t.paths) : p.1.length < t.leaves.length := by
  induction t generalizing p with
  | leaf y => simp only [HTree.paths, List.mem_singleton] at h; subst h; simp [HTree.leaves]
  | node l r ihl ihr =>
    have hl := one_le_leaves l
    have hr := one_le_leaves r
    simp only [HTree.paths, List.mem_append, List.mem_map] at h
    rcases h with ⟨q, hq, rfl⟩ | ⟨q, hq, rfl⟩
    · have := ihl hq; simp [HTree.leaves]; omega
    · have := ihr hq; simp [HTree.leaves]; omega

theorem length_places {node : Vector Node 513} {t : HTree} {i : NodeIdx} (h : holds node t i = true) :
    (places node t i).length = t.size := by
  induction t generalizing i with
  | leaf y => rfl
  | node l r ihl ihr =>
    obtain ⟨n, hn, -, hl, hr⟩ := holds_node h
    simp [places, hn, ihl hl, ihr hr, HTree.size]; omega

/-- A held tree stands inside the arena. -/
theorem places_lt {node : Vector Node 513} {t : HTree} {i : NodeIdx} (h : holds node t i = true) :
    ∀ j ∈ places node t i, j.toNat < 513 := by
  induction t generalizing i with
  | leaf y =>
    obtain ⟨n, hn, -, -⟩ := holds_leaf h
    obtain ⟨hlt, -⟩ := nodeAt_some.mp hn
    simpa [places] using hlt
  | node l r ihl ihr =>
    obtain ⟨n, hn, -, hl, hr⟩ := holds_node h
    obtain ⟨hlt, -⟩ := nodeAt_some.mp hn
    intro j hj
    simp only [places, hn, List.mem_cons, List.mem_append] at hj
    rcases hj with rfl | hj | hj
    · exact hlt
    · exact ihl hl j hj
    · exact ihr hr j hj

/-- `treeAt` as separate facts. -/
theorem treeAt_iff {s : State} {t : HTree} : treeAt s t = true ↔
    holds s.node t s.tree.root = true ∧ (places s.node t s.tree.root).Nodup ∧
    (∀ i ∈ places s.node t s.tree.root, i.toNat < s.tree.nodeCount.toNat) ∧ t.size = s.tree.nodeCount.toNat ∧
    t.leaves.length = s.tree.leafCount.toNat ∧ t.symsLegal = true := by
  simp [treeAt, and_assoc]

/-- A tree the state holds fits the arena (R30). -/
theorem size_le_of_treeAt {s : State} {t : HTree} (h : treeAt s t = true) : t.size ≤ 513 := by
  obtain ⟨hh, hnd, -, -, -, -⟩ := treeAt_iff.mp h
  rw [← length_places hh]
  have hm : ((places s.node t s.tree.root).map (·.toNat)).Nodup :=
    hnd.map (fun a b hab => BitVec.eq_of_toNat_eq hab)
  have hs : (places s.node t s.tree.root).map (·.toNat) ⊆ List.range 513 := by
    intro j hj
    obtain ⟨i, hi, rfl⟩ := List.mem_map.mp hj
    exact List.mem_range.mpr (places_lt hh i hi)
  simpa using (hm.subperm hs).length_le

/-- At most 257 leaves (R30), so no code is longer than 256 bits (R33). -/
theorem leaves_le_of_treeAt {s : State} {t : HTree} (h : treeAt s t = true) : t.leaves.length ≤ 257 := by
  have h1 := size_le_of_treeAt h
  have h2 := size_eq t
  omega

/-- A legal symbol has its index, and the index its symbol. -/
theorem symIdx_of_legal {y : Sym} (h : symLegal y = true) : ∃ k, symIdx y = some k ∧ symOf k = y := by
  have hy : y.toNat ≤ 256 := by simpa [symLegal] using h
  refine ⟨⟨y.toNat, by omega⟩, by simp [symIdx, show y.toNat < 257 by omega], ?_⟩
  simp [symOf]

theorem symIdx_symOf (k : SymIdx) : symIdx (symOf k) = some k := by
  have hk := k.isLt
  simp [symIdx, symOf, Nat.mod_eq_of_lt (show k.val < 512 by omega)]

end Sys2Proof.Machine
end

