-- ==== Sys2Proof/Laws/HeaderRead.lean ====
section
/-! SUPPORT. The header reader (R183): one token at a time, and a whole subtree at a time. -/

namespace Sys2Proof.Machine

/-! ### The arena under a write outside a tree -/

/-- A tree is held by its own entries: an arena that agrees on them holds it at the same places. -/
theorem holds_congr {node nd : Vector Node 513} {t : HTree} {i : NodeIdx} (h : holds node t i = true)
    (he : ∀ j ∈ places node t i, nodeAt nd j = nodeAt node j) : holds nd t i = true ∧ places nd t i = places node t i := by
  induction t generalizing i with
  | leaf y =>
    have := he i (by simp [places])
    simp only [holds, this] at h ⊢
    exact ⟨h, rfl⟩
  | node l r ihl ihr =>
    obtain ⟨n, hn, hleaf, hl, hr⟩ := holds_node h
    have hi := he i (by simp [places, hn])
    obtain ⟨hl', hpl⟩ := ihl hl (fun j hj => he j (by simp [places, hn, hj]))
    obtain ⟨hr', hpr⟩ := ihr hr (fun j hj => he j (by simp [places, hn, hj]))
    simp [holds, places, hi, hn, hleaf, hl', hr', hpl, hpr]

theorem nodeIdx_toNat (i : Fin 513) : (nodeIdx i).toNat = i.val := by
  have := i.isLt
  simp only [nodeIdx, BitVec.toNat_ofNat]
  omega

theorem nodeAt_nodeIdx (node : Vector Node 513) (i : Fin 513) : nodeAt node (nodeIdx i) = some node[i] := by
  rw [nodeAt_some]
  exact ⟨by rw [nodeIdx_toNat]; exact i.isLt, by simp [nodeIdx_toNat]⟩

/-- A write to one entry leaves every other index's entry alone. -/
theorem nodeAt_set_ne {node : Vector Node 513} {i : Fin 513} {n : Node} {j : NodeIdx} (h : j.toNat ≠ i.val) :
    nodeAt (node.set i n) j = nodeAt node j := by
  simp only [nodeAt, arenaIdx]
  split
  case h_1 k hk =>
    split at hk
    · simp only [Option.some.injEq] at hk
      subst hk
      simp [*, Ne.symm h]
    · simp at hk
  case h_2 hk => simp

/-! ### One token -/

theorem allocNode_some {s : State} (h : s.tree.nodeCount.toNat < 513) :
    allocNode s = some (⟨s.tree.nodeCount.toNat, h⟩,
      { s with tree := { s.tree with nodeCount := s.tree.nodeCount + 1 } }) := by
  simp [allocNode, h]

theorem allocNode_none {s : State} (h : 513 ≤ s.tree.nodeCount.toNat) : allocNode s = none := by
  simp [allocNode, Nat.not_lt.mpr h]

/-- The token `0` with room in the arena. -/
theorem desToken_internal {stack : List HdrFrame} {s : State} {rest : List Bool} (hb : s.restIn = false :: rest)
    (hc : s.tree.nodeCount.toNat < 513) :
    desToken stack s = .done (openInternal stack ⟨s.tree.nodeCount.toNat, hc⟩
      { consumeIn 1 s with tree := { s.tree with nodeCount := s.tree.nodeCount + 1 } }) := by
  have hr := readBits_field (n := 1) (v := 0) (s := s) (rest := rest) (by simpa [bitsOf] using hb)
  simp only [desToken, hr, allocNode_some (s := consumeIn 1 s) hc]
  rfl

/-- The token `1sssssssss` with room in the arena and a legal symbol. -/
theorem desToken_leaf {stack : List HdrFrame} {s : State} {y : Sym} {rest : List Bool} (hl : s.inp.bits.length < 2 ^ 64)
    (hb : s.restIn = true :: (bitsOf 9 y.toNat ++ rest)) (hc : s.tree.nodeCount.toNat < 513) (hy : symLegal y = true) :
    desToken stack s = .done (closeLeaf stack ⟨s.tree.nodeCount.toNat, hc⟩ y
      (consumeIn 9 { consumeIn 1 s with tree := { s.tree with nodeCount := s.tree.nodeCount + 1 } })) := by
  have hb1 : s.restIn = bitsOf 1 1 ++ (bitsOf 9 y.toNat ++ rest) := by rw [hb]; rfl
  have hr := readBits_field hb1
  have h9 := restIn_after_field hl (by omega) hb1
  have hr9 := readBits_field (s := { consumeIn 1 s with tree := { s.tree with nodeCount := s.tree.nodeCount + 1 } })
    (n := 9) (v := y.toNat) (rest := rest) h9
  simp only [desToken, hr, allocNode_some (s := consumeIn 1 s) hc, consumeIn_tree, hr9, BitVec.ofNat_toNat,
    BitVec.setWidth_eq, hy, if_true]
  rfl

/-! ### A whole subtree -/

/-- The state after the header reader has read a subtree, its nodes standing in the arena `nd`. -/
def readTree (t : HTree) (nd : Vector Node 513) (s : State) : State :=
  { s with
    node := nd
    inp := { s.inp with pos := s.inp.pos + BitVec.ofNat 64 t.header.length }
    cnt := { s.cnt with cntIn := s.cnt.cntIn + BitVec.ofNat 64 t.header.length }
    tree := { s.tree with
      nodeCount := s.tree.nodeCount + BitVec.ofNat 10 t.size
      leafCount := s.tree.leafCount + BitVec.ofNat 10 t.leaves.length } }

/-- Index numbers k, k+1, … as 10-bit indexes. -/
def indexRun (k n : Nat) : List NodeIdx := (List.range' k n).map (BitVec.ofNat 10)

/-- What the reader leaves in the arena for a subtree whose first index is k: the tree in preorder (R189 (f)), weights 0
(R187), and every other entry as before. -/
def ReadInto (old nd : Vector Node 513) (t : HTree) (k : Nat) : Prop :=
  holds nd t (BitVec.ofNat 10 k) = true ∧ places nd t (BitVec.ofNat 10 k) = indexRun k t.size ∧
  (∀ j : Fin 513, j.val < k ∨ k + t.size ≤ j.val → nd[j] = old[j]) ∧
  ∀ j : Fin 513, k ≤ j.val → j.val < k + t.size → nd[j].w = 0

theorem nodeAt_ofNat {node : Vector Node 513} {k : Nat} (h : k < 513) :
    nodeAt node (BitVec.ofNat 10 k) = some node[k] := by
  have := nodeAt_nodeIdx node ⟨k, h⟩
  simpa [nodeIdx] using this

theorem mem_indexRun {k n : Nat} {j : NodeIdx} (hk : k + n ≤ 513) (h : j ∈ indexRun k n) :
    k ≤ j.toNat ∧ j.toNat < k + n := by
  obtain ⟨m, hm, rfl⟩ := List.mem_map.mp h
  rw [List.mem_range'_1] at hm
  simp only [BitVec.toNat_ofNat]
  omega

/-- Two subtrees read one after the other, and their parent completed before them (R183, R189 (f)). -/
theorem readInto_node {old old' nd1 nd2 : Vector Node 513} {l r : HTree} {i : Fin 513} (hk : i.val + 1 + l.size + r.size ≤ 513)
    (ho : ∀ j : Fin 513, j ≠ i → old'[j] = old[j]) (h1 : ReadInto old' nd1 l (i.val + 1))
    (h2 : ReadInto nd1 nd2 r (i.val + 1 + l.size)) :
    ReadInto old
      (nd2.set i (Node.mkInternal 0 (BitVec.ofNat 10 (i.val + 1)) (BitVec.ofNat 10 (i.val + 1 + l.size)))) (.node l r) i.val := by
  obtain ⟨hh1, hp1, hold1, hw1⟩ := h1
  obtain ⟨hh2, hp2, hold2, hw2⟩ := h2
  have hl1 := one_le_size l
  have hr1 := one_le_size r
  generalize hP : Node.mkInternal 0 (BitVec.ofNat 10 (i.val + 1)) (BitVec.ofNat 10 (i.val + 1 + l.size)) = P
  have hnd : ∀ j : Fin 513, j ≠ i → (nd2.set i P)[j] = nd2[j] := by
    intro j hj
    have : i.val ≠ j.val := fun h => hj (Fin.ext h.symm)
    simp [this]
  have hsame : ∀ j : NodeIdx, i.val + 1 ≤ j.toNat → j.toNat < i.val + 1 + l.size → nodeAt nd2 j = nodeAt nd1 j := by
    intro j _ hj
    have hj' : j.toNat < 513 := by omega
    have := hold2 ⟨j.toNat, hj'⟩ (Or.inl hj)
    simp only [nodeAt, arenaIdx, hj', dite_true, this]
  have hL := holds_congr (nd := nd2.set i P) hh1 (fun j hj => by
    rw [hp1] at hj
    obtain ⟨hj1, hj2⟩ := mem_indexRun (by omega) hj
    rw [nodeAt_set_ne (by omega), hsame j hj1 hj2])
  have hR := holds_congr (nd := nd2.set i P) hh2 (fun j hj => by
    rw [hp2] at hj
    obtain ⟨hj1, hj2⟩ := mem_indexRun (by omega) hj
    rw [nodeAt_set_ne (by omega)])
  have hat : nodeAt (nd2.set i P) (BitVec.ofNat 10 i.val) = some P := by
    rw [nodeAt_ofNat i.isLt]; simp
  refine ⟨?_, ?_, ?_, ?_⟩
  · subst hP
    rw [holds, hat]
    simp only [Node.mkInternal] at hL hR ⊢
    simp only [hL.1, hR.1]
    rfl
  · subst hP
    rw [places, hat]
    simp only [Node.mkInternal] at hL hR ⊢
    rw [hL.2, hR.2, hp1, hp2]
    simp only [indexRun, HTree.size]
    rw [← List.map_append, List.range'_append_1, ← List.map_cons, ← List.range'_succ]
    congr 2
    omega
  · intro j hj
    simp only [HTree.size] at hj
    have hji : j ≠ i := fun h => by subst h; omega
    rw [hnd j hji, hold2 j (by omega), hold1 j (by omega), ho j hji]
  · intro j hj1 hj2
    simp only [HTree.size] at hj2
    by_cases hji : j = i
    · subst hji; subst hP; simp [Node.mkInternal]
    · have hne : i.val ≠ j.val := fun h => hji (Fin.ext h.symm)
      rw [hnd j hji]
      by_cases hjl : j.val < i.val + 1 + l.size
      · rw [hold2 j (Or.inl hjl)]; exact hw1 j (by omega) hjl
      · exact hw2 j (by omega) (by omega)

/-- Returning an index forgets whatever stack the state held. -/
theorem returnChild_hdrStack (stack : List HdrFrame) (c : NodeIdx) (h : Option (List HdrFrame)) (s : State) :
    returnChild stack c { s with hdrStack := h } = returnChild stack c s := by
  induction stack generalizing c s with
  | nil => rfl
  | cons f stack ih =>
    cases f with
    | wantLeft i => rfl
    | wantRight i l => exact ih (nodeIdx i) { s with node := s.node.set i { s.node[i] with left := l, right := c } }

/-- A subtree read from IN: the loop goes on as if the subtree's index had been returned to the node that waits for it
(R183). -/
theorem headerLoop_subtree {t : HTree} {s : State} {stack : List HdrFrame} {rest : List Bool} {fuel : Nat}
    (hl : s.inp.bits.length < 2 ^ 64) (hst : s.hdrStack = some stack) (hb : s.restIn = t.header ++ rest)
    (hs : t.symsLegal = true) (hc : s.tree.nodeCount.toNat + t.size ≤ 513) :
    ∃ nd, headerLoop (t.size + fuel) s = headerLoop fuel (returnChild stack s.tree.nodeCount (readTree t nd s)) ∧
      ReadInto s.node nd t s.tree.nodeCount.toNat := by
  induction t generalizing s stack rest fuel with
  | leaf y =>
    have hc1 : s.tree.nodeCount.toNat < 513 := by simp [HTree.size] at hc; omega
    have hy : symLegal y = true := by simpa [HTree.symsLegal, HTree.leaves] using hs
    have hd := desToken_leaf (stack := stack) hl (by simpa [HTree.header] using hb) hc1 hy
    refine ⟨s.node.set s.tree.nodeCount.toNat (Node.mkLeaf y 0), ?_, ?_, ?_, ?_, ?_⟩
    · rw [HTree.size, Nat.add_comm, headerLoop, hst]
      simp only [hd, closeLeaf, nodeIdx, BitVec.ofNat_toNat, BitVec.setWidth_eq]
      congr 2
      simp only [readTree, HTree.header, consumeIn, BitVec.add_assoc, ← BitVec.ofNat_add, List.length_cons, length_bitsOf,
        HTree.size, HTree.leaves, List.length_nil]
      rfl
    · simp only [BitVec.ofNat_toNat, BitVec.setWidth_eq, holds]
      have : nodeAt (s.node.set s.tree.nodeCount.toNat (Node.mkLeaf y 0)) s.tree.nodeCount = some (Node.mkLeaf y 0) := by
        rw [nodeAt_some]; exact ⟨hc1, by simp⟩
      rw [this]
      simp [Node.mkLeaf]
    · simp [places, indexRun, HTree.size]
    · intro j hj
      simp only [HTree.size] at hj
      simp only [Fin.getElem_fin, Vector.getElem_set]
      rw [if_neg (by omega)]
    · intro j h1 h2
      simp only [HTree.size] at h2
      simp only [Fin.getElem_fin, Vector.getElem_set]
      rw [if_pos (by omega)]
      rfl
  | node l r ihl ihr =>
    have hsz : (HTree.node l r).size = l.size + r.size + 1 := by simp [HTree.size]; omega
    have hl1 := one_le_size l
    have hr1 := one_le_size r
    have hc1 : s.tree.nodeCount.toNat < 513 := by omega
    have hs2 : l.symsLegal = true ∧ r.symsLegal = true := by
      simpa [HTree.symsLegal, HTree.leaves, List.all_append] using hs
    have hb0 : s.restIn = false :: (l.header ++ (r.header ++ rest)) := by rw [hb]; simp [HTree.header]
    have hd := desToken_internal (stack := stack) hb0 hc1
    have hrem : 1 ≤ s.remaining := by rw [← length_restIn, hb0]; simp
    -- the node itself
    let i : Fin 513 := ⟨s.tree.nodeCount.toNat, hc1⟩
    let s1 : State := openInternal stack i
      { consumeIn 1 s with tree := { s.tree with nodeCount := s.tree.nodeCount + 1 } }
    have hn1 : s1.tree.nodeCount.toNat = s.tree.nodeCount.toNat + 1 := by
      have h1 : (1 : NodeIdx).toNat = 1 := rfl
      simp only [s1, openInternal, BitVec.toNat_add, h1]
      omega
    -- the left subtree
    have hb1 : s1.restIn = l.header ++ (r.header ++ rest) := by
      have : s1.restIn = (consumeIn 1 s).restIn := rfl
      rw [this, restIn_consumeIn hl hrem (by omega), hb0]; rfl
    obtain ⟨nd1, hloop1, hr1'⟩ := ihl (s := s1) (stack := .wantLeft i :: stack) (rest := r.header ++ rest)
      (fuel := r.size + fuel) hl rfl hb1 hs2.1 (by rw [hn1]; omega)
    let s2 : State := { readTree l nd1 s1 with hdrStack := some (.wantRight i s1.tree.nodeCount :: stack) }
    have hn2 : s2.tree.nodeCount.toNat = s.tree.nodeCount.toNat + 1 + l.size := by
      have : s2.tree.nodeCount = s1.tree.nodeCount + BitVec.ofNat 10 l.size := rfl
      rw [this, BitVec.toNat_add, hn1, BitVec.toNat_ofNat]
      omega
    -- the right subtree
    have hlh : l.header.length ≤ s1.remaining := by rw [← length_restIn, hb1]; simp
    have hlp : 0 < l.header.length := by cases l <;> simp [HTree.header]
    have hb2 : s2.restIn = r.header ++ rest := by
      have : s2.restIn = (consumeIn l.header.length s1).restIn := rfl
      rw [this, restIn_consumeIn (s := s1) hl hlh hlp, hb1]; simp
    obtain ⟨nd2, hloop2, hr2'⟩ := ihr (s := s2) (stack := .wantRight i s1.tree.nodeCount :: stack)
      (rest := rest) (fuel := fuel) hl rfl hb2 hs2.2 (by rw [hn2]; omega)
    -- the node completed
    have hni : nd2[i] = Node.mkInternal 0 0 0 := by
      rw [hr2'.2.2.1 i (by left; rw [hn2]; simp only [i]; omega)]
      have h2 : s2.node[i] = nd1[i] := rfl
      rw [h2, hr1'.2.2.1 i (by left; rw [hn1]; simp only [i]; omega)]
      simp [s1, openInternal]
    refine ⟨nd2.set i { nd2[i] with left := s1.tree.nodeCount, right := s2.tree.nodeCount }, ?_, ?_⟩
    · rw [show (HTree.node l r).size + fuel = l.size + (r.size + fuel) + 1 by omega, headerLoop, hst]
      simp only [hd]
      rw [hloop1]
      simp only [returnChild]
      rw [hloop2]
      simp only [returnChild]
      rw [← returnChild_hdrStack stack (nodeIdx i) s.hdrStack]
      have h1 : (1 : NodeIdx) = BitVec.ofNat 10 1 := rfl
      have hi : nodeIdx i = s.tree.nodeCount := by simp [nodeIdx, i]
      rw [hi]
      congr 2
      simp only [readTree, s2, s1, openInternal, consumeIn, HTree.header, BitVec.add_assoc, ← BitVec.ofNat_add,
        List.length_cons, List.length_append, HTree.size, HTree.leaves, h1, Nat.add_comm, ← Nat.add_assoc]
    · rw [hn1] at hr1'
      rw [hn2] at hr2'
      have hc1' : s1.tree.nodeCount = BitVec.ofNat 10 (i.val + 1) := by
        simp only [i]; rw [← hn1]; simp
      have hc2' : s2.tree.nodeCount = BitVec.ofNat 10 (i.val + 1 + l.size) := by
        simp only [i]; rw [← hn2]; simp
      have hP : ({ nd2[i] with left := s1.tree.nodeCount, right := s2.tree.nodeCount } : Node) =
          Node.mkInternal 0 (BitVec.ofNat 10 (i.val + 1)) (BitVec.ofNat 10 (i.val + 1 + l.size)) := by
        rw [hni, hc1', hc2']; rfl
      rw [hP]
      refine readInto_node (by simp only [i]; omega) ?_ hr1' hr2'
      intro j hj
      have : i.val ≠ j.val := fun h => hj (Fin.ext h.symm)
      simp [s1, openInternal, this]

end Sys2Proof.Machine
end

