-- ==== Sys2Proof/Laws/Step.lean ====
section
/-! SUPPORT. What the decoders answer, what each arm of `exec` is, and what one step can do: each said once. -/

namespace Sys2Proof.Machine

/-! ### Decoding -/

theorem decodeCommand_eq (w : Word) : decodeCommand w =
    if w = wordNop then .ok .nop else if w = wordClear then .ok .clear else if w = wordCount then .ok .count
    else if w = wordBuild then .ok .build else if w = wordDerive then .ok .derive else if w = wordWrhdr then .ok .wrhdr
    else if w = wordRdhdr then .ok .rdhdr else if w = wordEncode then .ok .encode else if w = wordDecode then .ok .decode
    else if w = wordFlush then .ok .flush else .error .illegalCommand := by
  have hm : ∀ v : Word, (w &&& 0xFFFFFFFF#32 == v) = decide (w = v) := by
    intro v
    rw [show w &&& 0xFFFFFFFF#32 = w from BitVec.and_allOnes (x := w)]
    rfl
  simp only [decodeCommand, opcodeTable, List.find?, hm]
  by_cases h0 : w = wordNop; · subst h0; rfl
  by_cases h1 : w = wordClear; · subst h1; rfl
  by_cases h2 : w = wordCount; · subst h2; rfl
  by_cases h3 : w = wordBuild; · subst h3; rfl
  by_cases h4 : w = wordDerive; · subst h4; rfl
  by_cases h5 : w = wordWrhdr; · subst h5; rfl
  by_cases h6 : w = wordRdhdr; · subst h6; rfl
  by_cases h7 : w = wordEncode; · subst h7; rfl
  by_cases h8 : w = wordDecode; · subst h8; rfl
  by_cases h9 : w = wordFlush; · subst h9; rfl
  simp_all [wordNop, wordClear, wordCount, wordBuild, wordDerive, wordWrhdr, wordRdhdr, wordEncode, wordDecode, wordFlush]

theorem decodeToken_leaf (y : Sym) (rest : List Bool) :
    decodeToken (true :: (bitsOf 9 y.toNat ++ rest)) = .ok (.hdrLeaf y, rest) := by
  have ht : (bitsOf 9 y.toNat ++ rest).take 9 = bitsOf 9 y.toNat := by simp
  have hd : (bitsOf 9 y.toNat ++ rest).drop 9 = rest := by simp
  rw [decodeToken, if_neg (by simp), ht, hd, valOf_bitsOf y.isLt]
  simp

/-! ### The arms of `exec` -/

variable (s : State)

theorem exec_nop : exec .nop s = .next s := rfl
theorem exec_clear : exec .clear s = runCommand wordClear (precondition .clear) (fun t => .done (returnToReset t)) s := by
  simp only [exec, execClear]
theorem exec_flush : exec .flush s = runCommand wordFlush (precondition .flush) (fun t => .done (outClose t)) s := by
  simp only [exec, execFlush]
theorem exec_count : exec .count s = runCommand wordCount (precondition .count) countBody s := by
  simp only [exec, execCount]
theorem exec_build : exec .build s = runCommand wordBuild (precondition .build) buildBody s := by
  simp only [exec, execBuild]
theorem exec_derive : exec .derive s = runCommand wordDerive (precondition .derive) deriveBody s := by
  simp only [exec, execDerive]
theorem exec_wrhdr : exec .wrhdr s = runCommand wordWrhdr (precondition .wrhdr) wrhdrBody s := by
  simp only [exec, execWrhdr]
theorem exec_rdhdr : exec .rdhdr s = runCommand wordRdhdr (precondition .rdhdr) rdhdrBody s := by
  simp only [exec, execRdhdr]
theorem exec_encode : exec .encode s = runCommand wordEncode (precondition .encode) encodeBody s := by
  simp only [exec, execEncode]
theorem exec_decode : exec .decode s = runCommand wordDecode (precondition .decode) decodeBody s := by
  simp only [exec, execDecode]

variable {s}

/-- Every command but NOP runs by `runCommand` on its own word, with its own check and some body (R112). -/
theorem exec_command {i : Instr} (hi : i.isCommand = true) (hn : i ≠ .nop) :
    ∃ w body, encode i = .command w ∧ w ≠ wordNop ∧ (w = wordClear ↔ i = .clear) ∧
      ∀ s, exec i s = runCommand w (precondition i) body s := by
  cases i
  case nop => exact absurd rfl hn
  case hdrInternal => simp [Instr.isCommand] at hi
  case hdrLeaf => simp [Instr.isCommand] at hi
  case clear => exact ⟨_, _, rfl, by decide, by decide, exec_clear⟩
  case flush => exact ⟨_, _, rfl, by decide, by decide, exec_flush⟩
  case count => exact ⟨_, _, rfl, by decide, by decide, exec_count⟩
  case build => exact ⟨_, _, rfl, by decide, by decide, exec_build⟩
  case derive => exact ⟨_, _, rfl, by decide, by decide, exec_derive⟩
  case wrhdr => exact ⟨_, _, rfl, by decide, by decide, exec_wrhdr⟩
  case rdhdr => exact ⟨_, _, rfl, by decide, by decide, exec_rdhdr⟩
  case encode => exact ⟨_, _, rfl, by decide, by decide, exec_encode⟩
  case decode => exact ⟨_, _, rfl, by decide, by decide, exec_decode⟩

/-- A command is discarded while ERR = 1, CLEAR apart (R111). -/
theorem exec_discarded {i : Instr} (hi : i.isCommand = true) (hc : i ≠ .clear) (he : s.flags.err = true) :
    exec i s = .next s := by
  by_cases hn : i = .nop
  · subst hn; rfl
  · obtain ⟨w, body, -, -, hw, hx⟩ := exec_command hi hn
    rw [hx, runCommand_discarded he (fun h => hc (hw.mp h))]

/-! ### The step, event by event -/

theorem step_command {w : Word} {q : List HostAction} (hb : s.flags.busy = false)
    (hq : s.host.queue = .memWrite cmdAddr w :: q) :
    step s = match decodeCommand w with
      | .ok i => exec i (popHost s q)
      | .error _ => execIllegal w (popHost s q) := by
  have he : nextEvent s = .command w (popHost s q) := by simp [nextEvent, hb, nextAtBoundary, hq]
  cases hd : decodeCommand w <;> simp [step, he, hd]

theorem step_token {stack : List HdrFrame} {i : Instr} {rest : List Bool} (hb : s.flags.busy = true)
    (hs : s.hdrStack = some stack) (hq : s.host.queue = []) (hd : decodeToken s.restIn = .ok (i, rest)) :
    step s = exec i s := by
  have he : nextEvent s = .token i s := by simp [nextEvent, hb, nextWhileBusy, hq, nextToken, hs, hd]
  rw [step, he]

/-- What a step from a command boundary can be: idle, a command word taken from CMD, or another host action. -/
theorem step_boundary (hb : s.flags.busy = false) :
    (s.host.queue = [] ∧ step s = .next s) ∨
    (∃ w q i, s.host.queue = .memWrite cmdAddr w :: q ∧ decodeCommand w = .ok i ∧ step s = exec i (popHost s q)) ∨
    (∃ w q e, s.host.queue = .memWrite cmdAddr w :: q ∧ decodeCommand w = .error e ∧ step s = execIllegal w (popHost s q)) ∨
    (∃ a q, s.host.queue = a :: q ∧ (∀ w, a ≠ .memWrite cmdAddr w) ∧ step s = hostAct a (popHost s q)) := by
  cases hq : s.host.queue with
  | nil => left; simp [step, nextEvent, hb, nextAtBoundary, hq]
  | cons a q =>
    by_cases hw : ∃ w, a = .memWrite cmdAddr w
    · obtain ⟨w, rfl⟩ := hw
      have hs := step_command hb hq
      cases hd : decodeCommand w with
      | ok i => rw [hd] at hs; exact .inr (.inl ⟨w, q, i, rfl, hd, hs⟩)
      | error e => rw [hd] at hs; exact .inr (.inr (.inl ⟨w, q, e, rfl, hd, hs⟩))
    · refine .inr (.inr (.inr ⟨a, q, rfl, fun w h => hw ⟨w, h⟩, ?_⟩))
      cases a with
      | memWrite x v =>
        have hx : x ≠ cmdAddr := fun h => hw ⟨v, by rw [h]⟩
        simp [step, nextEvent, hb, nextAtBoundary, hq, hx]
      | _ => simp [step, nextEvent, hb, nextAtBoundary, hq]

/-- What the header reader's turn can be: a whole token, a token cut short, or no header read at all. -/
theorem step_turn (he : nextEvent s = nextToken s) :
    (∃ i rest stack, s.hdrStack = some stack ∧ decodeToken s.restIn = .ok (i, rest) ∧ step s = exec i s) ∨
    (∃ e stack, s.hdrStack = some stack ∧ decodeToken s.restIn = .error e ∧ step s = readHeaderToken s) ∨
    (s.hdrStack = none ∧ step s = .fault .strayBusy) := by
  cases hs : s.hdrStack with
  | none => right; right; simp [step, he, nextToken, hs]
  | some stack =>
    cases hd : decodeToken s.restIn with
    | ok p => left; exact ⟨p.1, p.2, stack, rfl, rfl, by simp [step, he, nextToken, hs, hd]⟩
    | error e => right; left; exact ⟨e, stack, rfl, rfl, by simp [step, he, nextToken, hs, hd]⟩

/-- What a step can be while BUSY = 1: the header reader's turn, a host action that needs no boundary, or a stop. -/
theorem step_busy (hb : s.flags.busy = true) :
    nextEvent s = nextToken s ∨
    (∃ a q, s.host.queue = a :: q ∧ (∀ w, a ≠ .memWrite cmdAddr w) ∧ (∀ b, a ≠ .attachIn b) ∧ a ≠ .attachOut ∧
      a ≠ .readOut ∧ step s = hostAct a (popHost s q)) ∨
    step s = .refused .attachWhileBusy := by
  have hbe : nextEvent s = nextWhileBusy s := by simp [nextEvent, hb]
  cases hq : s.host.queue with
  | nil => left; simp [hbe, nextWhileBusy, hq]
  | cons a q =>
    cases a with
    | attachIn b => right; right; simp [step, hbe, nextWhileBusy, hq]
    | attachOut => right; right; simp [step, hbe, nextWhileBusy, hq]
    | readOut => left; simp [hbe, nextWhileBusy, hq]
    | memWrite x v =>
      by_cases hx : x = cmdAddr
      · left; simp [hbe, nextWhileBusy, hq, hx]
      · right; left
        refine ⟨_, q, rfl, ?_, ?_, by simp, by simp, by simp [step, hbe, nextWhileBusy, hq, hx]⟩
        · intro w h; simp at h; exact hx h.1
        · intro b; simp
    | memRead x =>
      right; left
      exact ⟨_, q, rfl, by simp, by simp, by simp, by simp, by simp [step, hbe, nextWhileBusy, hq]⟩
    | reset =>
      right; left
      exact ⟨_, q, rfl, by simp, by simp, by simp, by simp, by simp [step, hbe, nextWhileBusy, hq]⟩

end Sys2Proof.Machine
end

