-- ==== Sys2Proof/Laws/HeaderTokens.lean ====
section
/-! SUPPORT. The header reader over a run of tokens (R81, R84, R183): what a stack of waiting nodes does with a returned index,
and what whole tokens do before the header has ended. -/

namespace Sys2Proof.Machine

/-! ### Returning an index -/

/-- The waiting nodes that have their left child already. -/
def rightFrames (rights : List (Fin 513 × NodeIdx)) : List HdrFrame := rights.map (fun p => .wantRight p.1 p.2)

/-- Every stack is waiting right children up to its end, or up to a node that waits for its left child. -/
theorem stack_cases (stack : List HdrFrame) :
    (∃ rights, stack = rightFrames rights) ∨ ∃ rights j below, stack = rightFrames rights ++ .wantLeft j :: below := by
  induction stack with
  | nil => exact .inl ⟨[], rfl⟩
  | cons f stack ih =>
    cases f with
    | wantLeft j => exact .inr ⟨[], j, stack, rfl⟩
    | wantRight i l =>
      rcases ih with ⟨rights, rfl⟩ | ⟨rights, j, below, rfl⟩
      · exact .inl ⟨(i, l) :: rights, rfl⟩
      · exact .inr ⟨(i, l) :: rights, j, below, rfl⟩

/-- An index returned to right children completes them, and the last one's own index goes on. -/
theorem returnChild_rights (rights : List (Fin 513 × NodeIdx)) (tail : List HdrFrame) (c : NodeIdx) (s : State) :
    returnChild (rightFrames rights ++ tail) c s =
      returnChild tail (closeParents rights c s.node).2 { s with node := (closeParents rights c s.node).1 } := by
  induction rights generalizing c s with
  | nil => rfl
  | cons p rights ih =>
    exact ih (nodeIdx p.1) { s with node := s.node.set p.1 { s.node[p.1] with left := p.2, right := c } }

/-- Completing a parent changes its links only. -/
theorem closeParents_keeps (rights : List (Fin 513 × NodeIdx)) (c : NodeIdx) (nd : Vector Node 513) (j : Fin 513) :
    (closeParents rights c nd).1[j].leaf = nd[j].leaf ∧ (closeParents rights c nd).1[j].sym = nd[j].sym ∧
      (closeParents rights c nd).1[j].w = nd[j].w ∧
      ((∀ p ∈ rights, p.1 ≠ j) → (closeParents rights c nd).1[j] = nd[j]) := by
  induction rights generalizing c nd with
  | nil => exact ⟨rfl, rfl, rfl, fun _ => rfl⟩
  | cons p rights ih =>
    obtain ⟨h1, h2, h3, h4⟩ := ih (BitVec.ofNat 10 p.1.val) (nd.set p.1 { nd[p.1] with left := p.2, right := c })
    by_cases hj : p.1 = j
    · subst hj
      refine ⟨by simpa [closeParents] using h1, by simpa [closeParents] using h2, by simpa [closeParents] using h3, ?_⟩
      intro h
      exact absurd rfl (h p (by simp))
    · have hne : p.1.val ≠ j.val := fun h => hj (Fin.ext h)
      have hget : (nd.set p.1 { nd[p.1] with left := p.2, right := c })[j] = nd[j] := by simp [hne]
      rw [hget] at h1 h2 h3 h4
      exact ⟨h1, h2, h3, fun h => h4 (fun q hq => h q (by simp [hq]))⟩

/-! ### A run of tokens -/

/-- Nodes on a stack whose left subtree is being read: each waits for a right subtree besides. -/
def leftFrames (stack : List HdrFrame) : Nat :=
  (stack.filter (fun f => match f with | .wantLeft _ => true | .wantRight _ _ => false)).length

/-- The node a frame stands for. -/
def HdrFrame.node : HdrFrame → Fin 513
  | .wantLeft i => i
  | .wantRight i _ => i

@[simp] theorem leftFrames_rights (rights : List (Fin 513 × NodeIdx)) : leftFrames (rightFrames rights) = 0 := by
  induction rights with
  | nil => rfl
  | cons p rights ih => exact ih

@[simp] theorem leftFrames_rights_append (rights : List (Fin 513 × NodeIdx)) (j : Fin 513) (below : List HdrFrame) :
    leftFrames (rightFrames rights ++ .wantLeft j :: below) = leftFrames below + 1 := by
  induction rights with
  | nil => rfl
  | cons p rights ih => exact ih

/-- The state whole tokens leave: their bits consumed, their entries counted, the given arena and stack. -/
def readTokens (ts : List Instr) (nd : Vector Node 513) (stack : List HdrFrame) (s : State) : State :=
  { s with
    node := nd
    hdrStack := some stack
    inp := { s.inp with pos := s.inp.pos + BitVec.ofNat 64 (tokenBits ts).length }
    cnt := { s.cnt with cntIn := s.cnt.cntIn + BitVec.ofNat 64 (tokenBits ts).length }
    tree := { s.tree with
      nodeCount := s.tree.nodeCount + BitVec.ofNat 10 ts.length
      leafCount := s.tree.leafCount + BitVec.ofNat 10 (ts.filter (fun i => i != .hdrInternal)).length } }

theorem readTokens_nil {s : State} {stack : List HdrFrame} (h : s.hdrStack = some stack) :
    readTokens [] s.node stack s = s := by
  cases s
  simp_all [readTokens, tokenBits]

theorem readTokens_readTokens (a b : List Instr) (nd nd' : Vector Node 513) (st st' : List HdrFrame) (s : State) :
    readTokens b nd' st' (readTokens a nd st s) = readTokens (a ++ b) nd' st' s := by
  simp [readTokens, tokenBits, BitVec.add_assoc, BitVec.ofNat_add]

/-- What one token does to the arena and the stack: entry k is written, entries elsewhere keep all but the links of nodes that
wait, and the nodes that wait afterwards waited before or are entry k. -/
structure TokenWritten (i : Instr) (k : Nat) (stack stack' : List HdrFrame) (old nd : Vector Node 513) : Prop where
  left_frames : leftFrames stack' + 1 = if i = .hdrInternal then leftFrames stack + 2 else leftFrames stack
  frames : ∀ f ∈ stack', (f.node.val = k ∧ i = .hdrInternal) ∨ ∃ g ∈ stack, f.node = g.node
  leaf : ∀ (y : Sym) (j : Fin 513), i = .hdrLeaf y → j.val = k → nd[j] = Node.mkLeaf y 0
  internal : ∀ j : Fin 513, i = .hdrInternal → j.val = k → nd[j] = Node.mkInternal 0 0 0
  others : ∀ j : Fin 513, j.val ≠ k → nd[j].leaf = old[j].leaf ∧ nd[j].sym = old[j].sym ∧ nd[j].w = old[j].w ∧
    ((∀ f ∈ stack, f.node ≠ j) → nd[j] = old[j])

/-- One whole token in a header read that goes on after it: its meaning and the header reader's turn agree. -/
theorem token_turn {i : Instr} {s : State} {stack : List HdrFrame} {rest : List Bool} (hl : s.inp.bits.length < 2 ^ 64)
    (hst : s.hdrStack = some stack) (hb : s.restIn = tokenBits [i] ++ rest) (hg : goodTokens [i] = true)
    (hc : s.tree.nodeCount.toNat < 513) (hk : ∀ f ∈ stack, f.node.val < s.tree.nodeCount.toNat)
    (ho : i = .hdrInternal ∨ leftFrames stack ≠ 0) :
    ∃ nd stack', exec i s = .next (readTokens [i] nd stack' s) ∧ desToken stack s = .done (readTokens [i] nd stack' s) ∧
      TokenWritten i s.tree.nodeCount.toNat stack stack' s.node nd := by
  let k : Fin 513 := ⟨s.tree.nodeCount.toNat, hc⟩
  have hkn : nodeIdx k = s.tree.nodeCount := by simp [k, nodeIdx]
  cases i
  case hdrInternal =>
    have hb0 : s.restIn = false :: rest := by simpa [tokenBits, encode] using hb
    have hd := desToken_internal (stack := stack) hb0 hc
    have hopen : openInternal stack k { consumeIn 1 s with tree := { s.tree with nodeCount := s.tree.nodeCount + 1 } } =
        readTokens [.hdrInternal] (s.node.set k (Node.mkInternal 0 0 0)) (.wantLeft k :: stack) s := by
      simp [readTokens, tokenBits, encode, openInternal, consumeIn]
    refine ⟨s.node.set k (Node.mkInternal 0 0 0), .wantLeft k :: stack, ?_, ?_, ?_⟩
    · simp only [exec, execHdrInternal, hst, allocNode_some (s := consumeIn 1 s) hc]
      exact congrArg Host.Outcome.next hopen
    · rw [hd]; exact congrArg Ran.done hopen
    · refine ⟨by simp [leftFrames], ?_, by simp, ?_, ?_⟩
      · intro f hf
        rcases List.mem_cons.mp hf with rfl | hf
        · exact .inl ⟨rfl, rfl⟩
        · exact .inr ⟨f, hf, rfl⟩
      · intro j _ hj
        have : j = k := Fin.ext hj
        subst this
        simp
      · intro j hj
        have hne : k.val ≠ j.val := Ne.symm hj
        have : (s.node.set k (Node.mkInternal 0 0 0))[j] = s.node[j] := by simp [hne]
        rw [this]
        exact ⟨rfl, rfl, rfl, fun _ => rfl⟩
  case hdrLeaf y =>
    have hy : symLegal y = true := by simpa [goodTokens, Instr.isCommand, Instr.wf] using hg
    have hb1 : s.restIn = true :: (bitsOf 9 y.toNat ++ rest) := by simpa [tokenBits, encode] using hb
    have hd := desToken_leaf (stack := stack) hl hb1 hc hy
    rcases stack_cases stack with ⟨rights, rfl⟩ | ⟨rights, j, below, rfl⟩
    · simp at ho
    obtain ⟨nd, c, hcl⟩ : ∃ nd c, closeParents rights s.tree.nodeCount (s.node.set k (Node.mkLeaf y 0)) = (nd, c) :=
      ⟨_, _, rfl⟩
    have hclose : closeLeaf (rightFrames rights ++ .wantLeft j :: below) k y
        (consumeIn 9 { consumeIn 1 s with tree := { s.tree with nodeCount := s.tree.nodeCount + 1 } }) =
        readTokens [.hdrLeaf y] nd (.wantRight j c :: below) s := by
      rw [closeLeaf, returnChild_rights, hkn]
      simp only [consumeIn, hcl, returnChild, readTokens, tokenBits, encode, BitVec.add_assoc, ← BitVec.ofNat_add,
        List.flatMap_cons, List.flatMap_nil, List.append_nil, List.length_cons, length_bitsOf]
      rfl
    refine ⟨nd, .wantRight j c :: below, ?_, ?_, ?_⟩
    · simp only [exec, execHdrLeaf, hst, allocNode_some (s := consumeIn 1 s) hc, hy, if_true]
      have : closeLeaf (rightFrames rights ++ .wantLeft j :: below) ⟨(consumeIn 1 s).tree.nodeCount.toNat, hc⟩ y
          (consumeIn 9 { consumeIn 1 s with
            tree := { (consumeIn 1 s).tree with nodeCount := (consumeIn 1 s).tree.nodeCount + 1 } }) = _ := hclose
      rw [this]
      rfl
    · rw [hd]; exact congrArg Ran.done hclose
    · have hkeep := closeParents_keeps rights s.tree.nodeCount (s.node.set k (Node.mkLeaf y 0))
      rw [hcl] at hkeep
      have hright : ∀ p ∈ rights, p.1.val < k.val := by
        intro p hp
        exact hk (.wantRight p.1 p.2) (by simp [rightFrames, hp])
      refine ⟨?_, ?_, ?_, by simp, ?_⟩
      · simp only [leftFrames_rights_append]
        simp [leftFrames]
      · intro f hf
        right
        rcases List.mem_cons.mp hf with rfl | hf
        · exact ⟨.wantLeft j, by simp, rfl⟩
        · exact ⟨f, by simp [hf], rfl⟩
      · intro z i hz hi
        obtain rfl : i = k := Fin.ext hi
        obtain rfl : y = z := by simpa using hz
        rw [(hkeep k).2.2.2 (fun p hp h => by have := hright p hp; rw [h] at this; omega)]
        simp
      · intro i hi
        have hne : k.val ≠ i.val := Ne.symm hi
        have hget : (s.node.set k (Node.mkLeaf y 0))[i] = s.node[i] := by simp [hne]
        obtain ⟨h1, h2, h3, h4⟩ := hkeep i
        rw [hget] at h1 h2 h3 h4
        refine ⟨h1, h2, h3, fun h => h4 (fun p hp => ?_)⟩
        exact h (.wantRight p.1 p.2) (by simp [rightFrames]; exact .inl hp)
  all_goals simp [goodTokens, Instr.isCommand] at hg

theorem headerOpen_zero (ts : List Instr) : headerOpen 0 ts = 0 := by cases ts <;> rfl

/-- What a run of tokens does to the arena from entry k on: token m has entry k + m, and every other entry keeps all but the links
of nodes that wait. -/
structure TokensWritten (ts : List Instr) (k : Nat) (stack : List HdrFrame) (old nd : Vector Node 513) : Prop where
  leaf : ∀ m y (j : Fin 513), ts[m]? = some (.hdrLeaf y) → j.val = k + m → nd[j] = Node.mkLeaf y 0
  internal : ∀ m (j : Fin 513), ts[m]? = some .hdrInternal → j.val = k + m → nd[j].leaf = false ∧ nd[j].sym = 0 ∧ nd[j].w = 0
  others : ∀ j : Fin 513, j.val < k ∨ k + ts.length ≤ j.val → nd[j].leaf = old[j].leaf ∧ nd[j].sym = old[j].sym ∧
    nd[j].w = old[j].w ∧ ((∀ f ∈ stack, f.node ≠ j) → nd[j] = old[j])

/-- Whole tokens that do not end the header: their meanings one after the other and the header reader's loop come to the same
state, which has consumed their bits and counted their entries (R183, R84). -/
theorem tokens_run {ts : List Instr} {s : State} {stack : List HdrFrame} {rest : List Bool} (hl : s.inp.bits.length < 2 ^ 64)
    (hst : s.hdrStack = some stack) (hb : s.restIn = tokenBits ts ++ rest) (hg : goodTokens ts = true)
    (ho : headerOpen (leftFrames stack + 1) ts ≠ 0) (hc : s.tree.nodeCount.toNat + ts.length ≤ 513)
    (hk : ∀ f ∈ stack, f.node.val < s.tree.nodeCount.toNat) :
    ∃ nd stack', execAll ts s = .next (readTokens ts nd stack' s) ∧
      (∀ fuel, headerLoop (ts.length + fuel) s = headerLoop fuel (readTokens ts nd stack' s)) ∧
      TokensWritten ts s.tree.nodeCount.toNat stack s.node nd := by
  induction ts generalizing s stack with
  | nil =>
    refine ⟨s.node, stack, ?_, fun fuel => ?_, by simp, by simp, fun _ _ => ⟨rfl, rfl, rfl, fun _ => rfl⟩⟩
    · rw [readTokens_nil hst]; rfl
    · rw [readTokens_nil hst, List.length_nil, Nat.zero_add]
  | cons i ts ih =>
    have hg' : goodTokens [i] = true ∧ goodTokens ts = true := by simpa [goodTokens] using hg
    have hcons : tokenBits (i :: ts) = tokenBits [i] ++ tokenBits ts := by simp [tokenBits]
    rw [hcons, List.append_assoc] at hb
    rw [List.length_cons] at hc
    have hi : i = .hdrInternal ∨ leftFrames stack ≠ 0 := by
      by_cases h : i = .hdrInternal
      · exact .inl h
      · right
        intro h0
        simp [headerOpen, h, h0, headerOpen_zero] at ho
    obtain ⟨nd1, stack1, hex, hdes, hw⟩ := token_turn hl hst hb hg'.1 (by omega) hk hi
    have hn1 : (readTokens [i] nd1 stack1 s).tree.nodeCount.toNat = s.tree.nodeCount.toNat + 1 := by
      have h1 : (1#10).toNat = 1 := rfl
      simp only [readTokens, List.length_singleton, BitVec.toNat_add, h1]
      omega
    have hpos : 0 < (tokenBits [i]).length := by
      cases i <;> simp [goodTokens, Instr.isCommand] at hg' <;> simp [tokenBits, encode]
    have hb1 : (readTokens [i] nd1 stack1 s).restIn = tokenBits ts ++ rest := by
      have hlen : (tokenBits [i]).length ≤ s.remaining := by rw [← length_restIn, hb]; simp
      have : (readTokens [i] nd1 stack1 s).restIn = (consumeIn (tokenBits [i]).length s).restIn := rfl
      rw [this, restIn_consumeIn hl hlen hpos, hb]
      simp
    have ho1 : headerOpen (leftFrames stack1 + 1) ts ≠ 0 := by rw [hw.left_frames]; exact ho
    have hk1 : ∀ f ∈ stack1, f.node.val < (readTokens [i] nd1 stack1 s).tree.nodeCount.toNat := by
      intro f hf
      rw [hn1]
      rcases hw.frames f hf with ⟨h, _⟩ | ⟨g, hgs, h⟩
      · omega
      · have := hk g hgs
        rw [h]; omega
    obtain ⟨nd, stack', hex', hloop, hw'⟩ :=
      ih (s := readTokens [i] nd1 stack1 s) (stack := stack1) hl rfl hb1 hg'.2 ho1 (by rw [hn1]; omega) hk1
    rw [hn1] at hw'
    rw [readTokens_readTokens] at hex' hloop
    refine ⟨nd, stack', ?_, fun fuel => ?_, ?_⟩
    · simp only [execAll, hex]
      exact hex'
    · rw [show (i :: ts).length + fuel = ts.length + fuel + 1 by simp; omega, headerLoop, hst]
      simp only [hdes]
      exact hloop fuel
    · have hown : ∀ j : Fin 513, j.val = s.tree.nodeCount.toNat → (i ≠ .hdrInternal → nd[j] = nd1[j]) ∧
          nd[j].leaf = nd1[j].leaf ∧ nd[j].sym = nd1[j].sym ∧ nd[j].w = nd1[j].w := by
        intro j hj
        obtain ⟨h1, h2, h3, h4⟩ := hw'.others j (by omega)
        refine ⟨fun hne => h4 (fun f hf h => ?_), h1, h2, h3⟩
        rcases hw.frames f hf with ⟨_, h'⟩ | ⟨g, hgs, h'⟩
        · exact hne h'
        · have := hk g hgs
          rw [← h', h, hj] at this
          omega
      refine ⟨fun m y j hm hj => ?_, fun m j hm hj => ?_, fun j hj => ?_⟩
      · cases m with
        | zero =>
          obtain rfl : i = .hdrLeaf y := by simpa using hm
          rw [(hown j (by omega)).1 (by simp)]
          exact hw.leaf y j rfl (by omega)
        | succ m => exact hw'.leaf m y j (by simpa using hm) (by omega)
      · cases m with
        | zero =>
          obtain rfl : i = .hdrInternal := by simpa using hm
          obtain ⟨-, h1, h2, h3⟩ := hown j (by omega)
          rw [h1, h2, h3, hw.internal j rfl (by omega)]
          exact ⟨rfl, rfl, rfl⟩
        | succ m => exact hw'.internal m j (by simpa using hm) (by omega)
      · rw [List.length_cons] at hj
        obtain ⟨h1, h2, h3, h4⟩ := hw'.others j (by omega)
        obtain ⟨g1, g2, g3, g4⟩ := hw.others j (by omega)
        refine ⟨h1.trans g1, h2.trans g2, h3.trans g3, fun hf => (h4 fun f hfs h => ?_).trans (g4 hf)⟩
        rcases hw.frames f hfs with ⟨h', _⟩ | ⟨g, hgs, h'⟩
        · rw [h] at h'; omega
        · exact hf g hgs (h'.symm.trans h)

/-! ### The tokens that fail (R184 to R186, R245) -/

/-- No bit is left for the flag. -/
theorem desToken_empty {stack : List HdrFrame} {s : State} (hb : s.restIn = []) : desToken stack s = .raised .hdrEos s := by
  rw [desToken, readBits_exhausted (by rw [← length_restIn, hb]; decide)]

/-- A flag is read and the arena is full. -/
theorem desToken_full {stack : List HdrFrame} {s : State} {f : Bool} {rest : List Bool} (hb : s.restIn = f :: rest)
    (hc : 513 ≤ s.tree.nodeCount.toNat) : desToken stack s = .raised .hdrOversize (consumeIn 1 s) := by
  have hr := readBits_field (n := 1) (v := f.toNat) (s := s) (rest := rest) (by cases f <;> exact hb)
  simp only [desToken, hr, allocNode_none (s := consumeIn 1 s) hc]

/-- A leaf's flag is read and fewer than 9 bits are left for its symbol. -/
theorem desToken_cut {stack : List HdrFrame} {s : State} {c : List Bool} (hl : s.inp.bits.length < 2 ^ 64)
    (hb : s.restIn = true :: c) (hn : c.length < 9) (hc : s.tree.nodeCount.toNat < 513) :
    desToken stack s = .raised .hdrEos { consumeIn 1 s with tree := { s.tree with nodeCount := s.tree.nodeCount + 1 } } := by
  have hb1 : s.restIn = bitsOf 1 1 ++ c := hb
  have h9 : ({ consumeIn 1 s with tree := { s.tree with nodeCount := s.tree.nodeCount + 1 } } : State).restIn = c :=
    restIn_after_field (n := 1) hl (by decide) hb1
  have hx := readBits_exhausted (n := 9) (by rw [← length_restIn, h9]; exact hn)
  simp only [desToken, readBits_field hb1, allocNode_some (s := consumeIn 1 s) hc, consumeIn_tree, hx]
  rfl

/-- A leaf's flag and a symbol above 256 are read. -/
theorem desToken_badSymbol {stack : List HdrFrame} {s : State} {y : Sym} {rest : List Bool} (hl : s.inp.bits.length < 2 ^ 64)
    (hb : s.restIn = true :: (bitsOf 9 y.toNat ++ rest)) (hc : s.tree.nodeCount.toNat < 513) (hy : symLegal y = false) :
    desToken stack s = .raised .hdrSymbol
      (consumeIn 9 { consumeIn 1 s with tree := { s.tree with nodeCount := s.tree.nodeCount + 1 } }) := by
  have hb1 : s.restIn = bitsOf 1 1 ++ (bitsOf 9 y.toNat ++ rest) := hb
  have h9 : ({ consumeIn 1 s with tree := { s.tree with nodeCount := s.tree.nodeCount + 1 } } : State).restIn =
    bitsOf 9 y.toNat ++ rest := restIn_after_field (n := 1) hl (by decide) hb1
  simp only [desToken, readBits_field hb1, allocNode_some (s := consumeIn 1 s) hc, consumeIn_tree, readBits_field h9,
    BitVec.ofNat_toNat, BitVec.setWidth_eq, hy, Bool.false_eq_true, if_false]
  rfl

/-! ### RDHDR over a run of tokens -/

/-- RDHDR on the magic and whole tokens that do not end the header: it comes to the state their meanings make, and where its next
turn there raises an error, so does it. -/
theorem rdhdr_tokens {ts : List Instr} {s : State} {rest : List Bool} (he : s.flags.err = false)
    (hl : s.inp.bits.length < 2 ^ 64) (hg : goodTokens ts = true) (ho : headerOpen 1 ts ≠ 0) (hn : ts.length ≤ 513)
    (hb : s.restIn = bitsOf 32 s.params.magic.toNat ++ (tokenBits ts ++ rest)) :
    ∃ nd stack, execAll ts (headerStart s) = .next (readTokens ts nd stack (headerStart s)) ∧ tokensWritten ts s.node nd ∧
      (readTokens ts nd stack (headerStart s)).restIn = rest ∧
      ∀ e t, desToken stack (readTokens ts nd stack (headerStart s)) = .raised e t → exec .rdhdr s = .next (raise e t) := by
  have hb1 : (headerStart s).restIn = tokenBits ts ++ rest := restIn_after_field (n := 32) hl (by decide) hb
  obtain ⟨nd, stack, hex, hloop, hw⟩ :=
    tokens_run (s := headerStart s) (stack := []) hl rfl hb1 hg (by simpa [leftFrames] using ho)
      (by simpa [headerStart, TreeRegs.zero] using hn) (by simp)
  have h0 : (headerStart s).tree.nodeCount.toNat = 0 := rfl
  rw [h0] at hw
  refine ⟨nd, stack, hex, ⟨fun k y hk => ?_, fun k hk => ?_, fun k h1 h2 => ?_⟩, ?_, fun e t hd => ?_⟩
  · have hlt : k < 513 := by have := (List.getElem?_eq_some_iff.mp hk).1; omega
    have := hw.leaf k y ⟨k, hlt⟩ hk (by simp)
    simpa [entryAt, hlt] using this
  · have hlt : k < 513 := by have := (List.getElem?_eq_some_iff.mp hk).1; omega
    have := hw.internal k ⟨k, hlt⟩ hk (by simp)
    simpa [entryAt, hlt] using this
  · have := (hw.others ⟨k, h2⟩ (by right; simpa using h1)).2.2.2 (by simp)
    simpa [entryAt, h2, headerStart] using this
  · by_cases hp : (tokenBits ts).length = 0
    · have : tokenBits ts = [] := List.length_eq_zero_iff.mp hp
      rw [this] at hb1
      have h1 : (readTokens ts nd stack (headerStart s)).restIn = (headerStart s).restIn := by
        simp [State.restIn, readTokens, this]
      rw [h1, hb1]; rfl
    · have hlen : (tokenBits ts).length ≤ (headerStart s).remaining := by rw [← length_restIn, hb1]; simp
      have : (readTokens ts nd stack (headerStart s)).restIn = (consumeIn (tokenBits ts).length (headerStart s)).restIn := rfl
      rw [this, restIn_consumeIn (s := headerStart s) hl hlen (Nat.pos_of_ne_zero hp), hb1]
      simp
  · have hread := readBits_field (s := startCall (prologue wordRdhdr s)) (n := 32) (v := s.params.magic.toNat) hb
    have hl2 := hloop (513 - ts.length + 1)
    rw [show ts.length + (513 - ts.length + 1) = nodeCap + 1 from by rw [nodeCap]; omega] at hl2
    have hstart : { consumeIn 32 (startCall (prologue wordRdhdr s)) with hdrStack := some [] } = headerStart s := by
      simp [headerStart, consumeIn, startCall, prologue, Counters.zero, wordRdhdr, Flags.dropValid, Flags.reset, he]
    have hbody : rdhdrBody (prologue wordRdhdr s) = .raised e t := by
      have hm : (startCall (prologue wordRdhdr s)).params.magic = s.params.magic := rfl
      have hloop' : headerLoop (nodeCap + 1) (headerStart s) = .raised e t := by
        rw [hl2, headerLoop]
        have : (readTokens ts nd stack (headerStart s)).hdrStack = some stack := rfl
        simp only [this, hd]
      rw [← hstart] at hloop'
      simpa only [rdhdrBody, hread, consumeIn_params, hm, BitVec.ofNat_toNat, BitVec.setWidth_eq, bne_self_eq_false,
        Bool.false_eq_true, if_false] using hloop'
    rw [exec_rdhdr, runCommand_ran (.inl he) rfl, hbody]
    rfl

/-- An error raised n bits, and with m entries taken, beyond a run of tokens is RDHDR's failure with the tokens' counts. -/
theorem raised_readTokens {ts : List Instr} {nd : Vector Node 513} {stack : List HdrFrame} {s : State} (e : ErrCode) (n m : Nat) :
    raise e (let t := consumeIn n (readTokens ts nd stack (headerStart s))
      { t with tree := { t.tree with nodeCount := t.tree.nodeCount + BitVec.ofNat 10 m } }) =
      rdhdrFailed e (32 + (tokenBits ts).length + n) (tokenCounts ts m) nd s := by
  simp [raise, consumeIn, readTokens, headerStart, rdhdrFailed, tokenCounts, TreeRegs.zero, Counters.zero, Flags.dropValid,
    Flags.reset, BitVec.ofNat_add, BitVec.add_assoc]

end Sys2Proof.Machine
end

