-- ==== Sys2Proof/Laws/Passes.lean ====
section
/-! SUPPORT. The two passes over the input, COUNT's and ENCODE's, as folds over the bytes of IN. -/

namespace Sys2Proof.Machine

/-- What `bytesOf` says of the next 8-bit read: exhausted where no byte is left, else the first byte. -/
theorem readBits_byte (s : State) :
    match bytesOf s.restIn with
    | [] => readBits 8 s = none
    | b :: _ => readBits 8 s = some (b, consumeIn 8 s) := by
  by_cases h : s.remaining < 8
  · rw [bytesOf_of_lt (by rwa [length_restIn])]
    exact readBits_exhausted h
  · rw [bytesOf_of_ge (by rw [length_restIn]; omega)]
    exact readBits_ok (by omega)

theorem bytesOf_after_byte {s : State} {b : BitVec 8} {bs : List (BitVec 8)} (hl : s.inp.bits.length < 2 ^ 64)
    (h : bytesOf s.restIn = b :: bs) : 8 ≤ s.remaining ∧ bytesOf (consumeIn 8 s).restIn = bs := by
  by_cases h8 : s.restIn.length < 8
  · rw [bytesOf_of_lt h8] at h; simp at h
  · have hr : 8 ≤ s.remaining := by rw [← length_restIn]; omega
    refine ⟨hr, ?_⟩
    rw [bytesOf_of_ge (by omega)] at h
    rw [restIn_consumeIn hl hr (by omega)]
    exact (List.cons.inj h).2

/-! ### COUNT -/

/-- One byte counted (R132). -/
def countOne (s : State) (b : BitVec 8) : State := countSym (bumpFreq (byteIdx b) (consumeIn 8 s))

/-- The pass of COUNT over the bytes on IN while no entry overflows (R132). -/
theorem countLoop_done {bs : List (BitVec 8)} {s : State} {fuel : Nat} (hl : s.inp.bits.length < 2 ^ 64)
    (hb : bytesOf s.restIn = bs) (hf : bs.length < fuel)
    (hmax : ∀ k, s.freq[k].toNat + tally bs k ≤ 2 ^ s.params.wCount - 1) :
    countLoop fuel s = .done (bs.foldl countOne s) := by
  induction bs generalizing s fuel with
  | nil =>
    obtain ⟨fuel, rfl⟩ : ∃ f, fuel = f + 1 := ⟨fuel - 1, by omega⟩
    have hr := readBits_byte s
    rw [hb] at hr
    simp [countLoop, hr]
  | cons b bs ih =>
    obtain ⟨fuel, rfl⟩ : ∃ f, fuel = f + 1 := ⟨fuel - 1, by omega⟩
    have hr := readBits_byte s
    rw [hb] at hr
    obtain ⟨-, hb'⟩ := bytesOf_after_byte hl hb
    have hw : s.params.wCount ≤ 32 := by simp only [Params.wCount]; omega
    have hp : 2 ^ s.params.wCount ≤ 2 ^ 32 := Nat.pow_le_pow_right (by omega) hw
    have hb1 := hmax (byteIdx b)
    have ht : tally (b :: bs) (byteIdx b) = tally bs (byteIdx b) + 1 := by simp [tally]
    have hne : (consumeIn 8 s).freq[byteIdx b] ≠ maxCount (consumeIn 8 s).params := by
      simp only [consumeIn_freq, consumeIn_params, maxCount, ne_eq]
      intro he
      have := congrArg BitVec.toNat he
      simp only [BitVec.toNat_ofNat] at this
      omega
    simp only [countLoop, hr, hne, if_false, List.foldl_cons]
    refine ih (s := countOne s b) (fuel := fuel) (by simpa [countOne] using hl) hb' (by simp at hf; omega) ?_
    intro k
    have hk := hmax k
    simp only [countOne, countSym_freq, bumpFreq_freq, consumeIn_freq, countSym_params, bumpFreq_params, consumeIn_params,
      Fin.getElem_fin, Vector.getElem_set]
    by_cases hkb : byteIdx b = k
    · subst hkb
      have h1 : (1 : Count).toNat = 1 := rfl
      simp only [Fin.getElem_fin] at hb1
      simp only [if_true, BitVec.toNat_add, h1]
      omega
    · have hkv : (byteIdx b).val ≠ k.val := fun h => hkb (Fin.ext h)
      have : tally (b :: bs) k = tally bs k := by simp [tally, hkb]
      simp only [hkv, if_false]
      simp only [Fin.getElem_fin] at hk
      omega

theorem ofNat_add_ofNat (w a b : Nat) : BitVec.ofNat w a + BitVec.ofNat w b = BitVec.ofNat w (a + b) := by
  apply BitVec.eq_of_toNat_eq
  simp

/-- The frequency table after the pass: each entry has grown by its symbol's tally. -/
theorem freq_foldl_countOne (bs : List (BitVec 8)) (s : State) (k : SymIdx) :
    (bs.foldl countOne s).freq[k] = s.freq[k] + BitVec.ofNat 32 (tally bs k) := by
  induction bs generalizing s with
  | nil => simp [tally]
  | cons b bs ih =>
    rw [List.foldl_cons, ih]
    simp only [countOne, countSym_freq, bumpFreq_freq, consumeIn_freq, Fin.getElem_fin, Vector.getElem_set]
    by_cases hkb : byteIdx b = k
    · subst hkb
      have ht : tally (b :: bs) (byteIdx b) = 1 + tally bs (byteIdx b) := by simp [tally, Nat.add_comm]
      have h1 : (1 : Count) = BitVec.ofNat 32 1 := rfl
      simp only [if_true, ht, h1, BitVec.add_assoc, ofNat_add_ofNat]
    · have hkv : (byteIdx b).val ≠ k.val := fun h => hkb (Fin.ext h)
      have ht : tally (b :: bs) k = tally bs k := by simp [tally, hkb]
      simp only [hkv, if_false, ht]

/-- Everything else the pass changes: the position and two counters. -/
theorem foldl_countOne_eq (bs : List (BitVec 8)) (s : State) :
    bs.foldl countOne s =
      { s with
        freq := (bs.foldl countOne s).freq
        inp := { s.inp with pos := s.inp.pos + BitVec.ofNat 64 (8 * bs.length) }
        cnt := { s.cnt with
          cntIn := s.cnt.cntIn + BitVec.ofNat 64 (8 * bs.length)
          cntSym := s.cnt.cntSym + BitVec.ofNat 64 bs.length } } := by
  induction bs generalizing s with
  | nil => simp
  | cons b bs ih =>
    rw [List.foldl_cons, ih]
    have h1 : (1 : Ctr) = BitVec.ofNat 64 1 := rfl
    simp only [countOne, countSym, bumpFreq, consumeIn, h1, BitVec.add_assoc, ofNat_add_ofNat, List.length_cons, Nat.mul_add,
      Nat.mul_one, Nat.add_comm]

/-- The pass of COUNT up to the byte whose entry is full: that byte is consumed and not counted (R134). -/
theorem countLoop_overflow {pre post : List (BitVec 8)} {b : BitVec 8} {s : State} {fuel : Nat}
    (hl : s.inp.bits.length < 2 ^ 64) (hb : bytesOf s.restIn = pre ++ b :: post) (hf : pre.length < fuel)
    (hmax : ∀ k, s.freq[k].toNat + tally pre k ≤ 2 ^ s.params.wCount - 1)
    (hfull : s.freq[byteIdx b].toNat + tally pre (byteIdx b) = 2 ^ s.params.wCount - 1) :
    countLoop fuel s = .raised .countOvf (consumeIn 8 (pre.foldl countOne s)) := by
  have hw : s.params.wCount ≤ 32 := by simp only [Params.wCount]; omega
  have hp : 2 ^ s.params.wCount ≤ 2 ^ 32 := Nat.pow_le_pow_right (by omega) hw
  induction pre generalizing s fuel with
  | nil =>
    obtain ⟨fuel, rfl⟩ : ∃ f, fuel = f + 1 := ⟨fuel - 1, by omega⟩
    have hr := readBits_byte s
    rw [hb] at hr
    have he : (consumeIn 8 s).freq[byteIdx b] = maxCount (consumeIn 8 s).params := by
      apply BitVec.eq_of_toNat_eq
      have h0 : tally [] (byteIdx b) = 0 := rfl
      simp only [consumeIn_freq, consumeIn_params, maxCount, BitVec.toNat_ofNat]
      rw [h0] at hfull
      omega
    simp only [List.nil_append] at hr
    simp only [countLoop, hr, he, if_true, List.foldl_nil]
  | cons c pre ih =>
    obtain ⟨fuel, rfl⟩ : ∃ f, fuel = f + 1 := ⟨fuel - 1, by omega⟩
    have hr := readBits_byte s
    rw [hb] at hr
    obtain ⟨-, hb'⟩ := bytesOf_after_byte hl hb
    have hb1 := hmax (byteIdx c)
    have ht : tally (c :: pre) (byteIdx c) = tally pre (byteIdx c) + 1 := by simp [tally]
    have hne : (consumeIn 8 s).freq[byteIdx c] ≠ maxCount (consumeIn 8 s).params := by
      simp only [consumeIn_freq, consumeIn_params, maxCount, ne_eq]
      intro he
      have := congrArg BitVec.toNat he
      simp only [BitVec.toNat_ofNat] at this
      omega
    have hstep : ∀ k, (countOne s c).freq[k].toNat + tally pre k = s.freq[k].toNat + tally (c :: pre) k := by
      intro k
      have hf1 : (countOne s c).freq[k] = _ := freq_foldl_countOne [c] s k
      have hk := hmax k
      rw [hf1, BitVec.toNat_add, BitVec.toNat_ofNat]
      by_cases hkc : byteIdx c = k
      · have h1 : tally [c] k = 1 := by simp [tally, hkc]
        have h2 : tally (c :: pre) k = tally pre k + 1 := by simp [tally, hkc]
        rw [h1]
        omega
      · have h1 : tally [c] k = 0 := by simp [tally, hkc]
        have h2 : tally (c :: pre) k = tally pre k := by simp [tally, hkc]
        rw [h1]
        omega
    simp only [List.cons_append] at hr
    simp only [countLoop, hr, hne, if_false, List.foldl_cons]
    refine ih (s := countOne s c) (fuel := fuel) (by simpa [countOne] using hl) hb' (by simp at hf; omega) ?_ ?_ hw hp
    · intro k
      rw [hstep]
      exact hmax k
    · rw [hstep]
      exact hfull

/-! ### ENCODE -/

/-- One byte encoded, or skipped where it has no code entry (R201, R202). -/
def encodeOne (s : State) (b : BitVec 8) : State :=
  if s.codes.entry[byteIdx b] then countSym (writeCode (byteIdx b) (consumeIn 8 s)) else countSkip (consumeIn 8 s)

/-- The pass of ENCODE over the bytes on IN (R201). -/
theorem encodeLoop_done {bs : List (BitVec 8)} {s : State} {fuel : Nat} (hl : s.inp.bits.length < 2 ^ 64)
    (hb : bytesOf s.restIn = bs) (hf : bs.length < fuel) : encodeLoop fuel s = .done (bs.foldl encodeOne s) := by
  induction bs generalizing s fuel with
  | nil =>
    obtain ⟨fuel, rfl⟩ : ∃ f, fuel = f + 1 := ⟨fuel - 1, by omega⟩
    have hr := readBits_byte s
    rw [hb] at hr
    simp [encodeLoop, hr]
  | cons b bs ih =>
    obtain ⟨fuel, rfl⟩ : ∃ f, fuel = f + 1 := ⟨fuel - 1, by omega⟩
    have hr := readBits_byte s
    rw [hb] at hr
    obtain ⟨-, hb'⟩ := bytesOf_after_byte hl hb
    have hf' : bs.length < fuel := by simp at hf; omega
    by_cases he : s.codes.entry[byteIdx b] = true
    · simp only [encodeLoop, hr, List.foldl_cons, encodeOne, consumeIn_codes, he, if_true]
      exact ih hl hb' hf'
    · simp only [encodeLoop, hr, List.foldl_cons, encodeOne, consumeIn_codes, he]
      exact ih hl hb' hf'

/-- The bits a byte contributes to OUT. -/
def byteCode (c : CodeTable) (b : BitVec 8) : List Bool := if c.entry[byteIdx b] then codeBits c (byteIdx b) else []

/-- Everything the pass changes: the position, OUT and the four counters. -/
theorem foldl_encodeOne_eq (bs : List (BitVec 8)) (s : State) :
    bs.foldl encodeOne s =
      { s with
        inp := { s.inp with pos := s.inp.pos + BitVec.ofNat 64 (8 * bs.length) }
        out := { s.out with bits := s.out.bits ++ bs.flatMap (byteCode s.codes) }
        cnt :=
          { cntIn := s.cnt.cntIn + BitVec.ofNat 64 (8 * bs.length)
            cntOut := s.cnt.cntOut + BitVec.ofNat 64 (bs.flatMap (byteCode s.codes)).length
            cntSym := s.cnt.cntSym + BitVec.ofNat 64 (bs.filter (fun b => s.codes.entry[byteIdx b])).length
            cntSkip := s.cnt.cntSkip + BitVec.ofNat 64 (bs.filter (fun b => !s.codes.entry[byteIdx b])).length } } := by
  induction bs generalizing s with
  | nil => simp
  | cons b bs ih =>
    have h1 : (1 : Ctr) = BitVec.ofNat 64 1 := rfl
    have h8 : 8 + 8 * bs.length = 8 * (bs.length + 1) := by omega
    rw [List.foldl_cons, ih]
    by_cases he : s.codes.entry[byteIdx b] = true
    · have hs : encodeOne s b = countSym (writeCode (byteIdx b) (consumeIn 8 s)) := by simp [encodeOne, he]
      have hc : byteCode s.codes b = bitsOf s.codes.len[byteIdx b].toNat s.codes.val[byteIdx b].toNat := by
        simp [byteCode, he, codeBits]
      rw [hs]
      simp only [countSym, writeCode, writeBits, consumeIn, List.flatMap_cons, hc, List.filter_cons, he, if_true, Bool.not_true,
        Bool.false_eq_true, if_false, List.append_assoc, BitVec.add_assoc, h1, ofNat_add_ofNat, List.length_append,
        length_bitsOf, List.length_cons, h8, Nat.add_comm 1]
    · have hs : encodeOne s b = countSkip (consumeIn 8 s) := by simp [encodeOne, he]
      have hc : byteCode s.codes b = [] := by simp [byteCode, he]
      rw [hs]
      simp only [countSkip, consumeIn, List.flatMap_cons, hc, List.nil_append, List.filter_cons, he, Bool.false_eq_true,
        if_false, Bool.not_false, if_true, BitVec.add_assoc, h1, ofNat_add_ofNat, List.length_cons, h8, Nat.add_comm 1]

end Sys2Proof.Machine
end

