-- ==== Sys2Proof/Laws/PerInstr.lean ====
section
/-! SUPPORT. Facts about every instruction as syntax, one lemma per constructor. -/

namespace Sys2Proof.Laws.EncodingShape

open Sys2Proof Sys2Proof.Machine

/-- R81, R90, R91, R94: a command is spelt as one word with RSV = 0, and it is well-formed, having no operand; a token is spelt
as 1 or as 10 bits whose first bit is its LEAF flag. -/
def Statement (i : Instr) : Prop :=
  match encode i with
  | .command w => i.isCommand = true ∧ i.wf = true ∧ w.extractLsb' 8 24 = 0
  | .token bits => i.isCommand = false ∧ (bits = [false] ∨ ∃ y, i = .hdrLeaf y ∧ bits.length = 10 ∧ bits.head? = some true)

theorem nop : Statement .nop := ⟨rfl, rfl, rfl⟩
theorem clear : Statement .clear := ⟨rfl, rfl, rfl⟩
theorem count : Statement .count := ⟨rfl, rfl, rfl⟩
theorem build : Statement .build := ⟨rfl, rfl, rfl⟩
theorem derive : Statement .derive := ⟨rfl, rfl, rfl⟩
theorem wrhdr : Statement .wrhdr := ⟨rfl, rfl, rfl⟩
theorem rdhdr : Statement .rdhdr := ⟨rfl, rfl, rfl⟩
theorem encode : Statement .encode := ⟨rfl, rfl, rfl⟩
theorem decode : Statement .decode := ⟨rfl, rfl, rfl⟩
theorem flush : Statement .flush := ⟨rfl, rfl, rfl⟩
theorem hdrInternal : Statement .hdrInternal := ⟨rfl, .inl rfl⟩
theorem hdrLeaf (sym : Sym) : Statement (.hdrLeaf sym) := ⟨rfl, .inr ⟨sym, rfl, by simp, rfl⟩⟩

end Sys2Proof.Laws.EncodingShape
end

