-- ==== Sys2Proof/Laws/Queue.lean ====
section
/-! SUPPORT. The priority structure of BUILD (R144): what `RemoveMin` can do, said once. -/

namespace Sys2Proof.Machine

/-- Every symbol with its own entry. -/
theorem symCounts_eq (freq : Vector Count 257) : symCounts freq = allSyms.map (fun k => (k, freq[k])) := by
  apply List.ext_getElem <;> simp [symCounts, allSyms]

/-- `LS` of R149, symbol by symbol. -/
theorem liveSyms_eq (freq : Vector Count 257) : liveSyms freq = allSyms.filter (fun k => freq[k] != 0) := by
  simp [liveSyms, symCounts_eq, List.filter_map, Function.comp_def]

/-- The count of R161, symbol by symbol. -/
theorem countEntries_eq (c : CodeTable) : c.countEntries = (allSyms.filter (fun k => c.entry[k])).length := by
  have h : c.entry.toList = allSyms.map (fun k => c.entry[k]) := by
    apply List.ext_getElem <;> simp [allSyms]
  simp [CodeTable.countEntries, h, List.filter_map]

/-- The key order of R144 as numbers. -/
theorem before_iff (a b : PqEntry) :
    a.before b = true ↔ a.w.toNat < b.w.toNat ∨ (a.w.toNat = b.w.toNat ∧ a.q < b.q) := by
  simp [PqEntry.before]

theorem before_trans {a b c : PqEntry} (h1 : a.before b = true) (h2 : b.before c = true) : a.before c = true := by
  rw [before_iff] at *
  omega

/-- Two entries of different sequence number are ordered (R144: the order is total). -/
theorem before_total {a b : PqEntry} (h : a.q ≠ b.q) (hn : a.before b = false) : b.before a = true := by
  have hn' : ¬ a.before b = true := by simp [hn]
  rw [before_iff] at *
  omega

theorem removeMin_none {l : List PqEntry} : removeMin l = none ↔ l = [] := by
  cases l with
  | nil => simp [removeMin]
  | cons e l =>
    simp only [removeMin, reduceCtorEq, iff_false]
    cases h : removeMin l with
    | none => simp
    | some p => cases hb : p.1.before e <;> simp [hb]

/-- `RemoveMin(PQ)` in full: the entry removed and the rest are the set, and nothing left comes before it (R144). -/
theorem removeMin_some {l r : List PqEntry} {m : PqEntry} (h : removeMin l = some (m, r)) :
    l.Perm (m :: r) ∧ ∀ e ∈ r, e.before m = false := by
  induction l generalizing m r with
  | nil => simp [removeMin] at h
  | cons e l ih =>
    rw [removeMin] at h
    cases hr : removeMin l with
    | none =>
      rw [hr] at h
      rw [removeMin_none] at hr
      simp only [Option.some.injEq, Prod.mk.injEq] at h
      obtain ⟨rfl, rfl⟩ := h
      subst hr
      exact ⟨List.Perm.refl _, by simp⟩
    | some p =>
      obtain ⟨m', r'⟩ := p
      obtain ⟨hp, hmin⟩ := ih hr
      rw [hr] at h
      cases hb : m'.before e with
      | true =>
        simp only [hb, if_true, Option.some.injEq, Prod.mk.injEq] at h
        obtain ⟨rfl, rfl⟩ := h
        refine ⟨(hp.cons e).trans (List.Perm.swap _ _ _), ?_⟩
        intro x hx
        rcases List.mem_cons.mp hx with rfl | hx
        · rw [← Bool.not_eq_true]
          rw [before_iff] at *
          omega
        · exact hmin x hx
      | false =>
        simp only [hb, Bool.false_eq_true, if_false, Option.some.injEq, Prod.mk.injEq] at h
        obtain ⟨rfl, rfl⟩ := h
        refine ⟨List.Perm.refl _, ?_⟩
        intro x hx
        rcases List.mem_cons.mp (hp.subset hx) with rfl | hx
        · exact hb
        · have hxm := hmin x hx
          rw [← Bool.not_eq_true] at *
          rw [before_iff] at *
          omega

theorem length_removeMin {l r : List PqEntry} {m : PqEntry} (h : removeMin l = some (m, r)) : l.length = r.length + 1 := by
  simpa using (removeMin_some h).1.length_eq

end Sys2Proof.Machine
end

