-- ==== Sys2Proof/Laws/Walks.lean ====
section
/-! SUPPORT. The walks over a held tree: WRHDR's, DERIVE's and DECODE's, each as a function of the tree alone. -/

namespace Sys2Proof.Machine

/-! ### WRHDR -/

/-- Bits appended to OUT and counted in CNT_OUT. -/
def appendOut (b : List Bool) (s : State) : State :=
  { s with
    out := { s.out with bits := s.out.bits ++ b }
    cnt := { s.cnt with cntOut := s.cnt.cntOut + BitVec.ofNat 64 b.length } }

theorem writeBits_eq (n v : Nat) (s : State) : writeBits n v s = appendOut (bitsOf n v) s := by
  simp [writeBits, appendOut]

theorem appendOut_append (a b : List Bool) (s : State) : appendOut b (appendOut a s) = appendOut (a ++ b) s := by
  simp [appendOut, BitVec.add_assoc, BitVec.ofNat_add]

/-- The header writer's walk of a held tree appends its header (R81, R171). -/
theorem ser_eq {node : Vector Node 513} {t : HTree} {i : NodeIdx} {fuel : Nat} (s : State) (h : holds node t i = true)
    (hf : t.size ≤ fuel) : ser node fuel i s = some (appendOut t.header s) := by
  induction t generalizing i fuel s with
  | leaf y =>
    obtain ⟨fuel, rfl⟩ : ∃ f, fuel = f + 1 := ⟨fuel - 1, by have := one_le_size (.leaf y); omega⟩
    obtain ⟨n, hn, hleaf, rfl⟩ := holds_leaf h
    simp only [ser, hn, hleaf, if_true, writeBits_eq, appendOut_append, HTree.header]
    rfl
  | node l r ihl ihr =>
    obtain ⟨fuel, rfl⟩ : ∃ f, fuel = f + 1 := ⟨fuel - 1, by have := one_le_size (.node l r); omega⟩
    obtain ⟨n, hn, hleaf, hl, hr⟩ := holds_node h
    simp only [HTree.size] at hf
    simp only [ser, hn, hleaf, Bool.false_eq_true, if_false, writeBits_eq]
    rw [ihl _ hl (by omega)]
    simp only
    rw [ihr _ hr (by omega)]
    simp only [appendOut_append, HTree.header]
    rfl

/-! ### DERIVE -/

/-- A leaf's code put in the table where its symbol has a nonzero count (R162). -/
def putPath (freq : Vector Count 257) (l : BitVec 9) (v : BitVec 256) (c : CodeTable) (p : List Bool × Sym) : CodeTable :=
  match symIdx p.2 with
  | none => c
  | some k =>
    if freq[k] != 0 then
      c.put k (l + BitVec.ofNat 9 p.1.length) (BitVec.ofNat 256 (v.toNat * 2 ^ p.1.length + valOf p.1))
    else c

theorem putPath_left (freq : Vector Count 257) (l : BitVec 9) (v : BitVec 256) (c : CodeTable) (p : List Bool × Sym) :
    putPath freq (l + 1) (v <<< 1) c p = putPath freq l v c (false :: p.1, p.2) := by
  have hl : l + 1 + BitVec.ofNat 9 p.1.length = l + BitVec.ofNat 9 (p.1.length + 1) := by
    apply BitVec.eq_of_toNat_eq
    simp only [BitVec.toNat_add, BitVec.toNat_ofNat]
    have h1 : (1 : BitVec 9).toNat = 1 := rfl
    omega
  have hv : BitVec.ofNat 256 ((v <<< 1).toNat * 2 ^ p.1.length + valOf p.1)
      = BitVec.ofNat 256 (v.toNat * 2 ^ (p.1.length + 1) + valOf (false :: p.1)) := by
    apply BitVec.eq_of_toNat_eq
    simp only [BitVec.toNat_ofNat, BitVec.toNat_shiftLeft, Nat.shiftLeft_eq, valOf_cons, Bool.toNat_false, Nat.zero_mul,
      Nat.zero_add, pow_one]
    rw [Nat.add_mod, Nat.mod_mul_mod, ← Nat.add_mod]
    ring_nf
  simp only [putPath, hl, hv, List.length_cons]

theorem putPath_right (freq : Vector Count 257) (l : BitVec 9) (v : BitVec 256) (c : CodeTable) (p : List Bool × Sym) :
    putPath freq (l + 1) ((v <<< 1) + 1) c p = putPath freq l v c (true :: p.1, p.2) := by
  have hl : l + 1 + BitVec.ofNat 9 p.1.length = l + BitVec.ofNat 9 (p.1.length + 1) := by
    apply BitVec.eq_of_toNat_eq
    simp only [BitVec.toNat_add, BitVec.toNat_ofNat]
    have h1 : (1 : BitVec 9).toNat = 1 := rfl
    omega
  have hv : BitVec.ofNat 256 (((v <<< 1) + 1).toNat * 2 ^ p.1.length + valOf p.1)
      = BitVec.ofNat 256 (v.toNat * 2 ^ (p.1.length + 1) + valOf (true :: p.1)) := by
    apply BitVec.eq_of_toNat_eq
    have h1 : (1 : BitVec 256).toNat = 1 := rfl
    simp only [BitVec.toNat_ofNat, BitVec.toNat_add, h1, BitVec.toNat_shiftLeft, Nat.shiftLeft_eq, valOf_cons,
      Bool.toNat_true, Nat.one_mul, pow_one, Nat.mod_add_mod]
    rw [Nat.add_mod, Nat.mod_mul_mod, ← Nat.add_mod]
    ring_nf
  simp only [putPath, hl, hv, List.length_cons]

/-- The deriver's walk of a held tree puts its paths, left to right (R161, R163). -/
theorem visit_eq {freq : Vector Count 257} {node : Vector Node 513} {t : HTree} {i : NodeIdx} {fuel : Nat} {l : BitVec 9}
    {v : BitVec 256} {c : CodeTable} (h : holds node t i = true) (hs : t.symsLegal = true) (hf : t.size ≤ fuel) :
    visit freq node fuel i l v c = some (t.paths.foldl (putPath freq l v) c) := by
  induction t generalizing i fuel l v c with
  | leaf y =>
    obtain ⟨fuel, rfl⟩ : ∃ f, fuel = f + 1 := ⟨fuel - 1, by have := one_le_size (.leaf y); omega⟩
    obtain ⟨n, hn, hleaf, rfl⟩ := holds_leaf h
    obtain ⟨k, hk, -⟩ := symIdx_of_legal (y := n.sym) (by simpa [HTree.symsLegal, HTree.leaves] using hs)
    cases hq : (freq[k] != 0)
    · simp only [visit, hn, hleaf, hk, HTree.paths, List.foldl_cons, List.foldl_nil, putPath, hq, if_true, Bool.false_eq_true,
        if_false]
    · simp only [visit, hn, hleaf, hk, HTree.paths, List.foldl_cons, List.foldl_nil, putPath, hq, if_true, List.length_nil,
        valOf_nil]
      simp
  | node lt rt ihl ihr =>
    obtain ⟨fuel, rfl⟩ : ∃ f, fuel = f + 1 := ⟨fuel - 1, by have := one_le_size (.node lt rt); omega⟩
    obtain ⟨n, hn, hleaf, hl, hr⟩ := holds_node h
    simp only [HTree.size] at hf
    have hs2 : lt.symsLegal = true ∧ rt.symsLegal = true := by
      simpa [HTree.symsLegal, HTree.leaves, List.all_append] using hs
    simp only [visit, hn, hleaf, Bool.false_eq_true, if_false]
    rw [ihl hl hs2.1 (by omega)]
    simp only
    rw [ihr hr hs2.2 (by omega)]
    simp only [HTree.paths, List.foldl_append, List.foldl_map]
    simp only [← putPath_left, ← putPath_right]

/-! ### DECODE -/

/-- A state after DECODE has consumed n bits and emitted data symbols. -/
def decoded (n : Nat) (ys : List Sym) (s : State) : State :=
  { s with
    inp := { s.inp with pos := s.inp.pos + BitVec.ofNat 64 n }
    out := { s.out with bits := s.out.bits ++ emitted ys }
    cnt := { s.cnt with
      cntIn := s.cnt.cntIn + BitVec.ofNat 64 n
      cntOut := s.cnt.cntOut + BitVec.ofNat 64 (8 * ys.length)
      cntSym := s.cnt.cntSym + BitVec.ofNat 64 ys.length } }

theorem decoded_zero (s : State) : decoded 0 [] s = s := by
  simp [decoded, emitted]

theorem decoded_consume (n : Nat) (ys : List Sym) (s : State) : decoded n ys (consumeIn 1 s) = decoded (n + 1) ys s := by
  simp only [decoded, consumeIn, BitVec.add_assoc, ← BitVec.ofNat_add, Nat.add_comm 1]

theorem decoded_emit (n : Nat) (y : Sym) (ys : List Sym) (s : State) :
    decoded n ys (countSym (writeBits 8 y.toNat s)) = decoded n (y :: ys) s := by
  have h1 : (1 : Ctr) = BitVec.ofNat 64 1 := rfl
  simp only [decoded, countSym, writeBits, emitted, List.flatMap_cons, List.append_assoc, BitVec.add_assoc, h1,
    ← BitVec.ofNat_add, List.length_cons, Nat.mul_add, Nat.mul_one, Nat.add_comm]

/-- What DECODE's loop answers where the decoder of trees (`descend`) ends so. -/
def decodeAnswer (s : State) (nbits : Nat) (r : List Sym × Option (List Bool)) : Ran :=
  match r.2 with
  | some rest =>
    .done { decoded (nbits - rest.length) r.1 s with flags := { s.flags with sent := true } }
  | none => .raised .payEos (decoded nbits r.1 s)

theorem length_descend {root cur : HTree} {bs rest : List Bool} {ys : List Sym} (h : descend root cur bs = (ys, some rest)) :
    rest.length < bs.length := by
  induction bs generalizing cur ys with
  | nil => cases cur <;> simp [descend] at h
  | cons b bs ih =>
    cases cur with
    | leaf y => simp [descend] at h
    | node l r =>
      simp only [descend] at h
      split at h
      case h_1 y hy =>
        split at h
        · simp only [Prod.mk.injEq, Option.some.injEq] at h
          simp [← h.2]
        · simp only [Prod.mk.injEq] at h
          have := ih (cur := root) (ys := (descend root root bs).1) (by rw [← h.2])
          simp; omega
      case h_2 l' r' hlr =>
        have := ih h
        simp; omega

/-- The decoder's loop on a held tree is the state machine on the tree (R211, R218). -/
theorem decodeLoop_eq {root cur : HTree} {ptr : NodeIdx} {s : State} {bs : List Bool} {fuel : Nat}
    (hl : s.inp.bits.length < 2 ^ 64) (hb : s.restIn = bs) (hf : bs.length < fuel)
    (hroot : holds s.node root s.tree.root = true) (hrn : ∃ l r, root = .node l r) (hcur : holds s.node cur ptr = true)
    (hcn : ∃ l r, cur = .node l r) : decodeLoop fuel ptr s = decodeAnswer s bs.length (descend root cur bs) := by
  induction bs generalizing cur ptr s fuel with
  | nil =>
    obtain ⟨fuel, rfl⟩ : ∃ f, fuel = f + 1 := ⟨fuel - 1, by omega⟩
    have hr : readBits 1 s = none := readBits_exhausted (by rw [← length_restIn, hb]; simp)
    obtain ⟨l, r, rfl⟩ := hcn
    simp [decodeLoop, hr, descend, decodeAnswer, decoded_zero]
  | cons b bs ih =>
    obtain ⟨fuel, rfl⟩ : ∃ f, fuel = f + 1 := ⟨fuel - 1, by omega⟩
    have hrem : 1 ≤ s.remaining := by rw [← length_restIn, hb]; simp
    have hr : readBits 1 s = some (BitVec.ofNat 1 b.toNat, consumeIn 1 s) := by
      rw [readBits_ok hrem, hb]; simp [valOf]
    have hb' : (consumeIn 1 s).restIn = bs := by rw [restIn_consumeIn hl hrem (by omega), hb]; rfl
    obtain ⟨l, r, rfl⟩ := hcn
    obtain ⟨n, hn, -, hlh, hrh⟩ := holds_node hcur
    have hchild : ∃ c : HTree, (if b then r else l) = c ∧
        holds s.node c (if BitVec.ofNat 1 b.toNat = 0 then n.left else n.right) = true := by
      cases b
      · exact ⟨l, rfl, hlh⟩
      · exact ⟨r, rfl, hrh⟩
    obtain ⟨c, hc, hch⟩ := hchild
    simp only [decodeLoop, hr, consumeIn_node, hn, descend, hc]
    cases c with
    | leaf y =>
      obtain ⟨m, hm, hleaf, rfl⟩ := holds_leaf hch
      simp only [hm, hleaf, if_true]
      by_cases hy : m.sym = sentinelSym
      · simp only [hy, if_true, decodeAnswer]
        rw [show (b :: bs).length - bs.length = 1 by simp]
        simp [decoded, emitted, consumeIn]
      · simp only [hy, if_false]
        rw [ih (cur := root) (ptr := (consumeIn 1 s).tree.root) (s := countSym (writeBits 8 m.sym.toNat (consumeIn 1 s)))
          (by simpa using hl) hb' (by simp at hf; omega) hroot hroot hrn]
        simp only [decodeAnswer]
        cases hd : (descend root root bs).2 with
        | none => simp [decoded_emit, decoded_consume]
        | some rest =>
          have := length_descend (root := root) (cur := root) (bs := bs) (rest := rest) (ys := (descend root root bs).1)
            (by rw [← hd])
          simp only [decoded_emit, decoded_consume, List.length_cons, countSym_flags, writeBits_flags, consumeIn_flags]
          rw [show bs.length + 1 - rest.length = bs.length - rest.length + 1 by omega]
    | node l' r' =>
      obtain ⟨m, hm, hleaf, -, -⟩ := holds_node hch
      simp only [hm, hleaf, Bool.false_eq_true, if_false]
      rw [ih (cur := .node l' r') (s := consumeIn 1 s) hl hb' (by simp at hf; omega) hroot hch ⟨l', r', rfl⟩]
      simp only [decodeAnswer]
      cases hd : (descend root (.node l' r') bs).2 with
      | none => simp [decoded_consume]
      | some rest =>
        have := length_descend (root := root) (cur := .node l' r') (bs := bs) (rest := rest)
          (ys := (descend root (.node l' r') bs).1) (by rw [← hd])
        simp only [decoded_consume, List.length_cons, consumeIn_flags]
        rw [show bs.length + 1 - rest.length = bs.length - rest.length + 1 by omega]

end Sys2Proof.Machine
end

