-- ==== Sys2Proof/Laws/Window.lean ====
section
/-! SUPPORT. The host register window (R62 to R64): the register at every address of an array window, and none at an unlisted
address. -/

namespace Sys2Proof.Machine

/-- No scalar register lies above 0x0014 but CMD (R62). -/
theorem scalarReg_none {n : Nat} (h : 0x0014 < n) (hc : n ≠ 0x0020) : scalarReg n = none := by
  unfold scalarReg
  split <;> first | rfl | omega

theorem windowIdx_some {size base a : Nat} {i : Fin size} (h : a = base + i.val) : windowIdx size base a = some i := by
  have := i.isLt
  subst h
  simp [windowIdx]

theorem windowIdx_none {size base a : Nat} (h : a < base ∨ base + size ≤ a) : windowIdx size base a = none :=
  dif_neg (by omega)

theorem toNat_addr {n : Nat} (h : n < 2 ^ 16) : (BitVec.ofNat 16 n : Addr).toNat = n := by
  rw [BitVec.toNat_ofNat]; omega

theorem regAt_freq (k : SymIdx) : regAt (BitVec.ofNat 16 (0x0100 + k.val)) = some (.freq k) := by
  unfold regAt
  dsimp only
  rw [toNat_addr (by omega), scalarReg_none (by omega) (by omega), windowIdx_some rfl]

theorem regAt_nodeLink (i : Fin 513) : regAt (BitVec.ofNat 16 (0x0400 + i.val)) = some (.nodeLink i) := by
  unfold regAt
  dsimp only
  rw [toNat_addr (by omega), scalarReg_none (by omega) (by omega), windowIdx_none (by omega), windowIdx_some rfl]

theorem regAt_nodeWLo (i : Fin 513) : regAt (BitVec.ofNat 16 (0x0800 + i.val)) = some (.nodeWLo i) := by
  unfold regAt
  dsimp only
  rw [toNat_addr (by omega), scalarReg_none (by omega) (by omega), windowIdx_none (by omega), windowIdx_none (by omega),
    windowIdx_some rfl]

theorem regAt_nodeWHi (i : Fin 513) : regAt (BitVec.ofNat 16 (0x0C00 + i.val)) = some (.nodeWHi i) := by
  unfold regAt
  dsimp only
  rw [toNat_addr (by omega), scalarReg_none (by omega) (by omega), windowIdx_none (by omega), windowIdx_none (by omega),
    windowIdx_none (by omega), windowIdx_some rfl]

theorem regAt_codeInfo (k : SymIdx) : regAt (BitVec.ofNat 16 (0x1000 + k.val)) = some (.codeInfo k) := by
  unfold regAt
  dsimp only
  rw [toNat_addr (by omega), scalarReg_none (by omega) (by omega), windowIdx_none (by omega), windowIdx_none (by omega),
    windowIdx_none (by omega), windowIdx_none (by omega), windowIdx_some rfl]

theorem regAt_codeWord (k : SymIdx) (j : Fin 8) :
    regAt (BitVec.ofNat 16 (0x2000 + 8 * k.val + j.val)) = some (.codeWord k j) := by
  have hi : windowIdx (8 * 257) 0x2000 (0x2000 + 8 * k.val + j.val) = some ⟨8 * k.val + j.val, by omega⟩ :=
    windowIdx_some (by simp only []; omega)
  unfold regAt
  dsimp only
  rw [toNat_addr (by omega), scalarReg_none (by omega) (by omega), windowIdx_none (by omega), windowIdx_none (by omega),
    windowIdx_none (by omega), windowIdx_none (by omega), windowIdx_none (by omega), hi]
  simp only [Option.some.injEq, WinReg.codeWord.injEq]
  exact ⟨Fin.ext (by simp only []; omega), Fin.ext (by simp only []; omega)⟩

/-- An address that R62 and R63 leave unlisted has no register (R64). -/
theorem regAt_unlisted {a : Addr} (h : unlisted a.toNat = true) : regAt a = none := by
  simp only [unlisted, Bool.or_eq_true, decide_eq_true_eq] at h
  unfold regAt
  dsimp only
  rw [scalarReg_none (by omega) (by omega), windowIdx_none (by omega), windowIdx_none (by omega), windowIdx_none (by omega),
    windowIdx_none (by omega), windowIdx_none (by omega), windowIdx_none (by omega)]

/-- While BUSY = 0 a read returns what the register at the address holds (R62, R63). -/
theorem readWindow_reg {s : State} {u : Word} {a : Addr} {r : WinReg} (hb : s.flags.busy = false) (h : regAt a = some r) :
    readWindow s u a = readReg s u r := by
  simp [readWindow, hb, h]

end Sys2Proof.Machine
end

