-- ==== Sys2Proof/Tests/Slice0.lean ====
section
/-! SUPPORT. Tests of the model against the vectors of spec/95_test_vectors.md, and the witnesses of the statements'
hypotheses. -/

namespace Sys2Proof.Tests

open Sys2Proof Sys2Proof.Machine

set_option Elab.async false

/-! ## Small states -/

/-- A machine right after reset with the vectors' example MAGIC and the given W_COUNT - 1. -/
def machine (w : Fin 32) : State := { State.reset with params := { magic := 0xFACE8201, wCountMinus1 := w } }

/-- The vectors' usual machine: W_COUNT = 32. -/
def demo : State := machine 31

/-- The same with bits on IN. -/
def fed (b : List Bool) : State := { demo with inp := { bits := b, pos := 0 } }

/-- A state with actions waiting at the host. -/
def asked (q : List HostAction) (s : State) : State := { s with host := { s.host with queue := q } }

/-- bytes(65, 65, 65, 66) of the vectors. -/
def aaab : List (BitVec 8) := [65, 65, 65, 66]

/-- M, the bits of the example MAGIC: 11111010 11001110 10000010 00000001. -/
def magicBits : List Bool := bitsOf 32 0xFACE8201

/-- The header bits of V-WH-1: 0 0 1001000010 1100000000 1001000001 = 0x242C0241. -/
def headerAaab : List Bool := bitsOf 32 0x242C0241

/-- The payload of V-AAAB: 1110001. -/
def payloadAaab : List Bool := [true, true, true, false, false, false, true]

/-- The stream of V-AAAB. -/
def streamAaab : List Bool := magicBits ++ headerAaab ++ payloadAaab

/-- The tree of V-BU-1. -/
def treeAaab : HTree := .node (.node (.leaf 66) (.leaf 256)) (.leaf 65)

/-- What V-CO-1 says COUNT leaves. -/
def counted : State :=
  { fed (bitsOfBytes aaab) with
    flags := { Flags.reset with done := true, freqValid := true }
    lastCmd := wordCount
    cnt := { Counters.zero with cntIn := 32, cntSym := 4 }
    inp := { bits := bitsOfBytes aaab, pos := 32 }
    freq := (((Vector.replicate 257 0).set 65 3).set 66 1).set 256 1 }

/-- What V-BU-1 says BUILD leaves. -/
def built : State :=
  { counted with
    flags := { Flags.reset with done := true, freqValid := true, treeValid := true }
    lastCmd := wordBuild
    cnt := Counters.zero
    tree := { root := 4, nodeCount := 5, leafCount := 3 }
    node := (((((Vector.replicate 513 (Node.mkInternal 0 0 0)).set 0 (Node.mkLeaf 65 3)).set 1 (Node.mkLeaf 66 1)).set 2
      (Node.mkLeaf 256 1)).set 3 (Node.mkInternal 2 1 2)).set 4 (Node.mkInternal 5 3 0) }

/-- What V-DV-1 says DERIVE leaves. -/
def derived : State :=
  { built with
    flags := { Flags.reset with done := true, freqValid := true, treeValid := true, codesValid := true }
    lastCmd := wordDerive
    cnt := { Counters.zero with cntSym := 3 }
    codes := ((built.codes.put 66 2 0).put 256 2 1).put 65 1 1 }

/-- The tree of V-RD-1, read from a stream whose payload is p. -/
def headerRead (p : List Bool) : State :=
  { fed (magicBits ++ headerAaab ++ p) with
    flags := { Flags.reset with done := true, treeValid := true, treeOrigin := true }
    lastCmd := wordRdhdr
    cnt := { Counters.zero with cntIn := 64 }
    tree := { root := 0, nodeCount := 5, leafCount := 3 }
    inp := { bits := magicBits ++ headerAaab ++ p, pos := 64 }
    node := (((((Vector.replicate 513 (Node.mkInternal 0 0 0)).set 0 (Node.mkInternal 0 1 4)).set 1
      (Node.mkInternal 0 2 3)).set 2 (Node.mkLeaf 66 0)).set 3 (Node.mkLeaf 256 0)).set 4 (Node.mkLeaf 65 0) }

/-- What V-RD-13 leaves: a header that is one leaf. -/
def leafRead : State :=
  { demo with
    flags := { Flags.reset with done := true, treeValid := true, treeOrigin := true }
    lastCmd := wordRdhdr
    tree := { root := 0, nodeCount := 1, leafCount := 1 }
    node := (Vector.replicate 513 (Node.mkInternal 0 0 0)).set 0 (Node.mkLeaf 256 0) }

/-- Inside a header read, with the given open nodes, NODE_COUNT and bits left on IN. -/
def midHeader (stack : List HdrFrame) (n : NodeIdx) (b : List Bool) : State :=
  { fed b with
    flags := { Flags.reset with busy := true }
    lastCmd := wordRdhdr
    tree := { root := 0, nodeCount := n, leafCount := 0 }
    hdrStack := some stack }

/-- What V-BU-10 leaves: ERR = 1. -/
def failed : State := turnedAway wordBuild .sequence demo

/-- The outcome is a next state of which p holds. -/
def ran (o : Host.Outcome State Fault Refusal) (p : State → Bool) : Bool :=
  match o with
  | .next t => p t
  | .fault _ => false
  | .refused _ => false

theorem exists_of_ran {o : Host.Outcome State Fault Refusal} {p : State → Bool} (h : ran o p = true) :
    ∃ t, o = .next t ∧ p t = true := by
  cases o with
  | next t => exact ⟨t, rfl, h⟩
  | fault f => simp [ran] at h
  | refused r => simp [ran] at h

/-! ## Well-formedness and decoding -/

theorem test_wf_refuses_symbol_257 : (Instr.hdrLeaf 257).wf = false := by decide
theorem test_wf_refuses_symbol_511 : (Instr.hdrLeaf 511).wf = false := by decide
theorem test_wf_takes_the_sentinel : (Instr.hdrLeaf 256).wf = true := by decide

theorem test_decode_nop : decodeCommand 0b00000000000000000000000000000000 = .ok .nop := by decide
theorem test_decode_clear : decodeCommand 0b00000000000000000000000000000001 = .ok .clear := by decide
theorem test_decode_count : decodeCommand 0b00000000000000000000000000000010 = .ok .count := by decide
theorem test_decode_build : decodeCommand 0b00000000000000000000000000000011 = .ok .build := by decide
theorem test_decode_derive : decodeCommand 0b00000000000000000000000000000100 = .ok .derive := by decide
theorem test_decode_wrhdr : decodeCommand 0b00000000000000000000000000000101 = .ok .wrhdr := by decide
theorem test_decode_rdhdr : decodeCommand 0b00000000000000000000000000000110 = .ok .rdhdr := by decide
theorem test_decode_encode : decodeCommand 0b00000000000000000000000000000111 = .ok .encode := by decide
theorem test_decode_decode : decodeCommand 0b00000000000000000000000000001000 = .ok .decode := by decide
theorem test_decode_flush : decodeCommand 0b00000000000000000000000000001001 = .ok .flush := by decide
theorem test_decode_hdrInternal : decodeToken [false, true] = .ok (.hdrInternal, [true]) := by decide
/-- 1 100000000 is the sentinel's leaf (V-WH-1). -/
theorem test_decode_hdrLeaf :
    decodeToken [true, true, false, false, false, false, false, false, false, false, true] = .ok (.hdrLeaf 256, [true]) := by
  decide
/-- OP = 0x0A (V-CT-4), and the RSV bits next to OP and at the top (V-CT-5, R93). -/
theorem test_decode_illegal :
    decodeCommand 0x0000000A = .error .illegalCommand ∧ decodeCommand 0x000000FF = .error .illegalCommand ∧
    decodeCommand 0x00000102 = .error .illegalCommand ∧ decodeCommand 0x80000001 = .error .illegalCommand := by decide
/-- R184: no bit at all, and a leaf flag with eight bits after it. -/
theorem test_decode_cut_tokens :
    decodeToken [] = .error .noToken ∧ decodeToken (true :: bitsOf 8 0) = .error .cutLeaf := by decide
/-- No two rows of the command table match one word (R96). -/
theorem test_opcode_rows_disjoint :
    opcodeTable.Pairwise (fun a b => a.mask &&& b.mask &&& (a.value ^^^ b.value) ≠ 0) := by decide
theorem test_table_words :
    decodeTableWord 32 9 = some .flush ∧ decodeTableWord 8 0 = some .hdrInternal ∧
    decodeTableWord 16 0x242 = some (.hdrLeaf 66) ∧ decodeTableWord 32 0x10A = none ∧ decodeTableWord 24 0 = none := by decide

/-! ## The instructions -/

/-- V-CT-1. -/
theorem test_nop : exec .nop counted = .next counted := rfl
/-- V-CT-3: STATUS = 0x00000002, LASTCMD = 0x00000001. -/
theorem test_clear : ran (exec .clear failed) (fun t => statusWord t == 0x00000002 && t.lastCmd == 0x00000001) = true := by
  decide +kernel
/-- V-CO-1: the frequencies, the counters and STATUS. -/
theorem test_count : ran (exec .count (fed (bitsOfBytes aaab))) (fun t => t.freq[65] == 3 && t.freq[66] == 1 &&
    t.freq[256] == 1 && t.cnt.cntSym == 4 && statusWord t == 0x0000000A) = true := by decide +kernel
/-- V-CO-6: with W_COUNT = 1 the second byte overflows; ERRPOS = 16. -/
theorem test_count_overflow :
    ran (exec .count { machine 0 with inp := { bits := bitsOfBytes [65, 65], pos := 0 } })
      (fun t => t.errs.code == 0x13 && t.errs.pos == 16 && t.cnt.cntSym == 1 && t.freq[65] == 1) = true := by decide +kernel
/-- V-BU-1: N4(5)[N3(2)[L1, L2], L0]. -/
theorem test_build : ran (exec .build counted) (fun t => t.tree == built.tree && t.node[4] == Node.mkInternal 5 3 0 &&
    t.node[3] == Node.mkInternal 2 1 2 && t.node[0] == Node.mkLeaf 65 3) = true := by decide +kernel
/-- V-BU-2: the padding leaf beside the sentinel of an empty input. -/
theorem test_build_padding :
    ran (exec .build { counted with freq := (Vector.replicate 257 0).set 256 1 })
      (fun t => t.tree == { root := 2, nodeCount := 3, leafCount := 2 } && t.node[0] == Node.mkLeaf 0 0 &&
        t.node[2] == Node.mkInternal 1 0 1) = true := by decide +kernel
/-- V-DV-1: 65 = "1", 66 = "00", 256 = "01". -/
theorem test_derive : ran (exec .derive built) (fun t => codeBits t.codes 65 == [true] &&
    codeBits t.codes 66 == [false, false] && codeBits t.codes 256 == [false, true] && t.cnt.cntSym == 3) = true := by
  decide +kernel
/-- V-DV-8: a tree read by RDHDR has no code; ERRPOS = 64. -/
theorem test_derive_sequence : ran (exec .derive (headerRead [])) (fun t => t.errs.code == 0x11 && t.errs.pos == 64) = true := by
  decide +kernel
/-- V-WH-1. -/
theorem test_wrhdr : ran (exec .wrhdr built) (fun t => t.out.bits == magicBits ++ headerAaab && t.cnt.cntOut == 64) = true := by
  decide +kernel
/-- V-WH-9. -/
theorem test_wrhdr_sequence : ran (exec .wrhdr demo) (fun t => t.errs.code == 0x11 && t.out.bits == []) = true := by
  decide +kernel
/-- V-RD-1: the nodes in preorder, STATUS = 0x00000032. -/
theorem test_rdhdr : ran (exec .rdhdr (fed streamAaab)) (fun t => t.node[0] == Node.mkInternal 0 1 4 &&
    t.node[4] == Node.mkLeaf 65 0 && t.tree == { root := 0, nodeCount := 5, leafCount := 3 } && t.inp.pos == 64 &&
    statusWord t == 0x00000032) = true := by decide +kernel
/-- V-RD-6: a leaf's symbol field cut at 20 header bits; ERRPOS = 45. -/
theorem test_rdhdr_cut : ran (exec .rdhdr (fed (streamAaab.take 52)))
    (fun t => t.errs.code == 0x03 && t.errs.pos == 45 && !t.flags.treeValid) = true := by decide +kernel
/-- V-EN-1, V-EN-4: IN is rewound. -/
theorem test_encode : ran (exec .encode derived)
    (fun t => t.out.bits == payloadAaab && t.cnt.cntSym == 4 && t.cnt.cntIn == 32) = true := by decide +kernel
/-- V-EN-2: byte 90 has no code and is skipped. -/
theorem test_encode_skips : ran (exec .encode { derived with inp := { bits := bitsOfBytes [65, 90, 66], pos := 0 } })
    (fun t => t.out.bits == [true, false, false, false, true] && t.cnt.cntSkip == 1 && t.cnt.cntSym == 2) = true := by
  decide +kernel
/-- V-DE-1. -/
theorem test_decode : ran (exec .decode (headerRead payloadAaab)) (fun t => t.out.bits == bitsOfBytes aaab &&
    statusWord t == 0x000000B2 && t.inp.pos == 71) = true := by decide +kernel
/-- V-DE-3: the sentinel's last bit is missing; ERRPOS = 70, and the four bytes stay on OUT. -/
theorem test_decode_truncated : ran (exec .decode (headerRead (payloadAaab.take 6)))
    (fun t => t.errs.code == 0x04 && t.errs.pos == 70 && t.out.bits == bitsOfBytes aaab) = true := by decide +kernel
/-- V-CT-9. -/
theorem test_flush : ran (exec .flush { demo with out := { bits := payloadAaab, closed := false } })
    (fun t => t.out == { bits := payloadAaab, closed := true } && t.flags.done) = true := by decide +kernel
theorem test_hdrInternal : ran (exec .hdrInternal (midHeader [] 0 [false]))
    (fun t => t.hdrStack == some [.wantLeft 0] && t.node[0] == Node.mkInternal 0 0 0 && t.tree.nodeCount == 1) = true := by
  decide +kernel
/-- V-RD-8: with 513 nodes made, the 514th flag is consumed and refused. -/
theorem test_hdrInternal_oversize : ran (exec .hdrInternal (midHeader [.wantLeft 512] 513 [false]))
    (fun t => t.errs.code == 0x06 && t.errs.pos == 1 && t.tree.nodeCount == 513) = true := by decide +kernel
/-- V-RD-13: a leaf as the root. -/
theorem test_hdrLeaf_root : ran (exec (.hdrLeaf 256) (midHeader [] 0 (true :: bitsOf 9 256)))
    (fun t => t.flags.treeValid && t.tree == { root := 0, nodeCount := 1, leafCount := 1 } &&
      t.node[0] == Node.mkLeaf 256 0 && t.hdrStack == none) = true := by decide +kernel
/-- V-RD-7: symbol 257. -/
theorem test_hdrLeaf_symbol : ran (exec (.hdrLeaf 257) (midHeader [.wantLeft 0] 1 (true :: bitsOf 9 257)))
    (fun t => t.errs.code == 0x05 && t.errs.pos == 10 && t.tree == { root := 0, nodeCount := 2, leafCount := 0 }) = true := by
  decide +kernel
/-- V-CT-5: ERRINFO = 0x00002310. -/
theorem test_illegal_word : ran (execIllegal 0x00000102 demo) (fun t => readWindow t 0 0x0002 == 0x00002310) = true := by
  decide +kernel
/-- V-CT-7: while ERR = 1 only the exact word 0x00000001 is CLEAR. -/
theorem test_illegal_word_discarded : ran (execIllegal 0x00000101 failed)
    (fun t => statusWord t == 0x00000004 && t.lastCmd == 0x00000003) = true := by decide +kernel

/-! ## The window and the step -/

/-- R63: NODE_LINK of V-RD-1's root, LEFT 1 and RIGHT 4 in bits 19..10, and of its last leaf, SYM 65 in bits 28..20. -/
theorem test_window_nodes : readWindow (headerRead []) 0 0x0400 = 0x00001001 ∧
    readWindow (headerRead []) 0 0x0404 = 0x84100000 := by decide +kernel
/-- R62: PARAMS = W_COUNT with NODE_CAP from bit 8, ID, MAGIC, and an unlisted address. -/
theorem test_window_constants : readWindow demo 0 0x0012 = 0x00020120 ∧ readWindow demo 0 0x0000 = 0x48554631 ∧
    readWindow demo 0 0x0011 = 0xFACE8201 ∧ readWindow demo 0xFFFFFFFF 0x0030 = 0 := by decide +kernel
/-- R40, R63: an invalid entry shows the free draw in its own bits only. -/
theorem test_window_unspec : readWindow demo 0xFFFFFFFF 0x0400 = 0x9FFFFFFF ∧
    readWindow demo 0xFFFFFFFF 0x1000 = 0x000001FF := by decide +kernel
theorem test_step_runs_a_command_word : ran (step (demo.withFetchWord 32 9))
    (fun t => t.out.closed && t.lastCmd == 0x00000009 && t.host.queue == []) = true := by decide +kernel
theorem test_step_runs_a_token : ran (step (demo.withFetchWord 16 0x300))
    (fun t => t.flags.treeValid && t.inp.pos == 10) = true := by decide +kernel

/-! ## Witnesses: states and operands that meet the hypotheses of each statement, at the edges of their ranges -/

theorem witness_DecodeOfEncodeIsTheInstruction : (Instr.hdrLeaf 0).wf = true ∧ (Instr.hdrLeaf 256).wf = true ∧
    Instr.hdrInternal.wf = true ∧ Instr.flush.wf = true := by decide

theorem witness_DecodedBitsAreTheEncoding : decodeCommand 9 = .ok .flush ∧
    decodeToken (true :: bitsOf 9 511) = .ok (.hdrLeaf 511, []) := by decide

/-- The lowest illegal OP, and the lowest word with RSV ≠ 0. -/
theorem witness_IllegalWordsRaise : demo.flags.err = false ∧ 0x0A ≤ ((0x0A : Word).extractLsb' 0 8).toNat ∧
    (0x100 : Word).extractLsb' 8 24 ≠ 0 := ⟨rfl, by decide, by decide⟩

theorem witness_StepRunsTheDecodedInstruction :
    (let s := asked [.memWrite 0x0020 9] demo
     s.flags.busy = false ∧ s.host.queue = .memWrite 0x0020 9 :: [] ∧ decodeCommand 9 = .ok .flush ∧
       decodeCommand 0x0A = .error .illegalCommand) ∧
    (let s := midHeader [] 0 (true :: bitsOf 9 256)
     s.flags.busy = true ∧ s.hdrStack = some [] ∧ s.host.queue = [] ∧ decodeToken s.restIn = .ok (.hdrLeaf 256, [])) := by
  decide +kernel

theorem witness_HeaderReaderRunsItsTokens :
    (let s := midHeader [.wantLeft 0] 1 [false, false]
     s.hdrStack = some [.wantLeft 0] ∧ s.inp.bits.length < 2 ^ 64 ∧ decodeToken s.restIn = .ok (.hdrInternal, [false])) := by
  decide +kernel

/-- With 32 bits left exactly, and with a whole stream. -/
theorem witness_RdhdrIsItsTurns :
    (∀ s ∈ [fed magicBits, fed streamAaab], s.flags.err = false ∧ 32 ≤ s.remaining ∧
      BitVec.ofNat 32 (valOf (s.restIn.take 32)) = s.params.magic) := by decide +kernel

theorem witness_CaptureWritesTheErrorState : demo.flags.done = false ∧ demo.flags.sent = false := by decide +kernel

/-- BUILD right after reset. -/
theorem witness_FailedCommandIsCaptured : Instr.build.isCommand = true ∧ demo.flags.err = false ∧
    ∃ t, exec .build demo = .next t ∧ t.flags.err = true :=
  ⟨rfl, rfl, exists_of_ran (by decide +kernel)⟩

theorem witness_CompletedCommandSetsDone : Instr.decode.isCommand = true ∧ Instr.decode ≠ .nop ∧
    ∃ t, exec .decode (headerRead payloadAaab) = .next t ∧ (!t.flags.err) = true :=
  ⟨rfl, by decide, exists_of_ran (by decide +kernel)⟩

/-- A command word, an illegal word and NOP (which is discarded too) waiting while ERR = 1. -/
theorem witness_DiscardedWhileErr : failed.flags.err = true ∧ (2 : Word) ≠ 1 ∧ decodeCommand 2 = .ok .count ∧
    (0 : Word) ≠ 1 ∧ decodeCommand 0 = .ok .nop ∧ (0x101 : Word) ≠ 1 ∧ decodeCommand 0x101 = .error .illegalCommand :=
  ⟨rfl, by decide, by decide, by decide, by decide, by decide, by decide⟩

/-- Right after reset, and with a tree read by RDHDR, whose origin DERIVE refuses. -/
theorem witness_SequenceChecks : demo.flags.err = false ∧ demo.flags.freqValid = false ∧ demo.flags.treeValid = false ∧
    demo.flags.codesValid = false ∧ (headerRead []).flags.err = false ∧ (headerRead []).flags.treeValid = true ∧
    (headerRead []).flags.treeOrigin = true := by decide +kernel

theorem witness_ClosedOutputChecks :
    (let s := { derived with out := { bits := [], closed := true } }
     s.flags.err = false ∧ s.out.closed = true ∧ s.flags.treeValid = true ∧ s.flags.codesValid = true) := by decide +kernel

theorem witness_FlushClosesOut : derived.flags.err = false ∧ derived.out.closed = false := by decide +kernel

/-- At a boundary, and inside a header read. -/
theorem witness_HardResetKeepsTheStreams : (asked [.reset] derived).host.queue = .reset :: [] ∧
    (asked [.reset] (midHeader [.wantLeft 0] 1 [])).host.queue = .reset :: [] := by decide +kernel

/-- No byte, and bytes with a fragment after them. -/
theorem witness_CountTalliesTheInput :
    (∀ p ∈ [(fed [], []), (fed (bitsOfBytes aaab ++ [true, false, true]), aaab)],
      p.1.flags.err = false ∧ p.1.inp.bits.length < 2 ^ 64 ∧ bytesOf p.1.restIn = p.2 ∧
        ∀ k, tally p.2 k ≤ 2 ^ p.1.params.wCount - 1) := by decide +kernel

/-- W_COUNT = 1: the second occurrence overflows. -/
theorem witness_CountOverflowRaises :
    (let s : State := { machine 0 with inp := { bits := bitsOfBytes [65, 65, 66], pos := 0 } }
     s.flags.err = false ∧ s.inp.bits.length < 2 ^ 64 ∧ bytesOf s.restIn = [65] ++ (65 : BitVec 8) :: [66] ∧
       (∀ k, tally [65] k ≤ 2 ^ s.params.wCount - 1) ∧ tally [65] (byteIdx 65) = 2 ^ s.params.wCount - 1) := by
  decide +kernel

/-- The hypotheses of the statements on BUILD's registers and leaves: `leaves` and L are what their equations say. -/
theorem witness_BuildMakesOneLeafPerSymbol :
    ∀ s ∈ [counted, { counted with freq := (Vector.replicate 257 0).set 256 1 }],
      s.flags.err = false ∧ s.flags.freqValid = true ∧ s.freq[sentinelIdx] ≠ 0 := by decide +kernel

/-- BUILD after COUNT, whose internal nodes are 3 and 4. -/
theorem witness_BuildMergesTheFirstTwo : counted.flags.err = false ∧ counted.flags.freqValid = true ∧
    counted.freq[sentinelIdx] ≠ 0 ∧ ∃ t, exec .build counted = .next t ∧
      (decide (t.tree.leafCount.toNat ≤ 3) && decide (4 < t.tree.nodeCount.toNat)) = true :=
  ⟨by decide +kernel, by decide +kernel, by decide +kernel, exists_of_ran (by decide +kernel)⟩

theorem witness_BuildWeightsAddUp : counted.flags.err = false ∧ counted.flags.freqValid = true ∧
    counted.freq[sentinelIdx] ≠ 0 ∧ ∃ t, exec .build counted = .next t ∧ ((entryAt t.node 4).w == 5) = true :=
  ⟨by decide +kernel, by decide +kernel, by decide +kernel, exists_of_ran (by decide +kernel)⟩

theorem witness_BuildMakesATree : counted.flags.err = false ∧ counted.flags.freqValid = true ∧
    counted.freq[sentinelIdx] ≠ 0 ∧ ∃ t, exec .build counted = .next t ∧ treeAt t treeAaab = true :=
  ⟨by decide +kernel, by decide +kernel, by decide +kernel, exists_of_ran (by decide +kernel)⟩

theorem witness_DeriveRecordsThePaths : built.flags.err = false ∧ built.flags.treeValid = true ∧
    built.flags.treeOrigin = false ∧ treeAt built treeAaab = true ∧ treeAaab.leaves.Nodup := by decide +kernel

/-- The invariants hold with a tree and its codes. -/
theorem derived_inv : Inv derived := by
  refine ⟨by decide +kernel, by decide +kernel, by decide +kernel, by decide +kernel, by decide +kernel, fun _ => ?_⟩
  exact ⟨treeAaab, by decide +kernel, fun _ => by decide, fun _ => by decide +kernel⟩

theorem witness_CodesArePrefixFree : Inv derived ∧ derived.flags.codesValid = true ∧ derived.codes.entry[66] = true ∧
    derived.codes.entry[256] = true :=
  ⟨derived_inv, by decide +kernel, by decide +kernel, by decide +kernel⟩

/-- A built tree, and a header that is one leaf. -/
theorem witness_WrhdrWritesMagicAndHeader :
    (∀ p ∈ [(built, treeAaab), (leafRead, .leaf 256)], p.1.flags.err = false ∧ p.1.flags.treeValid = true ∧
      p.1.out.closed = false ∧ treeAt p.1 p.2 = true) := by decide +kernel

theorem witness_RdhdrRebuildsTheTree : (fed streamAaab).flags.err = false ∧ (fed streamAaab).inp.bits.length < 2 ^ 64 ∧
    (fed streamAaab).restIn = bitsOf 32 (fed streamAaab).params.magic.toNat ++ (treeAaab.header ++ payloadAaab) ∧
    treeAaab.symsLegal = true ∧ treeAaab.size ≤ 513 := by decide +kernel

/-- 31 bits left, and 32 bits left that are not the magic (V-RD-3, V-RD-4). -/
theorem witness_RdhdrChecksTheMagic : (fed (magicBits.take 31)).flags.err = false ∧
    (fed (magicBits.take 31)).remaining < 32 ∧
    (let s := fed (false :: magicBits.drop 1)
     s.flags.err = false ∧ 32 ≤ s.remaining ∧ BitVec.ofNat 32 (valOf (s.restIn.take 32)) ≠ s.params.magic) := by
  decide +kernel

/-- IN holds the magic, the tokens and more bits; the tokens have legal symbols and do not end the header. -/
def openHeader (ts : List Instr) (more : List Bool) : Bool :=
  let s := fed (magicBits ++ (tokenBits ts ++ more))
  !s.flags.err && decide (s.inp.bits.length < 2 ^ 64) && goodTokens ts && decide (headerOpen 1 ts ≠ 0)
    && decide (s.restIn = bitsOf 32 s.params.magic.toNat ++ (tokenBits ts ++ more))

/-- The first n tokens of the right-leaning tree of V-RD-10 and V-RD-11: internal nodes and leaves in turn. -/
def leaning (n : Nat) : List Instr := (List.range n).map (fun k => if k % 2 = 0 then .hdrInternal else .hdrLeaf 0)

/-- Cut before the first flag (V-RD-5), 400 zero bits, and the longest cut headers; cut in a symbol before its first bit and
before its last (V-RD-6), in the root and in the last node that fits; and both cuts inside a header read, the arena with room for
one node more and full. -/
theorem witness_RdhdrRefusesACutHeader :
    (∀ ts ∈ [[], List.replicate 400 .hdrInternal, leaning 512, leaning 513], openHeader ts [] = true ∧ ts.length ≤ 513) ∧
    (∀ p ∈ [([], []), ([.hdrInternal, .hdrInternal, .hdrLeaf 66], [true, false, false, false, false, false, false, false]),
      (leaning 512, [])], openHeader p.1 (true :: p.2) = true ∧ p.1.length < 513 ∧ p.2.length < 9) ∧
    ∀ n ∈ [(512 : NodeIdx), 513],
      (∀ b ∈ [[], [true], true :: List.replicate 8 false], (let s := midHeader [.wantLeft 0] n b
        s.flags.busy = true ∧ s.hdrStack = some [.wantLeft 0] ∧ s.host.queue.length = 0 ∧ s.inp.bits.length < 2 ^ 64 ∧
          s.restIn = b)) := by decide +kernel

/-- V-RD-7: the lowest value that is no symbol, 257, with IN ended right after it, and with bits after it; and the highest in
the root's place and in the last node that fits. -/
theorem witness_RdhdrRefusesABadSymbol :
    ∀ p ∈ [([.hdrInternal], (257 : Sym), []), ([.hdrInternal], 257, [true]), ([], 511, []), (leaning 511, 511, [])],
      openHeader p.1 (true :: (bitsOf 9 p.2.1.toNat ++ p.2.2)) = true ∧ p.1.length < 513 ∧ 256 < p.2.1.toNat := by
  decide +kernel

/-- V-RD-8: zero bits only; and V-RD-11: 258 leaves, with the flag of the 514th node a leaf's and IN ended after it. -/
theorem witness_RdhdrRefusesABigHeader :
    ∀ p ∈ [(List.replicate 513 Instr.hdrInternal, false), (leaning 513, true)],
      openHeader p.1 (p.2 :: []) = true ∧ p.1.length = 513 := by decide +kernel

/-- Room for one more node, and none. -/
theorem witness_InternalTokenOpensANode : demo.hdrStack = none ∧
    (midHeader [] 512 []).hdrStack = some [] ∧ (512 : Fin 513).val = (midHeader [] 512 []).tree.nodeCount.toNat ∧
    513 ≤ (midHeader [] 513 []).tree.nodeCount.toNat := by decide +kernel

/-- Every form of stack: the root, right children up to the root, a left child with none and with two right children above it;
room and none; the sentinel and the lowest value that is no symbol. -/
theorem witness_LeafTokenClosesANode : demo.hdrStack = none ∧
    (∀ rights ∈ [[], [((0 : Fin 513), (1 : NodeIdx))], [(2, 3), (0, 1)]],
      (midHeader (rights.map (fun p => .wantRight p.1 p.2)) 512 []).hdrStack =
        some (rights.map (fun p => .wantRight p.1 p.2)) ∧
      (midHeader (rights.map (fun p => .wantRight p.1 p.2) ++ .wantLeft 4 :: [.wantRight 5 6]) 512 []).hdrStack =
        some (rights.map (fun p => .wantRight p.1 p.2) ++ .wantLeft 4 :: [.wantRight 5 6])) ∧
    (512 : Fin 513).val = (midHeader [] 512 []).tree.nodeCount.toNat ∧ (256 : Sym).toNat ≤ 256 ∧ 256 < (257 : Sym).toNat ∧
    (midHeader [] 512 []).tree.nodeCount.toNat < 513 ∧ 513 ≤ (midHeader [] 513 []).tree.nodeCount.toNat := by decide +kernel

theorem witness_AcceptedHeadersAreTrees : (fed streamAaab).flags.err = false ∧ (fed streamAaab).inp.bits.length < 2 ^ 64 ∧
    ∃ t, exec .rdhdr (fed streamAaab) = .next t ∧ (!t.flags.err) = true :=
  ⟨rfl, by decide +kernel, exists_of_ran (by decide +kernel)⟩

/-- The header written from the built tree, read by a machine with the same MAGIC; and a header read, to be written again. -/
theorem witness_HeaderFidelity : built.flags.err = false ∧ built.flags.treeValid = true ∧ built.out.closed = false ∧
    treeAt built treeAaab = true ∧ (fed streamAaab).params.magic = built.params.magic ∧ (fed streamAaab).out.closed = false ∧
    (∃ w, exec .wrhdr built = .next w ∧ (w.out.bits == magicBits ++ headerAaab) = true) ∧
    (fed streamAaab).restIn = (magicBits ++ headerAaab) ++ payloadAaab ∧
    ∃ v, exec .rdhdr (fed streamAaab) = .next v ∧ (!v.flags.err) = true :=
  ⟨by decide +kernel, by decide +kernel, by decide +kernel, by decide +kernel, by decide +kernel, by decide +kernel,
    exists_of_ran (by decide +kernel), by decide +kernel, exists_of_ran (by decide +kernel)⟩

theorem witness_EncodeWritesThePayload : derived.flags.err = false ∧ derived.flags.codesValid = true ∧
    derived.out.closed = false ∧ derived.inp.bits.length < 2 ^ 64 ∧ bytesOf derived.inp.bits = aaab := by decide +kernel

theorem witness_DecodeEndsAtTheSentinel :
    (let s := headerRead payloadAaab
     s.flags.err = false ∧ s.flags.treeValid = true ∧ s.out.closed = false ∧ s.inp.bits.length < 2 ^ 64 ∧
       treeAt s treeAaab = true ∧ descend treeAaab treeAaab s.restIn = ([65, 65, 65, 66], some [])) := by decide +kernel

/-- V-DE-3, and V-DE-9 with no bit at all. -/
theorem witness_DecodeRunsOutOfBits :
    (∀ p ∈ [(payloadAaab.take 6, [65, 65, 65, 66]), ([], ([] : List Sym))], (let s := headerRead p.1
      s.flags.err = false ∧ s.flags.treeValid = true ∧ s.out.closed = false ∧ s.inp.bits.length < 2 ^ 64 ∧
        s.inp.pos.toNat ≤ s.inp.bits.length ∧ treeAt s treeAaab = true ∧
        descend treeAaab treeAaab s.restIn = (p.2, none))) := by decide +kernel

/-- V-DE-4. -/
theorem witness_DecodeRefusesALeafRoot : leafRead.flags.err = false ∧ leafRead.flags.treeValid = true ∧
    leafRead.out.closed = false ∧ holds leafRead.node (.leaf 256) leafRead.tree.root = true := by decide +kernel

theorem witness_PayloadFidelity : codesFor derived.freq treeAaab derived.codes = true ∧
    (∀ b ∈ aaab, derived.codes.entry[byteIdx b] = true) ∧ derived.codes.entry[sentinelIdx] = true ∧
    bytesOf derived.inp.bits = aaab ∧ derived.flags.codesValid = true ∧ derived.out.closed = false ∧
    (headerRead payloadAaab).flags.treeValid = true ∧ treeAt (headerRead payloadAaab) treeAaab = true ∧
    (headerRead payloadAaab).restIn = payload derived.codes aaab ++ [] := by decide +kernel

/-- P1's input, and the machine of P2 with P1's stream. -/
theorem witness_RoundTrip :
    (let s := fed (bitsOfBytes aaab)
     s.flags.err = false ∧ s.inp = { bits := bitsOfBytes aaab, pos := 0 } ∧ s.out = { bits := [], closed := false } ∧
       8 * aaab.length < 2 ^ 64 ∧ (∀ k, tally aaab k ≤ 2 ^ s.params.wCount - 1) ∧
       (fed streamAaab).params.magic = s.params.magic) ∧
    (fed streamAaab).flags.err = false ∧ (fed streamAaab).inp = { bits := streamAaab, pos := 0 } ∧
    (fed streamAaab).out = { bits := [], closed := false } ∧ streamAaab.length < 2 ^ 64 := by decide +kernel

/-- Two machines with different W_COUNT, one of them after another call. -/
theorem witness_CompressionIsDeterministic :
    (let s := fed (bitsOfBytes aaab)
     let s' : State := { derived with params := { magic := 0xFACE8201, wCountMinus1 := 1 }, inp := s.inp }
     s.flags.err = false ∧ s'.flags.err = false ∧ s'.inp = s.inp ∧ s'.out = s.out ∧ s'.params.magic = s.params.magic ∧
       (∀ k, tally aaab k ≤ 2 ^ s.params.wCount - 1) ∧ ∀ k, tally aaab k ≤ 2 ^ s'.params.wCount - 1) := by decide +kernel

/-- P1 up to FLUSH leaves the stream of V-AAAB on OUT. -/
theorem witness_RoundTrip_stream : ran (execAll compressOpen (fed (bitsOfBytes aaab)))
    (fun w => w.out.bits == streamAaab) = true := by decide +kernel

/-- ENCODE waiting at a boundary, in a state with the invariants, and the next state its step answers: it meets the
hypotheses of every statement on every step (StepKeepsTheFlags, StepKeepsTheErrorRegisters, StepKeepsFreq, StepKeepsInPos,
StepKeepsParametersAndInput, StepOnlyAppendsToOut, StepKeepsTheInvariants). -/
theorem witness_StepKeepsTheInvariants :
    (let s := asked [.memWrite 0x0020 7] derived
     Inv s ∧ boundary s = true ∧ flagsInv s.flags = true ∧ errInv s = true ∧ freqInv s = true ∧ streamInv s.inp = true ∧
       (∀ q, s.host.queue ≠ .attachOut :: q) ∧ ∃ t, step s = .next t ∧ (t.out.bits == payloadAaab) = true) := by
  obtain ⟨h1, h2, h3, h4, h5, h6⟩ := derived_inv
  exact ⟨⟨h1, h2, h3, h4, h5, h6⟩, h1, h2, h3, h5, h4, by simp [asked], exists_of_ran (by decide +kernel)⟩

theorem witness_EveryCommandEnds : Instr.encode.isCommand = true ∧ Inv derived := ⟨rfl, derived_inv⟩

/-- A closed OUT, which DECODE refuses to write. -/
theorem witness_StepOnlyAppendsToOut :
    (let s := asked [.memWrite 0x0020 8] { derived with out := { bits := payloadAaab, closed := true } }
     s.out.closed = true ∧ (∀ q, s.host.queue ≠ .attachOut :: q) ∧ ∃ t, step s = .next t ∧ t.flags.err = true) :=
  ⟨rfl, by simp [asked], exists_of_ran (by decide +kernel)⟩

theorem exists_bits (n : Nat) : ∃ b : List Bool, b.length = n := ⟨List.replicate n false, List.length_replicate⟩

theorem step_attachIn_long {s : State} {b : List Bool} {q : List HostAction} (hb : s.flags.busy = false)
    (hq : s.host.queue = .attachIn b :: q) (hl : 2 ^ 64 ≤ b.length) : step s = .refused .inputTooLong := by
  have he : nextEvent s = .host (.attachIn b) (popHost s q) := by simp [nextEvent, hb, nextAtBoundary, hq]
  rw [step, he]
  exact if_neg (by omega)

/-- The one refusal with the invariants: an IN of 2^64 bits. -/
theorem witness_InvariantStatesNeverFault :
    Inv derived ∧ ∃ b : List Bool, b.length = 2 ^ 64 ∧ Inv (asked [.attachIn b] derived) ∧
      step (asked [.attachIn b] derived) = .refused .inputTooLong := by
  obtain ⟨b, hb⟩ := exists_bits (2 ^ 64)
  obtain ⟨h1, h2, h3, h4, h5, h6⟩ := derived_inv
  exact ⟨derived_inv, b, hb, ⟨h1, h2, h3, h4, h5, h6⟩, step_attachIn_long rfl rfl (by omega)⟩

/-- Two states that differ in entries no validity condition covers: the counts before COUNT. -/
theorem witness_UnspecReachesNoCommand :
    Inv demo ∧ Inv { demo with freq := Vector.replicate 257 1 } ∧ sameVisible demo { demo with freq := Vector.replicate 257 1 } ∧
    ∃ t, exec .count demo = .next t ∧ t.flags.freqValid = true := by
  refine ⟨⟨rfl, rfl, rfl, rfl, by decide +kernel, ?_⟩, ⟨rfl, rfl, rfl, rfl, by decide +kernel, ?_⟩, ⟨rfl, ?_, ?_, ?_⟩,
    exists_of_ran (by decide +kernel)⟩
  all_goals intro h; exact absurd (show false = true from h) (by simp)

theorem witness_InvalidEntriesDoNotShow : sameVisible demo { demo with freq := Vector.replicate 257 1 } :=
  witness_UnspecReachesNoCommand.2.2.1

/-- A tree's last node, the entries of a code table at both ends of the symbol range, and the unlisted ranges at both their ends
beside the listed addresses next to them. -/
theorem witness_ValidEntriesReadExactly : derived.flags.busy = false ∧ derived.flags.freqValid = true ∧
    derived.flags.treeValid = true ∧ (4 : Fin 513).val < derived.tree.nodeCount.toNat ∧ derived.flags.codesValid = true ∧
    derived.codes.entry[256] = true ∧ derived.codes.entry[0] = false ∧
    (∀ a ∈ [0x15, 0x1F, 0x21, 0xFF, 0x201, 0x3FF, 0x601, 0x7FF, 0xA01, 0xBFF, 0xE01, 0xFFF, 0x1101, 0x1FFF, 0x2808, 0xFFFF],
      unlisted a = true) ∧
    ∀ a ∈ [0x00, 0x14, 0x20, 0x100, 0x200, 0x400, 0x600, 0x800, 0xA00, 0xC00, 0xE00, 0x1000, 0x1100, 0x2000, 0x2807],
      unlisted a = false := by decide +kernel

theorem witness_HostAccessesHaveNoSideEffect : (asked [.memRead 0x0001] demo).host.queue = .memRead 0x0001 :: [] ∧
    (asked [.memWrite 0x0021 5] demo).host.queue = .memWrite 0x0021 5 :: [] ∧ (0x0021 : Addr) ≠ 0x0020 := by decide +kernel

/-- The longest IN that can be attached is one bit shorter than the shortest that cannot. -/
theorem witness_AttachReplacesTheStreams : demo.flags.busy = false ∧
    (∃ b : List Bool, b.length < 2 ^ 64 ∧ (asked [.attachIn b] demo).host.queue = .attachIn b :: []) ∧
    (∃ b : List Bool, 2 ^ 64 ≤ b.length ∧ (asked [.attachIn b] demo).host.queue = .attachIn b :: []) ∧
    (asked [.attachOut] demo).host.queue = .attachOut :: [] ∧ (asked [.readOut] demo).host.queue = .readOut :: [] := by
  obtain ⟨b, hb⟩ := exists_bits (2 ^ 64 - 1)
  obtain ⟨c, hc⟩ := exists_bits (2 ^ 64)
  exact ⟨rfl, ⟨b, by omega, rfl⟩, ⟨c, by omega, rfl⟩, rfl, rfl⟩

theorem witness_BusyHoldsTheHost :
    (let s := asked [.memWrite 0x0020 2] (midHeader [] 0 [false])
     s.flags.busy = true ∧ s.host.queue = .memWrite 0x0020 2 :: [] ∧ ∃ t, step s = .next t ∧ (t.hdrStack == some [.wantLeft 0]) = true) ∧
    (asked [.attachIn []] (midHeader [] 0 [])).host.queue = .attachIn [] :: [] ∧
    (asked [.attachOut] (midHeader [] 0 [])).host.queue = .attachOut :: [] ∧ (0x0000 : Addr) ≠ 0x0001 :=
  ⟨⟨rfl, rfl, exists_of_ran (by decide +kernel)⟩, rfl, rfl, by decide⟩

end Sys2Proof.Tests
end

section
/-! SUPPORT. What the body of each command can leave (R112, R114, R250): one inversion lemma per body, and from them what
every command keeps. -/

namespace Sys2Proof.Machine

/-! ### IN -/

/-- IN keeps its bits (R55), and its position stays a position of IN (R35). -/
structure InKept (p q : InPort) : Prop where
  bits : q.bits = p.bits
  pos : streamInv p = true → streamInv q = true

theorem InKept.refl (p : InPort) : InKept p p := ⟨rfl, id⟩

theorem InKept.trans {p q r : InPort} (h : InKept p q) (h' : InKept q r) : InKept p r :=
  ⟨h'.bits.trans h.bits, fun hp => h'.pos (h.pos hp)⟩

theorem inKept_consumeIn {n : Nat} {s : State} (h : n ≤ s.remaining) (hp : 0 < n) : InKept s.inp (consumeIn n s).inp :=
  ⟨rfl, fun hi => streamInv_consumeIn hi h hp⟩

theorem inKept_rewind (p : InPort) : InKept p { p with pos := 0 } :=
  ⟨rfl, fun h => by simp [streamInv] at h ⊢; exact h.2⟩

/-! ### How a body ends -/

/-- The state a body ends in meets `D` where it ran to its end, and `E` where it raised an error. -/
def Ran.Ends (D E : State → Prop) : Ran → Prop
  | .done t => D t
  | .raised _ t => E t
  | .broken _ => True

/-! ### WRHDR, ENCODE, DECODE: passes that move the streams and the counters only -/

/-- Nothing but IN's position, OUT and the counters differs. -/
def Streamed (s t : State) : Prop := ∃ i o c, t = { s with inp := i, out := o, cnt := c } ∧ InKept s.inp i

theorem Streamed.refl (s : State) : Streamed s s := ⟨_, _, _, rfl, .refl _⟩

section
variable {s t : State} (h : Streamed s t)
include h

theorem Streamed.consumeIn {n : Nat} (hr : n ≤ t.remaining) (hp : 0 < n) : Streamed s (consumeIn n t) := by
  obtain ⟨i, o, c, rfl, hi⟩ := h
  exact ⟨_, _, _, rfl, hi.trans (inKept_consumeIn hr hp)⟩

theorem Streamed.writeBits (n v : Nat) : Streamed s (writeBits n v t) := by
  obtain ⟨i, o, c, rfl, hi⟩ := h
  exact ⟨_, _, _, rfl, hi⟩

theorem Streamed.countSym : Streamed s (countSym t) := by
  obtain ⟨i, o, c, rfl, hi⟩ := h
  exact ⟨_, _, _, rfl, hi⟩

theorem Streamed.countSkip : Streamed s (countSkip t) := by
  obtain ⟨i, o, c, rfl, hi⟩ := h
  exact ⟨_, _, _, rfl, hi⟩

theorem encodeLoop_ends (fuel : Nat) : (encodeLoop fuel t).Ends (Streamed s) (Streamed s) := by
  induction fuel generalizing t with
  | zero => trivial
  | succ fuel ih =>
    rw [encodeLoop]
    cases hr : readBits 8 t with
    | none => exact h
    | some p =>
      obtain ⟨hn, -, ht⟩ := readBits_some (t := p.2) (v := p.1) hr
      have h1 : Streamed s p.2 := ht ▸ h.consumeIn hn (by decide)
      dsimp only
      split
      · exact ih (h1.writeBits _ _).countSym
      · exact ih h1.countSkip

/-- DECODE's loop besides sets SENT where it ends at the sentinel (R215). -/
theorem decodeLoop_ends (fuel : Nat) (ptr : NodeIdx) : (decodeLoop fuel ptr t).Ends
    (fun u => ∃ v, Streamed s v ∧ u = { v with flags := { v.flags with sent := true } }) (Streamed s) := by
  induction fuel generalizing t ptr with
  | zero => trivial
  | succ fuel ih =>
    rw [decodeLoop]
    cases hr : readBits 1 t with
    | none => exact h
    | some p =>
      obtain ⟨hn, -, ht⟩ := readBits_some (t := p.2) (v := p.1) hr
      have h1 : Streamed s p.2 := ht ▸ h.consumeIn hn (by decide)
      dsimp only
      split
      · trivial
      · split
        · trivial
        · split
          · split
            · exact ⟨p.2, h1, rfl⟩
            · exact ih (h1.writeBits _ _).countSym _
          · exact ih h1 _

theorem ser_streamed {node : Vector Node 513} {fuel : Nat} {i : NodeIdx} {u : State} (hs : ser node fuel i t = some u) :
    Streamed s u := by
  induction fuel generalizing t u i with
  | zero => simp [ser] at hs
  | succ fuel ih =>
    rw [ser] at hs
    split at hs
    case h_1 => simp at hs
    case h_2 n _ =>
      split at hs
      · simp only [Option.some.injEq] at hs
        exact hs ▸ (h.writeBits _ _).writeBits _ _
      · split at hs
        case h_1 => simp at hs
        case h_2 s1 hl => exact ih (ih (h.writeBits _ _) hl) hs

end

theorem encodeBody_ends (s : State) : (encodeBody s).Ends (Streamed s) (Streamed s) := by
  have h0 : Streamed s (inRewind s) := ⟨_, _, _, rfl, inKept_rewind _⟩
  have h := encodeLoop_ends h0 (s.inp.bits.length / 8 + 1)
  rw [encodeBody]
  cases hl : encodeLoop (s.inp.bits.length / 8 + 1) (inRewind s) with
  | done t => rw [hl] at h; exact Streamed.writeBits h _ _
  | raised e t => rw [hl] at h; exact h
  | broken f => trivial

theorem decodeBody_ends (s : State) : (decodeBody s).Ends
    (fun u => ∃ v, Streamed s v ∧ u = { v with flags := { v.flags with sent := true } }) (Streamed s) := by
  rw [decodeBody]
  split
  · trivial
  · split
    · exact .refl s
    · exact decodeLoop_ends (.refl s) _ _

theorem wrhdrBody_ends (s : State) : (wrhdrBody s).Ends (Streamed s) (Streamed s) := by
  rw [wrhdrBody]
  split
  · trivial
  · rename_i t hs
    exact ser_streamed ((Streamed.refl s).writeBits _ _) hs

/-! ### COUNT -/

/-- Every entry of the table fits W_COUNT bits (R28). -/
def freqBounded (p : Params) (f : Vector Count 257) : Prop := ∀ k : SymIdx, f[k].toNat ≤ 2 ^ p.wCount - 1

theorem toNat_maxCount (p : Params) : (maxCount p).toNat = 2 ^ p.wCount - 1 := by
  have hw : p.wCount ≤ 32 := by simp only [Params.wCount]; omega
  have hp : 2 ^ p.wCount ≤ 2 ^ 32 := Nat.pow_le_pow_right (by omega) hw
  rw [maxCount, BitVec.toNat_ofNat]
  omega

theorem one_le_maxCount (p : Params) : 1 ≤ 2 ^ p.wCount - 1 := by
  have : 2 ^ 1 ≤ 2 ^ p.wCount := Nat.pow_le_pow_right (by omega) (by simp [Params.wCount])
  omega

/-- `freqInv` as separate facts. -/
theorem freqInv_iff {s : State} : freqInv s = true ↔
    freqBounded s.params s.freq ∧ (s.flags.freqValid = true → s.freq[sentinelIdx] = 1) := by
  simp only [freqInv, freqBounded, allSyms, Bool.and_eq_true, List.all_eq_true, List.mem_finRange, true_implies,
    decide_eq_true_eq, Bool.or_eq_true, Bool.not_eq_true', beq_iff_eq, ← imp_iff_not_or, ← Bool.not_eq_true]

theorem freqBounded_set {p : Params} {f : Vector Count 257} {k : SymIdx} {v : Count} (h : freqBounded p f)
    (hv : v.toNat ≤ 2 ^ p.wCount - 1) : freqBounded p (f.set k v) := by
  intro j
  have hj := h j
  simp only [Fin.getElem_fin, Vector.getElem_set] at hj ⊢
  split
  · exact hv
  · exact hj

/-- An entry that is not full may be counted once more (R134). -/
theorem freqBounded_bump {p : Params} {f : Vector Count 257} {k : SymIdx} (h : freqBounded p f) (hk : f[k] ≠ maxCount p) :
    freqBounded p (f.set k (f[k] + 1)) := by
  refine freqBounded_set h ?_
  have hlt : f[k].toNat ≠ 2 ^ p.wCount - 1 := fun he => hk (BitVec.eq_of_toNat_eq (by rw [toNat_maxCount]; exact he))
  have hb := h k
  have hm := (maxCount p).isLt
  rw [toNat_maxCount] at hm
  have h1 : (1 : Count).toNat = 1 := rfl
  rw [BitVec.toNat_add, h1]
  omega

theorem freqBounded_zero (p : Params) : freqBounded p (Vector.replicate 257 0) := by
  intro k
  simp

/-- COUNT's pass: nothing but IN's position, FREQ and the counters differs, and FREQ keeps its width. -/
def Counted (s t : State) : Prop :=
  ∃ i f c, t = { s with inp := i, freq := f, cnt := c } ∧ InKept s.inp i ∧
    (freqBounded s.params s.freq → freqBounded s.params f)

theorem Counted.refl (s : State) : Counted s s := ⟨_, _, _, rfl, .refl _, id⟩

theorem countLoop_ends {s t : State} (h : Counted s t) (fuel : Nat) : (countLoop fuel t).Ends (Counted s) (Counted s) := by
  induction fuel generalizing t with
  | zero => trivial
  | succ fuel ih =>
    rw [countLoop]
    cases hr : readBits 8 t with
    | none => exact h
    | some p =>
      obtain ⟨hn, -, ht⟩ := readBits_some (t := p.2) (v := p.1) hr
      obtain ⟨i, f, c, rfl, hi, hf⟩ := h
      have hi1 := hi.trans (inKept_consumeIn hn (by decide))
      obtain ⟨r, t1⟩ := p
      subst ht
      dsimp only
      split
      · exact ⟨_, _, _, rfl, hi1, hf⟩
      · rename_i hne
        exact ih ⟨_, _, _, rfl, hi1, fun hs => freqBounded_bump (hf hs) hne⟩

theorem countBody_ends (s : State) : (countBody s).Ends
    (fun u => ∃ v, Counted (zeroFreq (startCall s)) v ∧ u = finishCount v) (Counted (zeroFreq (startCall s))) := by
  have h := countLoop_ends (.refl (zeroFreq (startCall s))) (s.remaining / 8 + 1)
  rw [countBody]
  cases hl : countLoop (s.remaining / 8 + 1) (zeroFreq (startCall s)) with
  | done t => rw [hl] at h; exact ⟨t, h, rfl⟩
  | raised e t => rw [hl] at h; exact h
  | broken f => trivial

/-! ### BUILD and DERIVE -/

/-- BUILD writes the arena, the tree registers and its flags. -/
theorem buildBody_ends (s : State) : (buildBody s).Ends
    (fun u => ∃ nd tr, u = { s with
      node := nd, tree := tr, flags := { s.flags with treeValid := true, treeOrigin := false, codesValid := false } })
    (fun _ => False) := by
  unfold buildBody
  dsimp only
  split
  · exact ⟨_, _, rfl⟩
  · trivial

/-- DERIVE writes the code table, CNT_SYM and its flag. -/
theorem deriveBody_ends (s : State) : (deriveBody s).Ends
    (fun u => ∃ c n, u = { s with codes := c, cnt := n, flags := { s.flags with codesValid := true } }) (fun _ => False) := by
  unfold deriveBody
  split
  · trivial
  · exact ⟨_, _, rfl⟩

/-! ### RDHDR and the header tokens -/

/-- A header read so far: IN's position, the counters, the tree registers, the arena and the stack may differ. -/
def Reading (s t : State) : Prop :=
  ∃ i c tr nd st, t = { s with inp := i, cnt := c, tree := tr, node := nd, hdrStack := st } ∧ InKept s.inp i

/-- A header read to its end: the stack is gone and the tree is marked as read (R183). -/
def HeaderRead (s t : State) : Prop :=
  ∃ i c tr nd, t = { s with
    inp := i, cnt := c, tree := tr, node := nd, hdrStack := none
    flags := { s.flags with treeValid := true, treeOrigin := true } } ∧ InKept s.inp i

/-- A header read that goes on, or has ended. -/
def ReadOn (s t : State) : Prop := (Reading s t ∧ t.hdrStack ≠ none) ∨ HeaderRead s t

theorem Reading.refl (s : State) : Reading s s := ⟨_, _, _, _, _, rfl, .refl _⟩

theorem HeaderRead.stack_none {s t : State} (h : HeaderRead s t) : t.hdrStack = none := by
  obtain ⟨i, c, tr, nd, rfl, -⟩ := h
  rfl

theorem Reading.consumeIn {s t : State} {n : Nat} (h : Reading s t) (hr : n ≤ t.remaining) (hp : 0 < n) :
    Reading s (consumeIn n t) := by
  obtain ⟨i, c, tr, nd, st, rfl, hi⟩ := h
  exact ⟨_, _, _, _, _, rfl, hi.trans (inKept_consumeIn hr hp)⟩

/-- What the reader writes into the arena and the tree registers is within `Reading`. -/
theorem Reading.write {s t : State} (h : Reading s t) (tr : TreeRegs) (nd : Vector Node 513) (st : Option (List HdrFrame)) :
    Reading s { t with tree := tr, node := nd, hdrStack := st } := by
  obtain ⟨i, c, tr, nd, st, rfl, hi⟩ := h
  exact ⟨_, _, _, _, _, rfl, hi⟩

theorem Reading.alloc {s t u : State} {i : Fin 513} (h : Reading s t) (ha : allocNode t = some (i, u)) : Reading s u := by
  rw [allocNode] at ha
  split at ha
  · simp only [Option.some.injEq, Prod.mk.injEq] at ha
    exact ha.2 ▸ h.write _ _ _
  · simp at ha

theorem returnChild_readOn {s t : State} (h : Reading s t) (stack : List HdrFrame) (c : NodeIdx) :
    ReadOn s (returnChild stack c t) := by
  induction stack generalizing c t with
  | nil =>
    obtain ⟨i, n, tr, nd, st, rfl, hi⟩ := h
    exact .inr ⟨_, _, _, _, rfl, hi⟩
  | cons f stack ih =>
    cases f with
    | wantLeft i => exact .inl ⟨h.write t.tree t.node _, by simp [returnChild]⟩
    | wantRight i l => exact ih (h.write t.tree _ t.hdrStack) (nodeIdx i)

theorem openInternal_readOn {s t : State} (h : Reading s t) (stack : List HdrFrame) (i : Fin 513) :
    ReadOn s (openInternal stack i t) :=
  .inl ⟨h.write t.tree _ _, by simp [openInternal]⟩

theorem closeLeaf_readOn {s t : State} (h : Reading s t) (stack : List HdrFrame) (i : Fin 513) (y : Sym) :
    ReadOn s (closeLeaf stack i y t) :=
  returnChild_readOn (h.write _ _ t.hdrStack) stack _

theorem desToken_ends {s t : State} (h : Reading s t) (stack : List HdrFrame) :
    (desToken stack t).Ends (ReadOn s) (Reading s) := by
  rw [desToken]
  cases hr : readBits 1 t with
  | none => exact h
  | some p =>
    obtain ⟨hn, -, ht⟩ := readBits_some (t := p.2) (v := p.1) hr
    have h1 : Reading s p.2 := ht ▸ h.consumeIn hn (by decide)
    dsimp only
    cases ha : allocNode p.2 with
    | none => exact h1
    | some q =>
      have h2 : Reading s q.2 := h1.alloc ha
      dsimp only
      split
      · exact openInternal_readOn h2 _ _
      · cases hr9 : readBits 9 q.2 with
        | none => exact h2
        | some z =>
          obtain ⟨hn9, -, hz⟩ := readBits_some (t := z.2) (v := z.1) hr9
          have h3 : Reading s z.2 := hz ▸ h2.consumeIn hn9 (by decide)
          dsimp only
          split
          · exact closeLeaf_readOn h3 _ _ _
          · exact h3

theorem headerLoop_ends {s t : State} (h : ReadOn s t) (fuel : Nat) :
    (headerLoop fuel t).Ends (HeaderRead s) (Reading s) := by
  induction fuel generalizing t with
  | zero => trivial
  | succ fuel ih =>
    rw [headerLoop]
    rcases h with ⟨h, hs⟩ | h
    · cases hst : t.hdrStack with
      | none => exact absurd hst hs
      | some stack =>
        have hd := desToken_ends h stack
        dsimp only
        cases hdt : desToken stack t with
        | done u => rw [hdt] at hd; exact ih hd
        | raised e u => rw [hdt] at hd; exact hd
        | broken f => trivial
    · rw [h.stack_none]
      exact h

theorem rdhdrBody_ends (s : State) : (rdhdrBody s).Ends (HeaderRead (startCall s)) (Reading (startCall s)) := by
  have h0 := Reading.refl (startCall s)
  rw [rdhdrBody]
  cases hr : readBits 32 (startCall s) with
  | none => exact h0
  | some p =>
    obtain ⟨hn, -, ht⟩ := readBits_some (t := p.2) (v := p.1) hr
    have h1 : Reading (startCall s) p.2 := ht ▸ h0.consumeIn hn (by decide)
    dsimp only
    split
    · exact h1
    · exact headerLoop_ends (.inl ⟨h1.write p.2.tree p.2.node _, by simp⟩) _

/-- What a step inside a header read that answers a next state has done: the token read so far, or the whole token. -/
theorem settle_next {r : Ran} {D E : State → Prop} {t : State} (h : r.Ends D E) (hn : r.settle = .next t) :
    (∃ e u, E u ∧ t = raise e u) ∨ ∃ u, D u ∧ t = settleHeader u := by
  cases r with
  | done u => exact .inr ⟨u, h, by simpa [Ran.settle] using hn.symm⟩
  | raised e u => exact .inl ⟨e, u, h, by simpa [Ran.settle] using hn.symm⟩
  | broken f => simp [Ran.settle] at hn

end Sys2Proof.Machine
end

section
/-! SUPPORT. What a command, and a step, that answers a next state can have done: each said once, for every command and for
every event. -/

namespace Sys2Proof.Machine

/-! ### The bodies, command by command -/

/-- The body each command runs (R112). NOP and the tokens run none. -/
def bodyOf : Instr → State → Ran
  | .clear => fun s => .done (returnToReset s)
  | .flush => fun s => .done (outClose s)
  | .count => countBody
  | .build => buildBody
  | .derive => deriveBody
  | .wrhdr => wrhdrBody
  | .rdhdr => rdhdrBody
  | .encode => encodeBody
  | .decode => decodeBody
  | .nop => .done
  | .hdrInternal => .done
  | .hdrLeaf _ => .done

/-- Every command but NOP runs its body by `runCommand` on its own word (R112). -/
theorem exec_eq {i : Instr} (hi : i.isCommand = true) (hn : i ≠ .nop) :
    ∃ w, encode i = .command w ∧ (w = wordClear ↔ i = .clear) ∧
      ∀ s, exec i s = runCommand w (precondition i) (bodyOf i) s := by
  cases i
  case nop => exact absurd rfl hn
  case hdrInternal => simp [Instr.isCommand] at hi
  case hdrLeaf => simp [Instr.isCommand] at hi
  case clear => exact ⟨_, rfl, by decide, exec_clear⟩
  case flush => exact ⟨_, rfl, by decide, exec_flush⟩
  case count => exact ⟨_, rfl, by decide, exec_count⟩
  case build => exact ⟨_, rfl, by decide, exec_build⟩
  case derive => exact ⟨_, rfl, by decide, exec_derive⟩
  case wrhdr => exact ⟨_, rfl, by decide, exec_wrhdr⟩
  case rdhdr => exact ⟨_, rfl, by decide, exec_rdhdr⟩
  case encode => exact ⟨_, rfl, by decide, exec_encode⟩
  case decode => exact ⟨_, rfl, by decide, exec_decode⟩

/-- The flags a body leaves where it runs to its end. -/
def flagsAfter (f : Flags) : Instr → Flags
  | .clear => { f.dropValid with err := false }
  | .count => { f.dropValid with freqValid := true }
  | .build => { f with treeValid := true, treeOrigin := false, codesValid := false }
  | .derive => { f with codesValid := true }
  | .rdhdr => { f.dropValid with treeValid := true, treeOrigin := true }
  | .decode => { f with sent := true }
  | .nop => f
  | .wrhdr => f
  | .encode => f
  | .flush => f
  | .hdrInternal => f
  | .hdrLeaf _ => f

/-- Only CLEAR writes ERR. -/
theorem flagsAfter_err (f : Flags) (i : Instr) : (flagsAfter f i).err = (f.err && i != .clear) := by
  cases i <;> simp [flagsAfter]

/-- What no body changes, however it ends. -/
structure Kept (s u : State) : Prop where
  lastCmd : u.lastCmd = s.lastCmd
  params : u.params = s.params
  inp : InKept s.inp u.inp
  freq : freqInv s = true → freqInv u = true

/-- A body that has run to its end. -/
structure Done (i : Instr) (s u : State) : Prop extends Kept s u where
  flags : u.flags = flagsAfter s.flags i
  errs : u.errs = if i = .clear then ErrRegs.none else s.errs
  stack : s.hdrStack = none → u.hdrStack = none

/-- A body that has raised an error: DONE and SENT are as they were. -/
structure Raised (s u : State) : Prop extends Kept s u where
  done : u.flags.done = s.flags.done
  sent : u.flags.sent = s.flags.sent

theorem Kept.refl (s : State) : Kept s s := ⟨rfl, rfl, .refl _, id⟩

theorem Streamed.kept {s u : State} (h : Streamed s u) : Kept s u := by
  obtain ⟨i, o, c, rfl, hi⟩ := h
  exact ⟨rfl, rfl, hi, id⟩

theorem Streamed.raised {s u : State} (h : Streamed s u) : Raised s u := by
  refine ⟨h.kept, ?_, ?_⟩ <;> obtain ⟨i, o, c, rfl, -⟩ := h <;> rfl

theorem Streamed.done {s u : State} {i : Instr} (h : Streamed s u) (hc : i ≠ .clear) (hf : flagsAfter s.flags i = s.flags) :
    Done i s u := by
  refine ⟨h.kept, ?_, ?_, ?_⟩ <;> obtain ⟨i, o, c, rfl, -⟩ := h
  · exact hf.symm
  · rw [if_neg hc]
  · exact id

/-- A pass over the bytes that has not ended leaves no complete table (R131). -/
theorem Counted.raised {s u : State} (h : Counted (zeroFreq (startCall s)) u) : Raised s u := by
  obtain ⟨i, f, c, rfl, hi, hf⟩ := h
  refine ⟨⟨rfl, rfl, hi, fun _ => freqInv_iff.mpr ⟨hf (freqBounded_zero _), fun h => ?_⟩⟩, rfl, rfl⟩
  exact (Bool.false_ne_true h).elim

theorem Counted.done {s v : State} (h : Counted (zeroFreq (startCall s)) v) : Done .count s (finishCount v) := by
  obtain ⟨i, f, c, rfl, hi, hf⟩ := h
  refine ⟨⟨rfl, rfl, hi, fun _ => freqInv_iff.mpr ⟨?_, fun _ => ?_⟩⟩, rfl, rfl, id⟩
  · exact freqBounded_set (hf (freqBounded_zero _)) (one_le_maxCount _)
  · simp

theorem Reading.raised {s u : State} (h : Reading (startCall s) u) : Raised s u := by
  obtain ⟨i, c, tr, nd, st, rfl, hi⟩ := h
  refine ⟨⟨rfl, rfl, hi, fun hf => freqInv_iff.mpr ⟨(freqInv_iff.mp hf).1, fun h => ?_⟩⟩, rfl, rfl⟩
  exact (Bool.false_ne_true h).elim

theorem HeaderRead.done {s u : State} (h : HeaderRead (startCall s) u) : Done .rdhdr s u := by
  obtain ⟨i, c, tr, nd, rfl, hi⟩ := h
  refine ⟨⟨rfl, rfl, hi, fun hf => freqInv_iff.mpr ⟨(freqInv_iff.mp hf).1, fun h => ?_⟩⟩, rfl, rfl, fun _ => rfl⟩
  exact (Bool.false_ne_true h).elim

/-- FREQ left unspecified still has W_COUNT bits (R28, log 5). -/
theorem freqBounded_forgetArrays (s : State) : freqBounded s.params (forgetArrays s).freq := by
  intro k
  simp only [forgetArrays_freq, Fin.getElem_fin, Vector.getElem_map, BitVec.toNat_and, toNat_maxCount]
  exact Nat.and_le_right

theorem returnToReset_done (s : State) : Done .clear s (returnToReset s) :=
  ⟨⟨rfl, rfl, .refl _, fun _ => freqInv_iff.mpr ⟨freqBounded_forgetArrays s, fun h => by simp at h⟩⟩, rfl, rfl, id⟩

theorem Ran.Ends.mono {D D' E E' : State → Prop} {r : Ran} (h : r.Ends D E) (hd : ∀ u, D u → D' u) (he : ∀ u, E u → E' u) :
    r.Ends D' E' := by
  cases r with
  | done t => exact hd t h
  | raised e t => exact he t h
  | broken f => trivial

/-- How the body of every command ends. -/
theorem bodyOf_ends (i : Instr) (s : State) : (bodyOf i s).Ends (Done i s) (Raised s) := by
  cases i
  case clear => exact returnToReset_done s
  case count =>
    refine (countBody_ends s).mono ?_ fun _ => Counted.raised
    rintro _ ⟨v, hv, rfl⟩
    exact hv.done
  case build =>
    refine (buildBody_ends s).mono ?_ fun _ => False.elim
    rintro _ ⟨nd, tr, rfl⟩
    exact ⟨⟨rfl, rfl, .refl _, id⟩, rfl, rfl, id⟩
  case derive =>
    refine (deriveBody_ends s).mono ?_ fun _ => False.elim
    rintro _ ⟨c, n, rfl⟩
    exact ⟨⟨rfl, rfl, .refl _, id⟩, rfl, rfl, id⟩
  case wrhdr => exact (wrhdrBody_ends s).mono (fun _ h => h.done (by decide) rfl) fun _ => Streamed.raised
  case rdhdr => exact (rdhdrBody_ends s).mono (fun _ => HeaderRead.done) fun _ => Reading.raised
  case encode => exact (encodeBody_ends s).mono (fun _ h => h.done (by decide) rfl) fun _ => Streamed.raised
  case decode =>
    refine (decodeBody_ends s).mono ?_ fun _ => Streamed.raised
    rintro _ ⟨v, ⟨i, o, c, rfl, hi⟩, rfl⟩
    exact ⟨⟨rfl, rfl, hi, id⟩, rfl, rfl, id⟩
  all_goals exact ⟨⟨rfl, rfl, .refl _, id⟩, rfl, rfl, id⟩

/-- What a command that answers a next state has done: nothing, being NOP (R115) or discarded (R111), or failed (R250), or
completed (R114). -/
theorem exec_next {i : Instr} {s t : State} (hi : i.isCommand = true) (h : exec i s = .next t) :
    ∃ w, encode i = .command w ∧
      (((s.flags.err = true ∨ i = .nop) ∧ t = s) ∨
       (s.flags.err = false ∧ ∃ e u, Raised (prologue w s) u ∧ t = raise e u) ∨
       ((s.flags.err = false ∨ i = .clear) ∧ precondition i (prologue w s) = none ∧
         ∃ u, bodyOf i (prologue w s) = .done u ∧ Done i (prologue w s) u ∧ t = complete u)) := by
  by_cases hn : i = .nop
  · subst hn
    exact ⟨_, rfl, .inl ⟨.inr rfl, by simpa [exec_nop] using h.symm⟩⟩
  obtain ⟨w, hw, hc, hx⟩ := exec_eq hi hn
  refine ⟨w, hw, ?_⟩
  have hb := bodyOf_ends i (prologue w s)
  have hend := runCommand_next ((hx s).symm.trans h)
  by_cases hd : s.flags.err = true ∧ i ≠ .clear
  · rw [exec_discarded hi hd.2 hd.1] at h
    exact .inl ⟨.inl hd.1, by simpa using h.symm⟩
  have herr : s.flags.err = false ∨ i = .clear := by
    rw [← Bool.not_eq_true]
    exact (not_and_or.mp hd).imp_right not_not.mp
  rcases hend with ⟨he, hne, -⟩ | ⟨e, he, rfl⟩ | ⟨e, u, -, hu, rfl⟩ | ⟨u, hp, hu, rfl⟩
  · exact absurd ⟨he, fun h => hne (hc.mpr h)⟩ hd
  · refine .inr (.inl ⟨herr.resolve_right ?_, e, _, ⟨.refl _, rfl, rfl⟩, rfl⟩)
    rintro rfl
    simp [precondition] at he
  · rw [hu] at hb
    refine .inr (.inl ⟨herr.resolve_right ?_, e, u, hb, rfl⟩)
    rintro rfl
    simp [bodyOf] at hu
  · rw [hu] at hb
    exact .inr (.inr ⟨herr, hp, u, hu, hb, rfl⟩)

/-- An illegal word is discarded, or raises E_ILLEGAL_CMD (R93, R111). -/
theorem execIllegal_next {w : Word} {s t : State} (h : execIllegal w s = .next t) :
    t = s ∨ (s.flags.err = false ∧ t = raise .illegalCmd (prologue w s)) := by
  rw [execIllegal] at h
  cases he : s.flags.err <;> simp [he] at h
  · exact .inr ⟨rfl, h.symm⟩
  · exact .inl h.symm

theorem isCommand_of_decode {w : Word} {i : Instr} (h : decodeCommand w = .ok i) : i.isCommand = true := by
  rw [decodeCommand_eq] at h
  repeat' split at h
  all_goals simp at h
  all_goals subst h; rfl

/-! ### The step, event by event -/

/-- What a step that answers a next state has done. -/
inductive Stepped (s t : State) : Prop where
  | idle (h : t = s)
  | command (i : Instr) (q : List HostAction) (hi : i.isCommand = true) (h : exec i (popHost s q) = .next t)
  | illegal (w : Word) (q : List HostAction) (h : execIllegal w (popHost s q) = .next t)
  | host (a : HostAction) (q : List HostAction) (hq : s.host.queue = a :: q) (h : hostAct a (popHost s q) = .next t)
  | failedToken (hb : s.flags.busy = true) (e : ErrCode) (u : State) (hu : Reading s u) (h : t = raise e u)
  | token (hb : s.flags.busy = true) (u : State) (hu : ReadOn s u) (h : t = settleHeader u)

/-- The bits of a whole token are there to be consumed (R81). -/
theorem remaining_of_decodeToken {s : State} {i : Instr} {rest : List Bool} (h : decodeToken s.restIn = .ok (i, rest)) :
    i = .hdrInternal ∧ 1 ≤ s.remaining ∨ (∃ y, i = .hdrLeaf y) ∧ 10 ≤ s.remaining := by
  rw [← length_restIn]
  match hb : s.restIn, h with
  | false :: bs, h =>
    simp only [decodeToken, Except.ok.injEq, Prod.mk.injEq] at h
    exact .inl ⟨h.1.symm, by simp⟩
  | true :: bs, h =>
    rw [decodeToken] at h
    split at h
    · simp at h
    · simp only [Except.ok.injEq, Prod.mk.injEq] at h
      exact .inr ⟨⟨_, h.1.symm⟩, by simp; omega⟩

theorem settleHeader_openInternal (stack : List HdrFrame) (i : Fin 513) (s : State) :
    settleHeader (openInternal stack i s) = openInternal stack i s := rfl

/-- What the meaning of a whole token that stands next on IN has done. -/
theorem execToken_next {s t : State} {i : Instr} {rest : List Bool} (hd : decodeToken s.restIn = .ok (i, rest))
    (h : exec i s = .next t) :
    (∃ e u, Reading s u ∧ t = raise e u) ∨ ∃ u, ReadOn s u ∧ t = settleHeader u := by
  rcases remaining_of_decodeToken hd with ⟨rfl, hr⟩ | ⟨⟨y, rfl⟩, hr⟩
  · have h1 := (Reading.refl s).consumeIn hr (by decide)
    simp only [exec, execHdrInternal] at h
    split at h
    · simp at h
    · split at h <;> simp only [Host.Outcome.next.injEq] at h
      · exact .inl ⟨_, _, h1, h.symm⟩
      · rename_i stack _ _ k u ha
        exact .inr ⟨_, openInternal_readOn (h1.alloc ha) stack k, by rw [settleHeader_openInternal, h]⟩
  · have h1 := (Reading.refl s).consumeIn (n := 1) (by omega) (by decide)
    have h10 : Reading s (consumeIn 10 s) := (Reading.refl s).consumeIn hr (by decide)
    simp only [exec, execHdrLeaf] at h
    split at h
    · simp at h
    · split at h
      · simp only [Host.Outcome.next.injEq] at h
        exact .inl ⟨_, _, h1, h.symm⟩
      · rename_i stack _ _ k u ha
        have hu : Reading s (consumeIn 9 u) := by
          rw [allocNode] at ha
          split at ha <;> simp only [Option.some.injEq, Prod.mk.injEq, reduceCtorEq] at ha
          have := h10.write { s.tree with nodeCount := s.tree.nodeCount + 1 } s.node s.hdrStack
          rw [← ha.2]
          simpa only [consumeIn, BitVec.add_assoc, ofNat_add_ofNat] using this
        split at h <;> simp only [Host.Outcome.next.injEq] at h
        · exact .inr ⟨_, closeLeaf_readOn hu stack k y, h.symm⟩
        · exact .inl ⟨_, _, hu, h.symm⟩

/-- The header reader's turn while BUSY = 1. -/
theorem stepped_of_turn {s t : State} (hb : s.flags.busy = true) (he : nextEvent s = nextToken s) (h : step s = .next t) :
    Stepped s t := by
  have key : (∃ e u, Reading s u ∧ t = raise e u) ∨ ∃ u, ReadOn s u ∧ t = settleHeader u := by
    rcases step_turn he with ⟨i, rest, stack, -, hd, hx⟩ | ⟨e, stack, hst, -, hx⟩ | ⟨-, hx⟩ <;> rw [hx] at h
    · exact execToken_next hd h
    · simp only [readHeaderToken, hst] at h
      exact settle_next (desToken_ends (.refl s) stack) h
    · simp at h
  rcases key with ⟨e, u, hu, rfl⟩ | ⟨u, hu, rfl⟩
  · exact .failedToken hb e u hu rfl
  · exact .token hb u hu rfl

theorem step_next {s t : State} (h : step s = .next t) : Stepped s t := by
  cases hb : s.flags.busy with
  | false =>
    rcases step_boundary hb with ⟨-, hx⟩ | ⟨w, q, i, -, hd, hx⟩ | ⟨w, q, e, -, -, hx⟩ | ⟨a, q, hq, -, hx⟩ <;>
      rw [hx] at h
    · exact .idle (by simpa using h.symm)
    · exact .command i q (isCommand_of_decode hd) h
    · exact .illegal w q h
    · exact .host a q hq h
  | true =>
    rcases step_busy hb with he | ⟨a, q, hq, -, -, -, -, hx⟩ | hx
    · exact stepped_of_turn hb he h
    · exact .host a q hq (hx.symm.trans h)
    · rw [hx] at h; simp at h

/-! ### What every step carries over -/

/-- The parameters (R34) and IN's bits stay, and the invariants of the error registers (R250), FREQ (R28) and IN (R35) carry
over. -/
structure Carried (s t : State) : Prop where
  params : t.params = s.params
  inp : InKept s.inp t.inp
  errs : errInv s = true → errInv t = true
  freq : freqInv s = true → freqInv t = true

theorem Carried.refl (s : State) : Carried s s := ⟨rfl, .refl _, id, id⟩

/-- The capture writes consistent error registers (R250). -/
theorem errInv_raise (e : ErrCode) (s : State) : errInv (raise e s) = true := by
  cases e <;> simp [errInv, allErrCodes]

theorem freqInv_raise {e : ErrCode} {s : State} (h : freqInv s = true) : freqInv (raise e s) = true :=
  freqInv_iff.mpr ⟨(freqInv_iff.mp h).1, fun hv => by simp at hv⟩

theorem errInv_of_noErr {s : State} (h : s.flags.err = false) : errInv s = true ↔ s.errs = ErrRegs.none := by
  simp [errInv, h]

theorem exec_carried {i : Instr} {s t : State} (hi : i.isCommand = true) (h : exec i s = .next t) : Carried s t := by
  obtain ⟨w, -, ⟨-, rfl⟩ | ⟨-, e, u, hu, rfl⟩ | ⟨he, -, u, -, hu, rfl⟩⟩ := exec_next hi h
  · exact .refl t
  · exact ⟨hu.params, hu.inp, fun _ => errInv_raise e u, fun hf => freqInv_raise (hu.freq hf)⟩
  · refine ⟨hu.params, hu.inp, fun hs => ?_, hu.freq⟩
    have hue : u.flags.err = false := by
      rw [hu.flags, flagsAfter_err]
      rcases he with he | rfl
      · simp [he]
      · simp
    refine (errInv_of_noErr (s := complete u) hue).mpr (hu.errs.trans ?_)
    rcases he with he | rfl
    · split
      · rfl
      · exact (errInv_of_noErr he).mp hs
    · rfl

theorem ReadOn.carried {s u : State} (h : ReadOn s u) : Carried s (settleHeader u) := by
  rcases h with ⟨⟨i, c, tr, nd, st, rfl, hi⟩, hst⟩ | ⟨i, c, tr, nd, rfl, hi⟩
  · cases st with
    | none => exact absurd rfl hst
    | some stack => exact ⟨rfl, hi, id, id⟩
  · exact ⟨rfl, hi, id, id⟩

/-- What a host action can do: reset the machine, change OUT, the host's side and the draws, or replace IN (R280). -/
theorem hostAct_next {a : HostAction} {s t : State} (h : hostAct a s = .next t) :
    t = hardReset s ∨ (∃ o p d, t = { s with out := o, host := p, draws := d }) ∨
      ∃ b, a = .attachIn b ∧ b.length < 2 ^ 64 ∧ t = { s with inp := { bits := b, pos := 0 } } := by
  cases a <;> simp only [hostAct, Host.Outcome.next.injEq] at h
  case reset => exact .inl h.symm
  case attachIn b =>
    split at h <;> simp only [Host.Outcome.next.injEq, reduceCtorEq] at h
    exact .inr (.inr ⟨b, rfl, ‹_›, h.symm⟩)
  all_goals exact .inr (.inl ⟨_, _, _, h.symm⟩)

theorem hardReset_carried (s : State) : Carried s (hardReset s) :=
  ⟨rfl, .refl _, fun _ => rfl, fun _ => freqInv_iff.mpr
    ⟨freqBounded_forgetArrays s, fun h => (Bool.false_ne_true h).elim⟩⟩

/-- Every step carries these over, but that AttachIn replaces IN. -/
theorem step_carried {s t : State} (h : step s = .next t) :
    Carried s t ∨ ∃ b q, s.host.queue = .attachIn b :: q ∧ b.length < 2 ^ 64 ∧
      t = { popHost s q with inp := { bits := b, pos := 0 } } := by
  have hpop : ∀ q, Carried (popHost s q) t → Carried s t := fun q h => ⟨h.params, h.inp, h.errs, h.freq⟩
  cases step_next h with
  | idle h => exact .inl (h ▸ .refl s)
  | command i q hi h => exact .inl (hpop q (exec_carried hi h))
  | illegal w q h =>
    rcases execIllegal_next h with rfl | ⟨-, rfl⟩
    · exact .inl (hpop q (.refl _))
    · exact .inl ⟨rfl, .refl _, fun _ => errInv_raise _ _, fun hf => freqInv_raise hf⟩
  | host a q hq h =>
    rcases hostAct_next h with rfl | ⟨o, p, d, rfl⟩ | ⟨b, rfl, hb, rfl⟩
    · exact .inl (hpop q (hardReset_carried _))
    · exact .inl ⟨rfl, .refl _, id, id⟩
    · exact .inr ⟨b, q, hq, hb, rfl⟩
  | failedToken hb e u hu h =>
    subst h
    obtain ⟨i, c, tr, nd, st, rfl, hi⟩ := hu
    exact .inl ⟨rfl, hi, fun _ => errInv_raise _ _, fun hf => freqInv_raise hf⟩
  | token hb u hu h => exact .inl (h ▸ hu.carried)

/-! ### The flags -/

/-- `flagsInv` as separate facts: R38 (a) to (d), and R22's of DONE and SENT. -/
theorem flagsInv_iff {f : Flags} : flagsInv f = true ↔
    (f.treeValid = true → f.treeOrigin = false → f.freqValid = true) ∧
    (f.codesValid = true → f.treeValid = true ∧ f.treeOrigin = false) ∧
    (f.err = true → f.freqValid = false ∧ f.treeValid = false ∧ f.codesValid = false) ∧
    (f.treeOrigin = true → f.treeValid = true) ∧ (f.err = true → f.done = false) ∧ (f.sent = true → f.done = true) := by
  obtain ⟨busy, done, err, freqValid, treeValid, treeOrigin, codesValid, sent⟩ := f
  decide +revert

/-- Completion keeps the relations of R38 (a) to (d), each command's check having held (R113, R114): a tree is built over a
complete table only, and codes are made over a built tree only. -/
theorem flagsInv_complete {i : Instr} {w : Word} {s : State} (hf : flagsInv s.flags = true)
    (he : s.flags.err = false ∨ i = .clear) (hp : precondition i (prologue w s) = none) :
    flagsInv { flagsAfter (prologue w s).flags i with done := true, busy := false } = true := by
  rw [flagsInv_iff] at hf ⊢
  obtain ⟨ha, hb, hc, hd, -, -⟩ := hf
  cases i <;> simp_all [flagsAfter, precondition, Flags.dropValid]

theorem flagsInv_raise {e : ErrCode} {s : State} (hd : s.flags.done = false) (hs : s.flags.sent = false) :
    flagsInv (raise e s).flags = true := by
  simp [flagsInv, hd, hs]

/-- No command is in progress, spelt out. -/
theorem boundary_iff {s : State} : boundary s = true ↔ s.flags.busy = false ∧ s.hdrStack = none := by
  simp [boundary]

/-- A command from a boundary ends at one, with the flags in their relations. -/
theorem exec_flags {i : Instr} {s t : State} (hi : i.isCommand = true) (hb : boundary s = true) (hf : flagsInv s.flags = true)
    (h : exec i s = .next t) : boundary t = true ∧ flagsInv t.flags = true := by
  obtain ⟨w, -, ⟨-, rfl⟩ | ⟨-, e, u, hu, rfl⟩ | ⟨he, hp, u, -, hu, rfl⟩⟩ := exec_next hi h
  · exact ⟨hb, hf⟩
  · exact ⟨rfl, flagsInv_raise hu.done hu.sent⟩
  · refine ⟨boundary_iff.mpr ⟨rfl, hu.stack (boundary_iff.mp hb).2⟩, ?_⟩
    rw [complete_flags, hu.flags]
    exact flagsInv_complete hf he hp

end Sys2Proof.Machine

open Sys2Proof Sys2Proof.Machine

/-- Settles O45: each event from a boundary keeps the relations, a command by its completion or its capture. -/
theorem stepKeepsTheFlags : Obligations.StepKeepsTheFlags := by
  intro s t hb hf h
  have hbusy := (boundary_iff.mp hb).1
  cases step_next h with
  | idle h => exact h ▸ ⟨hb, hf⟩
  | command i q hi h => exact exec_flags hi (s := popHost s q) hb hf h
  | illegal w q h =>
    rcases execIllegal_next h with rfl | ⟨-, rfl⟩
    · exact ⟨hb, hf⟩
    · exact ⟨rfl, flagsInv_raise rfl rfl⟩
  | host a q hq h =>
    rcases hostAct_next h with rfl | ⟨o, p, d, rfl⟩ | ⟨b, -, -, rfl⟩
    · exact ⟨rfl, rfl⟩
    · exact ⟨hb, hf⟩
    · exact ⟨hb, hf⟩
  | failedToken hb' => rw [hbusy] at hb'; exact absurd hb' (by decide)
  | token hb' => rw [hbusy] at hb'; exact absurd hb' (by decide)

/-- Settles O46: the error registers are written by the capture and cleared by CLEAR and reset only. -/
theorem stepKeepsTheErrorRegisters : Obligations.StepKeepsTheErrorRegisters := by
  intro s t he h
  rcases step_carried h with hc | ⟨b, q, -, -, rfl⟩
  · exact hc.errs he
  · exact he

/-- Settles O47: FREQ is written by COUNT, CLEAR and reset only. -/
theorem stepKeepsFreq : Obligations.StepKeepsFreq := by
  intro s t _ hf h
  rcases step_carried h with hc | ⟨b, q, -, -, rfl⟩
  · exact hc.freq hf
  · exact hf

/-- Settles O48: a read consumes bits that are there, and AttachIn and a rewind put the position at 0. -/
theorem stepKeepsInPos : Obligations.StepKeepsInPos := by
  intro s t hi h
  rcases step_carried h with hc | ⟨b, q, -, hb, rfl⟩
  · exact hc.inp.pos hi
  · simpa [streamInv] using hb

/-- Settles O49: no event but AttachIn writes either. -/
theorem stepKeepsParametersAndInput : Obligations.StepKeepsParametersAndInput := by
  intro s t h
  rcases step_carried h with hc | ⟨b, q, hq, -, rfl⟩
  · exact ⟨hc.params, .inl hc.inp.bits⟩
  · exact ⟨rfl, .inr ⟨b, q, hq, rfl⟩⟩

/-- Settles O10: a command that ends without error has completed, and only DECODE's body sets SENT. -/
theorem completedCommandSetsDone : Obligations.CompletedCommandSetsDone := by
  intro i s t hi hn h he
  obtain ⟨w, hw, ⟨hs, rfl⟩ | ⟨-, e, u, -, rfl⟩ | ⟨-, -, u, -, hu, rfl⟩⟩ := exec_next hi h
  · rw [hs.resolve_right hn] at he; exact absurd he (by decide)
  · exact absurd he (by simp)
  · refine ⟨rfl, rfl, by rw [hw, complete_lastCmd, hu.lastCmd]; rfl, ?_⟩
    rw [complete_flags, hu.flags]
    cases i <;> simp [flagsAfter, Flags.dropValid]

/-- Settles O17, field by field. -/
theorem resetState : Obligations.ResetState := ⟨rfl, rfl, rfl, rfl, rfl, rfl, rfl, rfl, rfl⟩

/-- Settles O44: FREQ is all zero, and no valid flag is set. -/
theorem resetMeetsTheInvariants : Obligations.ResetMeetsTheInvariants := by
  refine ⟨rfl, rfl, rfl, rfl, freqInv_iff.mpr ⟨freqBounded_zero _, fun h => ?_⟩, fun h => ?_⟩
  all_goals exact (Bool.false_ne_true h).elim

end

section
/-! SUPPORT. States that differ in invalid array entries only (R40): how two such states look, and that no read tells them
apart. -/

namespace Sys2Proof.Machine

/-- Two states that differ in the three arrays only. -/
def SameScalars (s t : State) : Prop := ∃ f n c, t = { s with freq := f, node := n, codes := c }

/-- Two code tables with the same entries, each holding the same code. -/
def CodesAgree (c d : CodeTable) : Prop :=
  c.entry = d.entry ∧ ∀ k : SymIdx, c.entry[k] = true → c.len[k] = d.len[k] ∧ c.val[k] = d.val[k]

/-- Two arenas with the same entries below n. -/
def NodesAgree (n : Nat) (a b : Vector Node 513) : Prop := ∀ i : Fin 513, i.val < n → a[i] = b[i]

/-- `sameVisible` as separate facts. -/
theorem sameVisible_iff {s t : State} : sameVisible s t ↔
    SameScalars s t ∧ (s.flags.freqValid = true → s.freq = t.freq) ∧
    (s.flags.treeValid = true → NodesAgree s.tree.nodeCount.toNat s.node t.node) ∧
    (s.flags.codesValid = true → CodesAgree s.codes t.codes) := by
  refine and_congr_left fun _ => ⟨fun h => ⟨_, _, _, h.symm⟩, ?_⟩
  rintro ⟨f, n, c, rfl⟩
  rfl

/-- Without a valid flag the arrays do not matter. -/
theorem sameVisible_of_invalid {s t : State} (h : SameScalars s t) (hf : s.flags.freqValid = false)
    (ht : s.flags.treeValid = false) (hc : s.flags.codesValid = false) : sameVisible s t :=
  sameVisible_iff.mpr ⟨h, by simp [hf], by simp [ht], by simp [hc]⟩

theorem readReg_sameVisible {s t : State} (h : sameVisible s t) (u : Word) (r : WinReg) : readReg s u r = readReg t u r := by
  obtain ⟨⟨f, n, c, rfl⟩, hf, hn, hc⟩ := sameVisible_iff.mp h
  have hnode : ∀ i : Fin 513, nodeReadable s i = true → s.node[i] = n[i] := by
    intro i hi
    simp only [nodeReadable, Bool.and_eq_true, decide_eq_true_eq] at hi
    exact hn hi.1 i hi.2
  have hcode : ∀ k, codeReadable s k = codeReadable { s with freq := f, node := n, codes := c } k := by
    intro k
    cases hv : s.flags.codesValid with
    | false => simp [codeReadable, hv]
    | true => simp [codeReadable, hv, (hc hv).1]
  have hlv : ∀ k, codeReadable s k = true → s.codes.len[k] = c.len[k] ∧ s.codes.val[k] = c.val[k] := by
    intro k hk
    simp only [codeReadable, Bool.and_eq_true] at hk
    exact (hc hk.1).2 k hk.2
  cases r
  case freq k =>
    simp only [readReg]
    split
    · rename_i hv
      rw [hf hv]
    · rfl
  case nodeLink i => exact ite_congr rfl (fun hv => by rw [hnode i hv]) fun _ => rfl
  case nodeWLo i => exact ite_congr rfl (fun hv => by rw [hnode i hv]) fun _ => rfl
  case nodeWHi i => exact ite_congr rfl (fun hv => by rw [hnode i hv]) fun _ => rfl
  case codeInfo k =>
    simp only [readReg, ← hcode k]
    exact ite_congr rfl (fun hv => by rw [(hlv k hv).1]) fun _ => rfl
  case codeWord k j =>
    simp only [readReg, ← hcode k]
    exact ite_congr rfl (fun hv => by rw [(hlv k hv).2]) fun _ => rfl
  all_goals rfl

end Sys2Proof.Machine

open Sys2Proof Sys2Proof.Machine

/-- Settles O55: register by register. -/
theorem invalidEntriesDoNotShow : Obligations.InvalidEntriesDoNotShow := by
  intro s t u a h
  have hb : t.flags.busy = s.flags.busy := by
    obtain ⟨⟨f, n, c, rfl⟩, -⟩ := sameVisible_iff.mp h
    rfl
  simp only [readWindow, hb, readReg_sameVisible h]

end

section
/-! SUPPORT. BUILD (42_tree_builder.md): every entry of PQ stands for a tree the arena holds, the trees together use every entry
made so far once, and their leaves are BUILD's leaves (R141 to R148). -/

namespace Sys2Proof.Machine

/-! ### The arena under the builder's write -/

theorem entryAt_setIfInBounds {node : Vector Node 513} {k j : Nat} {n : Node} (hk : k < 513) :
    entryAt (node.setIfInBounds k n) j = if j = k then n else entryAt node j := by
  simp only [entryAt, Vector.getElem?_setIfInBounds, hk, if_true, eq_comm (a := k)]
  split <;> simp

theorem nodeAt_eq {node : Vector Node 513} {i : NodeIdx} (h : i.toNat < 513) : nodeAt node i = some (entryAt node i.toNat) :=
  nodeAt_some.mpr ⟨h, by simp [entryAt, h]⟩

theorem nodeAt_none {node : Vector Node 513} {i : NodeIdx} (h : 513 ≤ i.toNat) : nodeAt node i = none := by
  simp [nodeAt, arenaIdx, Nat.not_lt.mpr h]

theorem toNat_index {k : Nat} (h : k < 1024) : (BitVec.ofNat 10 k : NodeIdx).toNat = k := by
  rw [BitVec.toNat_ofNat]; omega

theorem nodeAt_setIfInBounds_ne {node : Vector Node 513} {k : Nat} {n : Node} {j : NodeIdx} (hk : k < 513) (h : j.toNat ≠ k) :
    nodeAt (node.setIfInBounds k n) j = nodeAt node j := by
  by_cases hj : j.toNat < 513
  · rw [nodeAt_eq hj, nodeAt_eq hj, entryAt_setIfInBounds hk, if_neg h]
  · rw [nodeAt_none (by omega), nodeAt_none (by omega)]

theorem nodeAt_setIfInBounds_self {node : Vector Node 513} {k : Nat} {n : Node} (hk : k < 513) :
    nodeAt (node.setIfInBounds k n) (BitVec.ofNat 10 k) = some n := by
  have hn := toNat_index (k := k) (by omega)
  rw [nodeAt_eq (by omega), hn, entryAt_setIfInBounds hk, if_pos rfl]

theorem mem_indexRun_iff {n : Nat} {j : NodeIdx} (hn : n ≤ 1024) : j ∈ indexRun 0 n ↔ j.toNat < n := by
  simp only [indexRun, List.mem_map, List.mem_range'_1]
  constructor
  · rintro ⟨m, hm, rfl⟩
    rw [toNat_index (by omega)]
    omega
  · exact fun h => ⟨j.toNat, ⟨by omega, by omega⟩, by simp⟩

theorem nodup_indexRun {n : Nat} (hn : n ≤ 1024) : (indexRun 0 n).Nodup := by
  refine List.Nodup.map_on (fun a ha b hb h => ?_) (List.nodup_range' ..)
  rw [List.mem_range'_1] at ha hb
  have := congrArg BitVec.toNat h
  rwa [toNat_index (by omega), toNat_index (by omega)] at this

theorem indexRun_succ (n : Nat) : indexRun 0 (n + 1) = indexRun 0 n ++ [BitVec.ofNat 10 n] := by
  simp [indexRun, List.range'_concat]

/-! ### The forest in PQ -/

/-- The places, and the leaf symbols, of the trees that entries stand for. -/
def forestPlaces (node : Vector Node 513) (T : Nat → HTree) (l : List PqEntry) : List NodeIdx :=
  l.flatMap fun e => places node (T e.q) e.i

def forestLeaves (T : Nat → HTree) (l : List PqEntry) : List Sym := l.flatMap fun e => (T e.q).leaves

/-- `T` gives the tree of every entry of PQ by its sequence number: the arena holds it at the entry's index, the root has the
entry's weight, the trees use each entry made so far once, and their leaves and weights come to `syms` and `total`. -/
structure Grown (syms : List Sym) (total : Nat) (T : Nat → HTree) (c : BuildCtx) : Prop where
  index : ∀ e ∈ c.pq, e.i = BitVec.ofNat 10 e.q ∧ e.q < c.seq
  held : ∀ e ∈ c.pq, holds c.node (T e.q) e.i = true
  weight : ∀ e ∈ c.pq, (entryAt c.node e.q).w = e.w
  places : (forestPlaces c.node T c.pq).Perm (indexRun 0 c.seq)
  leaves : (forestLeaves T c.pq).Perm syms
  total : (c.pq.map (·.w.toNat)).sum = total

theorem grown_empty (node : Vector Node 513) (T : Nat → HTree) : Grown [] 0 T { node := node, pq := [], seq := 0 } :=
  ⟨by simp, by simp, by simp, .refl _, .refl _, rfl⟩

theorem Grown.perm {syms syms' : List Sym} {total : Nat} {T : Nat → HTree} {c : BuildCtx} (h : Grown syms total T c)
    (hp : syms.Perm syms') : Grown syms' total T c :=
  { h with leaves := h.leaves.trans hp }

theorem length_forest {node : Vector Node 513} {T : Nat → HTree} {l : List PqEntry}
    (h : ∀ e ∈ l, holds node (T e.q) e.i = true) :
    (forestPlaces node T l).length + l.length = 2 * (forestLeaves T l).length := by
  induction l with
  | nil => rfl
  | cons e l ih =>
    have he := length_places (h e (by simp))
    have hs := size_eq (T e.q)
    have ih := ih fun x hx => h x (by simp [hx])
    simp only [forestPlaces, forestLeaves, List.flatMap_cons, List.length_append, List.length_cons] at ih ⊢
    omega

section
variable {syms : List Sym} {total : Nat} {T : Nat → HTree} {c : BuildCtx} (h : Grown syms total T c)
include h

/-- Every merge makes one node and leaves one entry fewer (R30, R148). -/
theorem Grown.count : c.seq + c.pq.length = 2 * syms.length := by
  have hl := length_forest h.held
  rw [h.places.length_eq, h.leaves.length_eq] at hl
  simpa [indexRun] using hl

/-- The next node leaves every tree in PQ where it is. -/
theorem Grown.old (hseq : c.seq < 513) (n : Node) {e : PqEntry} (he : e ∈ c.pq) :
    holds (c.node.setIfInBounds c.seq n) (T e.q) e.i = true ∧
      Machine.places (c.node.setIfInBounds c.seq n) (T e.q) e.i = Machine.places c.node (T e.q) e.i := by
  refine holds_congr (h.held e he) fun j hj => nodeAt_setIfInBounds_ne hseq ?_
  have hm : j ∈ forestPlaces c.node T c.pq := List.mem_flatMap.mpr ⟨e, he, hj⟩
  have := (mem_indexRun_iff (by omega)).mp (h.places.subset hm)
  omega

/-- A node is made at index SEQ above the trees of the entries `used`, which leave PQ: the new entry stands for its tree. -/
theorem Grown.add (hseq : c.seq < 513) {used rest : List PqEntry} {extra : List Sym} {x : Nat} {t : HTree} {n : Node}
    (hpq : c.pq.Perm (used ++ rest))
    (hh : holds (c.node.setIfInBounds c.seq n) t (BitVec.ofNat 10 c.seq) = true)
    (hp : Machine.places (c.node.setIfInBounds c.seq n) t (BitVec.ofNat 10 c.seq) =
      BitVec.ofNat 10 c.seq :: forestPlaces c.node T used)
    (hl : t.leaves = extra ++ forestLeaves T used) (hw : n.w.toNat = x + (used.map (·.w.toNat)).sum) :
    Grown (extra ++ syms) (x + total) (Function.update T c.seq t) ({ c with pq := rest }.add n) := by
  have hrest : ∀ e ∈ rest, e ∈ c.pq := fun e he => hpq.symm.subset (by simp [he])
  have hT : ∀ e ∈ rest, Function.update T c.seq t e.q = T e.q := fun e he =>
    Function.update_of_ne (by have := (h.index e (hrest e he)).2; omega) _ _
  have hplaces : forestPlaces (c.node.setIfInBounds c.seq n) (Function.update T c.seq t) rest = forestPlaces c.node T rest :=
    List.flatMap_congr fun e he => by rw [hT e he, (h.old hseq n (hrest e he)).2]
  have hleaves : forestLeaves (Function.update T c.seq t) rest = forestLeaves T rest :=
    List.flatMap_congr fun e he => by rw [hT e he]
  refine ⟨?_, ?_, ?_, ?_, ?_, ?_⟩
  · intro e he
    rcases List.mem_cons.mp he with rfl | he
    · exact ⟨rfl, Nat.lt_succ_self _⟩
    · exact ⟨(h.index e (hrest e he)).1, Nat.lt_succ_of_lt (h.index e (hrest e he)).2⟩
  · intro e he
    rcases List.mem_cons.mp he with rfl | he
    · simpa [BuildCtx.add] using hh
    · rw [hT e he]
      exact (h.old hseq n (hrest e he)).1
  · intro e he
    rcases List.mem_cons.mp he with rfl | he
    · simp [BuildCtx.add, entryAt_setIfInBounds hseq]
    · have hne : e.q ≠ c.seq := by have := (h.index e (hrest e he)).2; omega
      simpa [BuildCtx.add, entryAt_setIfInBounds hseq, hne] using h.weight e (hrest e he)
  · have hold : (forestPlaces c.node T used ++ forestPlaces c.node T rest).Perm (indexRun 0 c.seq) := by
      refine List.Perm.trans ?_ h.places
      simpa [forestPlaces] using (hpq.flatMap_right _).symm
    simp only [BuildCtx.add, indexRun_succ]
    rw [forestPlaces, List.flatMap_cons, ← forestPlaces, hplaces, Function.update_self, hp, List.cons_append]
    exact (hold.cons _).trans (List.perm_append_singleton _ _).symm
  · have hold : (forestLeaves T used ++ forestLeaves T rest).Perm syms := by
      refine List.Perm.trans ?_ h.leaves
      simpa [forestLeaves] using (hpq.flatMap_right _).symm
    simp only [BuildCtx.add]
    rw [forestLeaves, List.flatMap_cons, ← forestLeaves, hleaves, Function.update_self, hl, List.append_assoc]
    exact hold.append_left extra
  · have hsum := (hpq.map (·.w.toNat)).sum_eq
    rw [h.total, List.map_append, List.sum_append] at hsum
    simp only [BuildCtx.add, List.map_cons, List.sum_cons, hw, hsum]
    omega

/-- A leaf enters PQ (R141). -/
theorem Grown.addLeaf (hseq : c.seq < 513) (y : Sym) (w : Weight) :
    Grown (y :: syms) (w.toNat + total) (Function.update T c.seq (.leaf y)) (c.add (Node.mkLeaf y w)) := by
  refine h.add (used := []) (rest := c.pq) (extra := [y]) (x := w.toNat) (t := .leaf y) hseq (.refl _) ?_ rfl ?_ rfl
  · simp [holds, nodeAt_setIfInBounds_self hseq, Node.mkLeaf]
  · simp [HTree.leaves, forestLeaves]

/-- Two entries leave PQ and their parent enters it (R145). No weight overflows where the total does not (R31). -/
theorem Grown.merge (hseq : c.seq < 513) (htot : total < 2 ^ 41) {a b : PqEntry} {rest : List PqEntry}
    (hpq : c.pq.Perm (a :: b :: rest)) :
    Grown syms total (Function.update T c.seq (.node (T a.q) (T b.q)))
        ({ c with pq := rest }.add (Node.mkInternal (a.w + b.w) a.i b.i)) ∧
      (a.w + b.w).toNat = a.w.toNat + b.w.toNat := by
  have ha : a ∈ c.pq := hpq.symm.subset (by simp)
  have hb : b ∈ c.pq := hpq.symm.subset (by simp)
  have hsum := (hpq.map (·.w.toNat)).sum_eq
  rw [h.total, List.map_cons, List.map_cons, List.sum_cons, List.sum_cons] at hsum
  have hw : (a.w + b.w).toNat = a.w.toNat + b.w.toNat := by
    rw [BitVec.toNat_add, Nat.mod_eq_of_lt (by omega)]
  obtain ⟨n, hn, hleaf, hnw, hleft, hright⟩ : ∃ n, Node.mkInternal (a.w + b.w) a.i b.i = n ∧ n.leaf = false ∧
      n.w = a.w + b.w ∧ n.left = a.i ∧ n.right = b.i := ⟨_, rfl, rfl, rfl, rfl, rfl⟩
  rw [hn]
  obtain ⟨hha, hpa⟩ := h.old hseq n ha
  obtain ⟨hhb, hpb⟩ := h.old hseq n hb
  have hself := nodeAt_setIfInBounds_self (node := c.node) (n := n) hseq
  refine ⟨?_, hw⟩
  have hadd := h.add (used := [a, b]) (extra := []) (x := 0) (t := .node (T a.q) (T b.q)) (n := n) hseq hpq ?_ ?_ ?_ ?_
  · simpa using hadd
  · simp [holds, hself, hleaf, hleft, hright, hha, hhb]
  · simp [Machine.places, hself, hleft, hright, hpa, hpb, forestPlaces]
  · simp [HTree.leaves, forestLeaves]
  · simp [hnw, hw]

end

/-! ### The leaves -/

/-- The leaves enter one by one. -/
theorem grown_leaves {leaves : List Node} {syms : List Sym} {total : Nat} {T : Nat → HTree} {c : BuildCtx}
    (h : Grown syms total T c) (hl : ∀ n ∈ leaves, n = Node.mkLeaf n.sym n.w) (hlen : syms.length + leaves.length ≤ 257) :
    ∃ T', Grown (leaves.map (·.sym) ++ syms) ((leaves.map (·.w.toNat)).sum + total) T' (leaves.foldl BuildCtx.add c) := by
  induction leaves generalizing syms total T c with
  | nil => exact ⟨T, by simpa using h⟩
  | cons n leaves ih =>
    have hcount := h.count
    rw [List.length_cons] at hlen
    have h1 := h.addLeaf (by omega) n.sym n.w
    rw [← hl n (by simp)] at h1
    obtain ⟨T', h'⟩ := ih h1 (fun m hm => hl m (by simp [hm])) (by simp; omega)
    refine ⟨T', ?_⟩
    have := h'.perm (List.perm_middle (l₁ := leaves.map (·.sym)) (a := n.sym) (l₂ := syms))
    simpa [Nat.add_left_comm, Nat.add_assoc] using this

theorem seq_foldl_add (leaves : List Node) (c : BuildCtx) : (leaves.foldl BuildCtx.add c).seq = c.seq + leaves.length := by
  induction leaves generalizing c with
  | nil => rfl
  | cons n leaves ih => simp [ih, BuildCtx.add]; omega

/-! ### The merges -/

/-- Every node from index L on weighs the sum of its children, which were made before it (R145). -/
def Summed (L : Nat) (c : BuildCtx) : Prop :=
  ∀ k, L ≤ k → k < c.seq → (entryAt c.node k).left.toNat < k ∧ (entryAt c.node k).right.toNat < k ∧
    (entryAt c.node k).w.toNat = (entryAt c.node (entryAt c.node k).left.toNat).w.toNat +
      (entryAt c.node (entryAt c.node k).right.toNat).w.toNat

theorem Summed.merge {syms : List Sym} {total L : Nat} {T : Nat → HTree} {c : BuildCtx} (h : Grown syms total T c)
    (hs : Summed L c) (hseq : c.seq < 513) {a b : PqEntry} {rest : List PqEntry} (ha : a ∈ c.pq) (hb : b ∈ c.pq)
    (hw : (a.w + b.w).toNat = a.w.toNat + b.w.toNat) :
    Summed L ({ c with pq := rest }.add (Node.mkInternal (a.w + b.w) a.i b.i)) := by
  intro k hL hk
  simp only [BuildCtx.add] at hk ⊢
  have hent : ∀ j, j ≠ c.seq →
      entryAt (c.node.setIfInBounds c.seq (Node.mkInternal (a.w + b.w) a.i b.i)) j = entryAt c.node j :=
    fun j hj => by rw [entryAt_setIfInBounds hseq, if_neg hj]
  by_cases hks : k = c.seq
  · subst hks
    obtain ⟨hai, haq⟩ := h.index a ha
    obtain ⟨hbi, hbq⟩ := h.index b hb
    have hat := toNat_index (k := a.q) (by omega)
    have hbt := toNat_index (k := b.q) (by omega)
    rw [entryAt_setIfInBounds hseq, if_pos rfl]
    simp only [Node.mkInternal, hai, hbi, hat, hbt] at hent ⊢
    rw [hent _ (by omega), hent _ (by omega), h.weight a ha, h.weight b hb]
    exact ⟨haq, hbq, hw⟩
  · obtain ⟨hl, hr, hsum⟩ := hs k hL (by omega)
    rw [hent k hks, hent _ (by omega), hent _ (by omega)]
    exact ⟨hl, hr, hsum⟩

/-- The merge loop keeps the forest. -/
theorem grown_mergeLoop {syms : List Sym} {total L : Nat} {T : Nat → HTree} {c : BuildCtx} (fuel : Nat)
    (h : Grown syms total T c) (hs : Summed L c) (hlen : syms.length ≤ 257) (htot : total < 2 ^ 41) :
    ∃ T', Grown syms total T' (mergeLoop fuel c) ∧ Summed L (mergeLoop fuel c) := by
  induction fuel generalizing T c with
  | zero => exact ⟨T, h, hs⟩
  | succ fuel ih =>
    rw [mergeLoop]
    cases hm : removeMin c.pq with
    | none => exact ⟨T, h, hs⟩
    | some p =>
      obtain ⟨a, pq1⟩ := p
      dsimp only
      cases hm1 : removeMin pq1 with
      | none => exact ⟨T, h, hs⟩
      | some p =>
        obtain ⟨b, pq2⟩ := p
        have hpq : c.pq.Perm (a :: b :: pq2) := (removeMin_some hm).1.trans ((removeMin_some hm1).1.cons a)
        have hseq : c.seq < 513 := by
          have hc := h.count
          have hl := hpq.length_eq
          simp only [List.length_cons] at hl
          omega
        obtain ⟨h', hw⟩ := h.merge hseq htot hpq
        exact ih h' (hs.merge h hseq (hpq.symm.subset (by simp)) (hpq.symm.subset (by simp)) hw)

/-! ### What BUILD starts from -/

theorem symOf_toNat (k : SymIdx) : (symOf k).toNat = k.val := by
  have := k.isLt
  simp only [symOf, BitVec.toNat_ofNat]
  omega

theorem symOf_injective : Function.Injective symOf := fun a b h =>
  Fin.ext (by rw [← symOf_toNat a, ← symOf_toNat b, h])

@[simp] theorem symOf_sentinelIdx : symOf sentinelIdx = sentinelSym := rfl

theorem symLegal_symOf (k : SymIdx) : symLegal (symOf k) = true := by
  have := k.isLt
  simp only [symLegal, symOf_toNat, decide_eq_true_eq]
  omega

/-- Where the sentinel is counted, it is alone exactly where no other symbol is (R143). -/
theorem live_alone_iff {freq : Vector Count 257} (hs : freq[sentinelIdx] ≠ 0) :
    (liveSyms freq).length = 1 ↔ ∀ j : SymIdx, freq[j] ≠ 0 → j = sentinelIdx := by
  have hmem : ∀ j : SymIdx, j ∈ liveSyms freq ↔ freq[j] ≠ 0 := fun j => by simp [liveSyms_eq, allSyms]
  constructor
  · intro h j hj
    obtain ⟨k, hk⟩ := List.length_eq_one_iff.mp h
    have h1 := (hmem j).mpr hj
    have h2 := (hmem sentinelIdx).mpr hs
    rw [hk, List.mem_singleton] at h1 h2
    rw [h1, h2]
  · intro h
    have hnd : (liveSyms freq).Nodup := by
      rw [liveSyms_eq]
      exact (List.nodup_finRange 257).filter _
    have hsub : liveSyms freq ⊆ [sentinelIdx] := fun j hj => List.mem_singleton.mpr (h j ((hmem j).mp hj))
    have hle := (hnd.subperm hsub).length_le
    have hpos := List.length_pos_of_mem ((hmem sentinelIdx).mpr hs)
    simp only [List.length_singleton] at hle
    omega

/-- The leaves with their symbols and weights: the padding leaf where the sentinel is alone (R143), and one leaf for each
symbol with a nonzero count (R141). -/
theorem initialLeaves_eq (freq : Vector Count 257) : initialLeaves freq =
    (if (liveSyms freq).length = 1 then [Node.mkLeaf 0 0] else []) ++ (liveSyms freq).map (leafOf freq) := by
  simp only [initialLeaves]
  split <;> rfl

theorem initialLeaves_mkLeaf (freq : Vector Count 257) : ∀ n ∈ initialLeaves freq, n = Node.mkLeaf n.sym n.w := by
  intro n hn
  rw [initialLeaves_eq, List.mem_append, List.mem_map] at hn
  rcases hn with hn | ⟨k, -, rfl⟩
  · split at hn
    · rw [List.mem_singleton.mp hn]; rfl
    · simp at hn
  · rfl

/-- The symbols of the leaves BUILD inserts. -/
def initialSyms (freq : Vector Count 257) : List Sym := (initialLeaves freq).map (·.sym)

theorem initialSyms_eq (freq : Vector Count 257) : initialSyms freq =
    (if (liveSyms freq).length = 1 then [0] else []) ++ (liveSyms freq).map symOf := by
  rw [initialSyms, initialLeaves_eq, List.map_append, List.map_map]
  congr 1
  split <;> rfl

theorem mem_initialSyms {freq : Vector Count 257} (hs : freq[sentinelIdx] ≠ 0) (k : SymIdx) : symOf k ∈ initialSyms freq ↔
    (freq[k] ≠ 0 ∨ ((∀ j : SymIdx, freq[j] ≠ 0 → j = sentinelIdx) ∧ k = 0)) := by
  have hlive : symOf k ∈ (liveSyms freq).map symOf ↔ freq[k] ≠ 0 := by
    rw [List.mem_map_of_injective symOf_injective]
    simp [liveSyms_eq, allSyms]
  have hzero : symOf k = 0 ↔ k = 0 := symOf_injective.eq_iff' rfl
  rw [initialSyms_eq, List.mem_append, hlive, ← live_alone_iff hs, or_comm]
  refine or_congr_right ?_
  split
  · rename_i h
    simp only [h, List.mem_singleton, hzero, true_and]
  · rename_i h
    simp [h]

theorem nodup_initialSyms {freq : Vector Count 257} (hs : freq[sentinelIdx] ≠ 0) : (initialSyms freq).Nodup := by
  have hnd : ((liveSyms freq).map symOf).Nodup := by
    rw [liveSyms_eq]
    exact ((List.nodup_finRange 257).filter _).map symOf_injective
  rw [initialSyms_eq]
  refine List.Nodup.append (by split <;> simp) hnd fun y h0 hy => ?_
  split at h0
  · rename_i h1
    obtain ⟨k, hk, rfl⟩ := List.mem_map.mp hy
    have hk0 : freq[k] ≠ 0 := by simpa [liveSyms_eq, allSyms] using hk
    rw [(live_alone_iff hs).mp h1 k hk0] at h0
    exact absurd (List.mem_singleton.mp h0) (by decide)
  · simp at h0

theorem legal_initialSyms (freq : Vector Count 257) : ∀ y ∈ initialSyms freq, symLegal y = true := by
  intro y hy
  rw [initialSyms_eq, List.mem_append, List.mem_map] at hy
  rcases hy with hy | ⟨k, -, rfl⟩
  · split at hy
    · rw [List.mem_singleton.mp hy]; rfl
    · simp at hy
  · exact symLegal_symOf k

/-- Distinct symbols are at most 257 (R30). -/
theorem length_le_of_legal {l : List Sym} (hn : l.Nodup) (hl : ∀ y ∈ l, symLegal y = true) : l.length ≤ 257 := by
  have hsub : l.map BitVec.toNat ⊆ List.range 257 := by
    intro m hm
    obtain ⟨y, hy, rfl⟩ := List.mem_map.mp hm
    have : y.toNat ≤ 256 := by simpa [symLegal] using hl y hy
    exact List.mem_range.mpr (by omega)
  simpa using ((hn.map fun _ _ h => BitVec.eq_of_toNat_eq h).subperm hsub).length_le

theorem two_le_initialSyms {freq : Vector Count 257} (hs : freq[sentinelIdx] ≠ 0) : 2 ≤ (initialSyms freq).length := by
  have hpos : 0 < (liveSyms freq).length :=
    List.length_pos_of_mem (a := sentinelIdx) (by simpa [liveSyms_eq, allSyms] using hs)
  rw [initialSyms_eq, List.length_append, List.length_map]
  split <;> simp <;> omega

/-- The leaves weigh what the table counts (R31). -/
theorem sum_initialLeaves (freq : Vector Count 257) : ((initialLeaves freq).map (·.w.toNat)).sum = freqSum freq := by
  have hfilter : ∀ l : List SymIdx, ((l.filter fun k => freq[k] != 0).map fun k => (leafOf freq k).w.toNat).sum =
      (l.map fun k => freq[k].toNat).sum := by
    intro l
    induction l with
    | nil => rfl
    | cons k l ih =>
      have hw : (leafOf freq k).w.toNat = freq[k].toNat := by
        have := freq[k].isLt
        simp only [leafOf, Node.mkLeaf, BitVec.toNat_setWidth]
        omega
      rw [List.filter_cons, List.map_cons, List.sum_cons]
      split
      · rw [List.map_cons, List.sum_cons, hw, ih]
      · rename_i hk
        have hk0 : freq[k] = 0 := by simpa only [bne_iff_ne, ne_eq, not_not] using hk
        have h0 : (0 : Count).toNat = 0 := rfl
        rw [ih, hk0, h0, Nat.zero_add]
  have hpad : ((if (liveSyms freq).length = 1 then [Node.mkLeaf 0 0] else []).map (·.w.toNat)).sum = 0 := by
    split <;> rfl
  rw [initialLeaves_eq, List.map_append, List.sum_append, hpad, List.map_map, liveSyms_eq, Nat.zero_add]
  exact hfilter allSyms

/-- 257 counts of 32 bits sum to less than 2^41 (R31). -/
theorem freqSum_lt (freq : Vector Count 257) : freqSum freq < 2 ^ 41 := by
  have h : ∀ x ∈ allSyms.map (fun k => freq[k].toNat), x ≤ 2 ^ 32 := by
    intro x hx
    obtain ⟨k, -, rfl⟩ := List.mem_map.mp hx
    exact freq[k].isLt.le
  have := List.sum_le_card_nsmul _ _ h
  simp only [allSyms, List.length_map, List.length_finRange, smul_eq_mul] at this
  simp only [freqSum, allSyms]
  omega

/-! ### The whole of BUILD -/

/-- PQ, SEQ and the arena when the leaves have been made. -/
def leafCtx (freq : Vector Count 257) (node : Vector Node 513) : BuildCtx :=
  (initialLeaves freq).foldl BuildCtx.add { node := node, pq := [], seq := 0 }

/-- PQ, SEQ and the arena when the merges have been made. -/
def builtCtx (freq : Vector Count 257) (node : Vector Node 513) : BuildCtx :=
  mergeLoop (leafCtx freq node).pq.length (leafCtx freq node)

/-- BUILD's body by its two phases (R149). -/
theorem buildBody_eq (s : State) : buildBody s =
    match (builtCtx s.freq s.node).pq with
    | [e] => .done { dropTree s with
        node := (builtCtx s.freq s.node).node
        tree := {
          root := e.i
          nodeCount := BitVec.ofNat 10 (builtCtx s.freq s.node).seq
          leafCount := BitVec.ofNat 10 (initialLeaves s.freq).length }
        flags := { (dropTree s).flags with treeValid := true } }
    | _ => .broken .emptyFreqTable := by
  rfl

theorem builtCtx_grown {freq : Vector Count 257} (node : Vector Node 513) (hs : freq[sentinelIdx] ≠ 0) :
    ∃ T, Grown (initialSyms freq) (freqSum freq) T (builtCtx freq node) ∧
      Summed (initialLeaves freq).length (builtCtx freq node) := by
  have hlen := length_le_of_legal (nodup_initialSyms hs) (legal_initialSyms freq)
  obtain ⟨T, hT⟩ := grown_leaves (grown_empty node fun _ => .leaf 0) (initialLeaves_mkLeaf freq)
    (by simpa [initialSyms] using hlen)
  rw [List.append_nil, Nat.add_zero, sum_initialLeaves] at hT
  have hseq : (leafCtx freq node).seq = (initialLeaves freq).length := by simp [leafCtx, seq_foldl_add]
  exact grown_mergeLoop _ hT (fun k hL hk => absurd (lt_of_lt_of_eq hk hseq) (Nat.not_lt.mpr hL)) hlen (freqSum_lt freq)

/-- What BUILD leaves where the sentinel is counted (R148): one entry in PQ, whose tree has BUILD's leaves and uses every entry
made, and weighs the whole table. -/
structure Built (s u : State) (t : HTree) : Prop where
  tree : treeAt u t = true
  leaves : t.leaves.Perm (initialSyms s.freq)
  leafCount : u.tree.leafCount.toNat = (initialLeaves s.freq).length
  summed : ∀ k, (initialLeaves s.freq).length ≤ k → k < u.tree.nodeCount.toNat → (entryAt u.node k).w.toNat =
    (entryAt u.node (entryAt u.node k).left.toNat).w.toNat + (entryAt u.node (entryAt u.node k).right.toNat).w.toNat
  total : (entryAt u.node u.tree.root.toNat).w.toNat = freqSum s.freq

theorem buildBody_built {s u : State} (hs : s.freq[sentinelIdx] ≠ 0) (h : buildBody s = .done u) : ∃ t, Built s u t := by
  obtain ⟨T, hT, hsum⟩ := builtCtx_grown s.node hs
  have hnd := nodup_initialSyms hs
  have hlegal := legal_initialSyms s.freq
  have hlen := length_le_of_legal hnd hlegal
  have hcount := hT.count
  rw [buildBody_eq] at h
  split at h
  case h_2 => simp at h
  case h_1 e he =>
    rw [he, List.length_singleton] at hcount
    have hseq := toNat_index (k := (builtCtx s.freq s.node).seq) (by omega)
    have hL := toNat_index (k := (initialSyms s.freq).length) (by omega)
    have hsl : (initialLeaves s.freq).length = (initialSyms s.freq).length := by simp [initialSyms]
    have hmem : e ∈ (builtCtx s.freq s.node).pq := by rw [he]; simp
    have hplaces : (places (builtCtx s.freq s.node).node (T e.q) e.i).Perm (indexRun 0 (builtCtx s.freq s.node).seq) := by
      simpa [forestPlaces, he] using hT.places
    have hleaves : (T e.q).leaves.Perm (initialSyms s.freq) := by simpa [forestLeaves, he] using hT.leaves
    simp only [Ran.done.injEq] at h
    subst h
    refine ⟨T e.q, treeAt_iff.mpr ⟨hT.held e hmem, ?_, fun i hi => ?_, ?_, ?_, ?_⟩, hleaves, ?_, fun k hk hk' => ?_, ?_⟩
    · exact hplaces.nodup_iff.mpr (nodup_indexRun (by omega))
    · rw [hseq]
      exact (mem_indexRun_iff (by omega)).mp (hplaces.subset hi)
    · rw [hseq, ← length_places (hT.held e hmem), hplaces.length_eq]
      simp [indexRun]
    · rw [hsl, hL, hleaves.length_eq]
    · exact List.all_eq_true.mpr fun y hy => hlegal y (hleaves.subset hy)
    · rw [hsl, hL]
    · rw [hseq] at hk'
      exact (hsum k hk hk').2.2
    · obtain ⟨hi, hq⟩ := hT.index e hmem
      rw [hi, toNat_index (by omega), hT.weight e hmem]
      simpa [he] using hT.total

/-- A built tree has an internal root, distinct symbols and the sentinel (R38 (f), R148). -/
theorem Built.built {s u : State} {t : HTree} (h : Built s u t) (hs : s.freq[sentinelIdx] ≠ 0) : t.built = true := by
  have hnd := h.leaves.nodup_iff.mpr (nodup_initialSyms hs)
  have hsent : sentinelSym ∈ t.leaves := by
    rw [← symOf_sentinelIdx, h.leaves.mem_iff, mem_initialSyms hs]
    exact .inl hs
  have h2 : 2 ≤ t.leaves.length := by rw [h.leaves.length_eq]; exact two_le_initialSyms hs
  cases t with
  | leaf y => simp [HTree.leaves] at h2
  | node l r => simp [HTree.built, hnd, hsent]

/-- BUILD with its check met has run its body to the end. -/
theorem exec_build_next {s t : State} (he : s.flags.err = false) (hv : s.flags.freqValid = true) (h : exec .build s = .next t) :
    ∃ u, buildBody (prologue wordBuild s) = .done u ∧ t = complete u := by
  have hends := buildBody_ends (prologue wordBuild s)
  rw [exec_build, runCommand_ran (.inl he) (by simp [precondition, hv])] at h
  cases hb : buildBody (prologue wordBuild s) with
  | done u => exact ⟨u, rfl, by simpa [hb, Ran.finish] using h.symm⟩
  | raised e u => rw [hb] at hends; exact hends.elim
  | broken f => simp [hb, Ran.finish] at h

end Sys2Proof.Machine

open Sys2Proof Sys2Proof.Machine

/-- Settles O24: the one tree left in PQ has BUILD's leaves. -/
theorem buildMakesATree : Obligations.BuildMakesATree := by
  intro s u he hv hs h
  obtain ⟨v, hb, rfl⟩ := exec_build_next he hv h
  obtain ⟨t, ht⟩ := buildBody_built (s := prologue wordBuild s) hs hb
  exact ⟨t, ht.tree, ht.built hs, fun k => by rw [ht.leaves.mem_iff]; exact mem_initialSyms hs k⟩

/-- Settles O23: the weights in PQ sum to the whole table at every merge, so no addition of two of them wraps. -/
theorem buildWeightsAddUp : Obligations.BuildWeightsAddUp := by
  intro s u he hv hs h
  obtain ⟨v, hb, rfl⟩ := exec_build_next he hv h
  obtain ⟨t, ht⟩ := buildBody_built (s := prologue wordBuild s) hs hb
  exact ⟨fun k hk => ht.summed k (by rw [← ht.leafCount]; exact hk), ht.total⟩

end

section
/-! SUPPORT. What RDHDR accepts (45_header_read.md): the bits the header reader has consumed when it ends are a tree's header,
and the arena holds that tree (R183, R188). -/

namespace Sys2Proof.Machine

/-! ### After a subtree -/

theorem header_pos (t : HTree) : 0 < t.header.length := by
  cases t <;> simp [HTree.header]

theorem restIn_readTree {t : HTree} {nd : Vector Node 513} {s : State} {rest : List Bool} (hl : s.inp.bits.length < 2 ^ 64)
    (hb : s.restIn = t.header ++ rest) : (readTree t nd s).restIn = rest := by
  have hlen : t.header.length ≤ s.remaining := by rw [← length_restIn, hb]; simp
  have h : (readTree t nd s).restIn = (consumeIn t.header.length s).restIn := rfl
  rw [h, restIn_consumeIn hl hlen (header_pos t), hb, List.drop_left]

theorem nodeCount_readTree {t : HTree} {nd : Vector Node 513} {s : State} (hc : s.tree.nodeCount.toNat + t.size ≤ 513) :
    (readTree t nd s).tree.nodeCount.toNat = s.tree.nodeCount.toNat + t.size := by
  simp only [readTree, BitVec.toNat_add, BitVec.toNat_ofNat]
  omega

/-! ### Tokens the reader accepts -/

/-- An accepted token is an internal node's flag, or a leaf's flag with a legal symbol, and there was room for its node. -/
theorem desToken_accepts {stack : List HdrFrame} {s u : State} (hl : s.inp.bits.length < 2 ^ 64)
    (h : desToken stack s = .done u) :
    s.tree.nodeCount.toNat < 513 ∧ ((∃ rest, s.restIn = false :: rest) ∨
      ∃ y rest, s.restIn = true :: (bitsOf 9 y.toNat ++ rest) ∧ symLegal y = true) := by
  cases hb : s.restIn with
  | nil => simp [desToken_empty hb] at h
  | cons f b =>
    have hc : s.tree.nodeCount.toNat < 513 := by
      by_contra hc
      simp [desToken_full hb (Nat.not_lt.mp hc)] at h
    refine ⟨hc, ?_⟩
    cases f with
    | false => exact .inl ⟨b, rfl⟩
    | true =>
      have h9 : 9 ≤ b.length := by
        by_contra h9
        simp [desToken_cut hl hb (Nat.not_le.mp h9) hc] at h
      have hlt : valOf (b.take 9) < 2 ^ 9 := by simpa [h9] using valOf_lt (b.take 9)
      have hy : b = bitsOf 9 (BitVec.ofNat 9 (valOf (b.take 9)) : Sym).toNat ++ b.drop 9 := by
        have ht := bitsOf_valOf (b.take 9)
        rw [List.length_take, Nat.min_eq_left h9] at ht
        rw [BitVec.toNat_ofNat, Nat.mod_eq_of_lt hlt, ht, List.take_append_drop]
      refine .inr ⟨_, _, by rw [← hy], ?_⟩
      rw [hy] at hb
      by_contra hleg
      simp [desToken_badSymbol hl hb hc (Bool.not_eq_true _ ▸ hleg)] at h

/-- The state in which the subtrees of an accepted internal node are read. -/
theorem internal_opened {stack : List HdrFrame} {s u : State} {rest : List Bool} (hl : s.inp.bits.length < 2 ^ 64)
    (hb : s.restIn = false :: rest) (hc : s.tree.nodeCount.toNat < 513) (h : desToken stack s = .done u) :
    u.restIn = rest ∧ u.tree.nodeCount.toNat = s.tree.nodeCount.toNat + 1 ∧
      u.hdrStack = some (.wantLeft ⟨s.tree.nodeCount.toNat, hc⟩ :: stack) ∧ u.inp.bits.length < 2 ^ 64 := by
  rw [desToken_internal hb hc, Ran.done.injEq] at h
  have h1 : (1 : NodeIdx).toNat = 1 := rfl
  have hr : (consumeIn 1 s).restIn = rest := by
    rw [restIn_consumeIn hl (by rw [← length_restIn, hb]; simp) (by decide), hb]
    rfl
  subst h
  refine ⟨hr, ?_, rfl, hl⟩
  simp only [openInternal, BitVec.toNat_add, h1]
  omega

/-- Where the header reader ends, what stands next on IN is a subtree's header, within the room and the turns that were left. -/
theorem header_of_headerLoop {fuel : Nat} {s u : State} {stack : List HdrFrame} (hl : s.inp.bits.length < 2 ^ 64)
    (hst : s.hdrStack = some stack) (h : headerLoop fuel s = .done u) :
    ∃ t rest, s.restIn = HTree.header t ++ rest ∧ t.symsLegal = true ∧ s.tree.nodeCount.toNat + t.size ≤ 513 ∧
      t.size ≤ fuel := by
  induction fuel using Nat.strong_induction_on generalizing s stack with
  | _ fuel ih =>
    cases fuel with
    | zero => simp [headerLoop] at h
    | succ fuel =>
      rw [headerLoop, hst] at h
      dsimp only at h
      cases hd : desToken stack s with
      | raised e t => simp [hd] at h
      | broken f => simp [hd] at h
      | done s1 =>
        obtain ⟨hc, ⟨rest, hb⟩ | ⟨y, rest, hb, hy⟩⟩ := desToken_accepts hl hd
        · -- an internal node: its two subtrees follow
          rw [hd] at h
          dsimp only at h
          obtain ⟨hb1, hn1, hst1, hl1⟩ := internal_opened hl hb hc hd
          obtain ⟨l, rest1, hbl, hsl, hcl, hfl⟩ := ih fuel (by omega) hl1 hst1 h
          obtain ⟨nd, hloop, -⟩ := headerLoop_subtree (fuel := fuel - l.size) hl1 hst1 hbl hsl hcl
          rw [show l.size + (fuel - l.size) = fuel by omega, h] at hloop
          obtain ⟨r, rest2, hbr, hsr, hcr, hfr⟩ := ih (fuel - l.size) (by omega)
            (s := returnChild (.wantLeft ⟨s.tree.nodeCount.toNat, hc⟩ :: stack) s1.tree.nodeCount (readTree l nd s1))
            hl1 rfl hloop.symm
          have hbr' : rest1 = r.header ++ rest2 := (restIn_readTree (nd := nd) hl1 hbl).symm.trans hbr
          have hcr' : s1.tree.nodeCount.toNat + l.size + r.size ≤ 513 := by
            rw [← nodeCount_readTree (nd := nd) hcl]
            exact hcr
          refine ⟨.node l r, rest2, ?_, ?_, ?_, ?_⟩
          · rw [hb, ← hb1, hbl, hbr']
            simp [HTree.header]
          · simp only [HTree.symsLegal, HTree.leaves, List.all_append, Bool.and_eq_true] at hsl hsr ⊢
            exact ⟨hsl, hsr⟩
          · simp only [HTree.size]
            omega
          · simp only [HTree.size]
            omega
        · exact ⟨.leaf y, rest, by rw [hb]; rfl, by simpa [HTree.symsLegal, HTree.leaves] using hy, hc, by simp [HTree.size]⟩

/-! ### The whole of RDHDR -/

/-- The header reader's start once the magic has matched (R181 to R183). -/
def magicRead (s : State) : State := { consumeIn 32 (startCall s) with hdrStack := some [] }

/-- What RDHDR leaves where its body ends: the tree whose header stood on IN after the magic, read into the arena from entry 0. -/
theorem rdhdrBody_done {s u : State} (hl : s.inp.bits.length < 2 ^ 64) (h : rdhdrBody s = .done u) :
    ∃ t rest nd, s.restIn = bitsOf 32 s.params.magic.toNat ++ (HTree.header t ++ rest) ∧ t.symsLegal = true ∧ t.size ≤ 513 ∧
      ReadInto s.node nd t 0 ∧ u = headerDone 0 (readTree t nd (magicRead s)) := by
  rw [rdhdrBody] at h
  cases hr : readBits 32 (startCall s) with
  | none => simp [hr] at h
  | some p =>
    obtain ⟨m, s1⟩ := p
    obtain ⟨hn, hm, rfl⟩ := readBits_some hr
    rw [hr] at h
    dsimp only at h
    split at h
    · simp at h
    · rename_i hmag
      have hmag' : s.params.magic = m := by
        rw [Bool.not_eq_true, bne_eq_false_iff_eq] at hmag
        exact hmag.symm
      have hl' : (magicRead s).inp.bits.length < 2 ^ 64 := hl
      have hrest : s.restIn = bitsOf 32 s.params.magic.toNat ++ (magicRead s).restIn := by
        have hv := bitsOf_valOf (s.restIn.take 32)
        have h32 : (s.restIn.take 32).length = 32 := by
          rw [List.length_take, length_restIn]
          exact Nat.min_eq_left hn
        rw [h32] at hv
        have hlt := valOf_lt (s.restIn.take 32)
        rw [h32] at hlt
        have hms : m = BitVec.ofNat 32 (valOf (s.restIn.take 32)) := hm
        rw [hmag', hms, BitVec.toNat_ofNat, Nat.mod_eq_of_lt hlt, hv]
        have hd : (magicRead s).restIn = s.restIn.drop 32 := restIn_consumeIn (s := startCall s) hl hn (by decide)
        rw [hd, List.take_append_drop]
      obtain ⟨t, rest, hb, hs, hc, -⟩ := header_of_headerLoop hl' rfl h
      have hsize : t.size ≤ 513 := by simpa [magicRead, TreeRegs.zero] using hc
      obtain ⟨nd, hloop, hinto⟩ := headerLoop_subtree (fuel := nodeCap + 1 - t.size) hl' rfl hb hs hc
      refine ⟨t, rest, nd, by rw [hrest, hb], hs, hsize, hinto, ?_⟩
      rw [show t.size + (nodeCap + 1 - t.size) = nodeCap + 1 by rw [nodeCap]; omega] at hloop
      have hdone := h.symm.trans hloop
      obtain ⟨k, hk⟩ : ∃ k, nodeCap + 1 - t.size = k + 1 := ⟨nodeCap - t.size, by rw [nodeCap]; omega⟩
      rw [hk, returnChild, headerLoop] at hdone
      exact Ran.done.inj hdone

/-- The tree read is the one the machine then holds (R38 (e), R188, R189 (f)). -/
theorem treeAt_of_readInto {old nd : Vector Node 513} {t : HTree} {s : State} (hs : t.symsLegal = true) (hc : t.size ≤ 513)
    (h : ReadInto old nd t 0) : treeAt (headerDone 0 (readTree t nd (magicRead s))) t = true := by
  obtain ⟨hh, hp, -, -⟩ := h
  have hzero : (0 : NodeIdx) + BitVec.ofNat 10 t.size = BitVec.ofNat 10 t.size := BitVec.zero_add _
  have hsize : (BitVec.ofNat 10 t.size : NodeIdx).toNat = t.size := toNat_index (by omega)
  have hn : (headerDone 0 (readTree t nd (magicRead s))).tree.nodeCount.toNat = t.size :=
    (congrArg BitVec.toNat hzero).trans hsize
  have hlv : (headerDone 0 (readTree t nd (magicRead s))).tree.leafCount.toNat = t.leaves.length := by
    have h2 := size_eq t
    exact (congrArg BitVec.toNat (BitVec.zero_add _)).trans (toNat_index (by omega))
  have hpl : places (headerDone 0 (readTree t nd (magicRead s))).node t 0 = indexRun 0 t.size := hp
  refine treeAt_iff.mpr ⟨hh, ?_, fun i hi => ?_, hn.symm, hlv.symm, hs⟩
  · rw [show (headerDone 0 (readTree t nd (magicRead s))).tree.root = 0 from rfl, hpl]
    exact nodup_indexRun (by omega)
  · rw [show (headerDone 0 (readTree t nd (magicRead s))).tree.root = 0 from rfl, hpl] at hi
    rw [hn]
    exact (mem_indexRun_iff (by omega)).mp hi

/-- What RDHDR's body accepts, and the tree it leaves. -/
theorem rdhdrBody_tree {s u : State} (hl : s.inp.bits.length < 2 ^ 64) (h : rdhdrBody s = .done u) :
    ∃ t, s.restIn = bitsOf 32 s.params.magic.toNat ++ (HTree.header t ++ u.restIn) ∧ treeAt u t = true := by
  obtain ⟨t, rest, nd, hb, hs, hc, hinto, rfl⟩ := rdhdrBody_done hl h
  refine ⟨t, ?_, treeAt_of_readInto hs hc hinto⟩
  have hm : (magicRead s).restIn = HTree.header t ++ rest := restIn_after_field (s := startCall s) hl (by decide) hb
  have hr : (headerDone 0 (readTree t nd (magicRead s))).restIn = rest :=
    restIn_readTree (nd := nd) (s := magicRead s) hl hm
  rw [hr, hb]

end Sys2Proof.Machine

open Sys2Proof Sys2Proof.Machine

/-- Settles O35: an RDHDR that ends without error has run its body to the end. -/
theorem acceptedHeadersAreTrees : Obligations.AcceptedHeadersAreTrees := by
  intro s u he hl h hu
  obtain ⟨w, -, ⟨hs, -⟩ | ⟨-, e, v, -, rfl⟩ | ⟨-, -, v, hb, -, rfl⟩⟩ := exec_next (i := .rdhdr) rfl h
  · rw [hs.resolve_right (by decide)] at he; exact absurd he (by decide)
  · exact absurd hu (by simp)
  · obtain ⟨t, hr, ht⟩ := rdhdrBody_tree (s := prologue w s) hl hb
    exact ⟨t, hr, ht⟩

end

section
/-! SUPPORT. The tree and the code table (R38 (e), (f)): what DERIVE records, and that every command and every host action keeps
them. -/

namespace Sys2Proof.Machine

/-! ### DERIVE -/

theorem put_self (c : CodeTable) (k : SymIdx) (l : BitVec 9) (v : BitVec 256) :
    (c.put k l v).entry[k] = true ∧ (c.put k l v).len[k] = l ∧ (c.put k l v).val[k] = v := by
  simp [CodeTable.put]

theorem put_ne {j k : SymIdx} (h : k ≠ j) (c : CodeTable) (l : BitVec 9) (v : BitVec 256) :
    (c.put j l v).entry[k] = c.entry[k] ∧ (c.put j l v).len[k] = c.len[k] ∧ (c.put j l v).val[k] = c.val[k] := by
  have hne : j.val ≠ k.val := fun he => h (Fin.ext he.symm)
  simp [CodeTable.put, hne]

theorem putPath_uncounted {freq : Vector Count 257} {j : SymIdx} (hf : freq[j] = 0) (c : CodeTable) (b : List Bool) :
    putPath freq 0 0 c (b, symOf j) = c := by
  simp only [putPath, symIdx_symOf, hf, bne_self_eq_false, Bool.false_eq_true, if_false]

/-- From the root on, a counted symbol's path is put as its length and its value: no path is too long for either (R33). -/
theorem putPath_counted {freq : Vector Count 257} {j : SymIdx} (hf : freq[j] ≠ 0) (c : CodeTable) {b : List Bool}
    (hb : b.length ≤ 256) :
    ∃ l v, putPath freq 0 0 c (b, symOf j) = c.put j l v ∧ l.toNat = b.length ∧ v.toNat = valOf b := by
  refine ⟨0 + BitVec.ofNat 9 b.length, BitVec.ofNat 256 ((0 : BitVec 256).toNat * 2 ^ b.length + valOf b),
    by simp only [putPath, symIdx_symOf, bne_iff_ne.mpr hf, if_true], ?_, ?_⟩
  · have h0 : (0 : BitVec 9).toNat = 0 := rfl
    simp only [BitVec.toNat_add, BitVec.toNat_ofNat, h0]
    omega
  · have hlt := valOf_lt b
    have hp : 2 ^ b.length ≤ 2 ^ 256 := Nat.pow_le_pow_right (by decide) hb
    have h0 : (0 : BitVec 256).toNat = 0 := rfl
    rw [h0, Nat.zero_mul, Nat.zero_add, BitVec.toNat_ofNat, Nat.mod_eq_of_lt (by omega)]

/-- The table records paths: an entry for each symbol of a path that is counted, and in it the bits of one of its paths, with no
bit above them (R32, R162). -/
structure Recorded (freq : Vector Count 257) (ps : List (List Bool × Sym)) (c : CodeTable) : Prop where
  entry : ∀ k : SymIdx, c.entry[k] = true ↔ symOf k ∈ ps.map (·.2) ∧ freq[k] ≠ 0
  code : ∀ k : SymIdx, c.entry[k] = true → (codeBits c k, symOf k) ∈ ps ∧ c.val[k].toNat < 2 ^ c.len[k].toNat

theorem recorded_noEntries (freq : Vector Count 257) (c : CodeTable) : Recorded freq [] c.noEntries :=
  ⟨by simp [CodeTable.noEntries], by simp [CodeTable.noEntries]⟩

/-- The walk's next path replaces what its symbol's entry held. -/
theorem Recorded.put {freq : Vector Count 257} {ps : List (List Bool × Sym)} {c : CodeTable} (h : Recorded freq ps c)
    {p : List Bool × Sym} (hl : p.1.length ≤ 256) (hs : symLegal p.2 = true) :
    Recorded freq (ps ++ [p]) (putPath freq 0 0 c p) := by
  obtain ⟨b, y⟩ := p
  obtain ⟨j, -, rfl⟩ := symIdx_of_legal hs
  have hmem : ∀ k : SymIdx, symOf k ∈ (ps ++ [(b, symOf j)]).map (·.2) ↔ symOf k ∈ ps.map (·.2) ∨ k = j := by
    intro k
    rw [List.map_append, List.mem_append, List.map_singleton, List.mem_singleton, symOf_injective.eq_iff]
  have hkeep : ∀ {k l}, (l, symOf k) ∈ ps → (l, symOf k) ∈ ps ++ [(b, symOf j)] := List.mem_append_left _
  by_cases hf : freq[j] = 0
  · rw [putPath_uncounted hf]
    refine ⟨fun k => ?_, fun k hk => ⟨hkeep (h.code k hk).1, (h.code k hk).2⟩⟩
    rw [h.entry k, hmem]
    refine and_congr_left fun hfk => ⟨.inl, fun hk => hk.resolve_right ?_⟩
    rintro rfl
    exact hfk hf
  · obtain ⟨l, v, hput, hlen, hval⟩ := putPath_counted hf c hl
    rw [hput]
    obtain ⟨hje, hjl, hjv⟩ := put_self c j l v
    refine ⟨fun k => ?_, fun k hke => ?_⟩ <;> by_cases hk : k = j
    · subst hk
      rw [hje, hmem]
      exact ⟨fun _ => ⟨.inr rfl, hf⟩, fun _ => rfl⟩
    · rw [(put_ne hk c l v).1, h.entry k, hmem]
      simp only [hk, or_false]
    · subst hk
      rw [codeBits, hjl, hjv, hlen, hval, bitsOf_valOf]
      exact ⟨by simp, valOf_lt b⟩
    · obtain ⟨he, hln, hv⟩ := put_ne hk c l v
      rw [he] at hke
      rw [codeBits, hln, hv]
      exact ⟨hkeep (h.code k hke).1, (h.code k hke).2⟩

theorem recorded_foldl {freq : Vector Count 257} {c : CodeTable} (ps qs : List (List Bool × Sym)) (h : Recorded freq ps c)
    (hq : ∀ p ∈ qs, p.1.length ≤ 256 ∧ symLegal p.2 = true) : Recorded freq (ps ++ qs) (qs.foldl (putPath freq 0 0) c) := by
  induction qs generalizing ps c with
  | nil => simpa using h
  | cons p qs ih =>
    obtain ⟨hl, hs⟩ := hq p (by simp)
    simpa using ih (ps ++ [p]) (h.put hl hs) fun r hr => hq r (by simp [hr])

/-- A table that records the paths of a tree is the code table of the tree. -/
theorem Recorded.codesFor {freq : Vector Count 257} {t : HTree} {c : CodeTable} (h : Recorded freq t.paths c) :
    codesFor freq t c = true := by
  simp only [Machine.codesFor, List.all_eq_true]
  intro k _
  have he : c.entry[k] = (decide (symOf k ∈ t.leaves) && freq[k] != 0) := by
    rw [Bool.eq_iff_iff, h.entry k, map_snd_paths]
    simp
  simp only [Bool.and_eq_true, beq_iff_eq, Bool.or_eq_true, Bool.not_eq_true', decide_eq_true_eq]
  refine ⟨he, ?_⟩
  cases hk : c.entry[k] with
  | false => exact .inl rfl
  | true => exact .inr (h.code k hk)

/-- DERIVE's body on a held tree records its paths. -/
theorem deriveBody_recorded {s : State} {t : HTree} (h : treeAt s t = true) :
    visit s.freq s.node nodeCap s.tree.root 0 0 s.codes.noEntries =
        some (t.paths.foldl (putPath s.freq 0 0) s.codes.noEntries) ∧
      Recorded s.freq t.paths (t.paths.foldl (putPath s.freq 0 0) s.codes.noEntries) := by
  obtain ⟨hh, -, -, -, -, hs⟩ := treeAt_iff.mp h
  have hlv := leaves_le_of_treeAt h
  refine ⟨visit_eq hh hs (size_le_of_treeAt h), recorded_foldl [] t.paths (recorded_noEntries _ _) fun p hp => ⟨?_, ?_⟩⟩
  · have := length_path_lt hp
    omega
  · refine List.all_eq_true.mp hs p.2 ?_
    rw [← map_snd_paths]
    exact List.mem_map_of_mem hp

/-! ### Every event -/

theorem treeInv_of_invalid {s : State} (h : s.flags.treeValid = false) : treeInv s := fun hv => by
  rw [h] at hv
  exact absurd hv (by decide)

/-- A body that only moves the streams keeps the tree and the codes. -/
theorem Streamed.treeInv {s u : State} (h : Streamed s u) (ht : treeInv s) : treeInv u := by
  obtain ⟨i, o, c, rfl, -⟩ := h
  exact ht

/-- A command's body that runs to its end leaves the tree of R38 (e) and (f), and its codes, its check having held (R113). -/
theorem bodyOf_treeInv {i : Instr} {s u : State} (ht : treeInv s) (hf : freqInv s = true) (hl : s.inp.bits.length < 2 ^ 64)
    (hp : precondition i s = none) (hb : bodyOf i s = .done u) : treeInv u := by
  have hends := bodyOf_ends i s
  rw [hb] at hends
  have hflags := hends.flags
  cases i
  case clear => exact treeInv_of_invalid (by rw [hflags]; rfl)
  case count => exact treeInv_of_invalid (by rw [hflags]; rfl)
  case build =>
    have hv : s.flags.freqValid = true := by simpa [precondition] using hp
    have hs : s.freq[sentinelIdx] ≠ 0 := by
      rw [(freqInv_iff.mp hf).2 hv]
      decide
    obtain ⟨t, htree⟩ := buildBody_built hs hb
    refine fun _ => ⟨t, htree.tree, fun _ => htree.built hs, fun hc => ?_⟩
    rw [hflags] at hc
    exact (Bool.false_ne_true hc).elim
  case derive =>
    have hv : s.flags.treeValid = true ∧ s.flags.treeOrigin = false := by simpa [precondition] using hp
    obtain ⟨t, htree, hbuilt, -⟩ := ht hv.1
    obtain ⟨hvis, hrec⟩ := deriveBody_recorded htree
    simp only [bodyOf, deriveBody, hvis, Ran.done.injEq] at hb
    subst hb
    exact fun _ => ⟨t, htree, fun _ => hbuilt hv.2, fun _ => hrec.codesFor⟩
  case rdhdr =>
    obtain ⟨t, -, htree⟩ := rdhdrBody_tree hl hb
    refine fun _ => ⟨t, htree, fun ho => ?_, fun hc => ?_⟩
    · rw [hflags] at ho
      exact absurd (show true = false from ho) (by decide)
    · rw [hflags] at hc
      exact (Bool.false_ne_true hc).elim
  case wrhdr =>
    have hw := wrhdrBody_ends s
    rw [show wrhdrBody s = .done u from hb] at hw
    exact hw.treeInv ht
  case encode =>
    have hw := encodeBody_ends s
    rw [show encodeBody s = .done u from hb] at hw
    exact hw.treeInv ht
  case decode =>
    have hw := decodeBody_ends s
    rw [show decodeBody s = .done u from hb] at hw
    obtain ⟨v, hv, rfl⟩ := hw
    exact hv.treeInv ht
  case flush =>
    simp only [bodyOf, Ran.done.injEq] at hb
    exact hb ▸ ht
  all_goals
    simp only [bodyOf, Ran.done.injEq] at hb
    exact hb ▸ ht

theorem length_lt_of_streamInv {p : InPort} (h : streamInv p = true) : p.bits.length < 2 ^ 64 := by
  simp only [streamInv, Bool.and_eq_true, decide_eq_true_eq] at h
  exact h.2

theorem exec_treeInv {i : Instr} {s t : State} (hi : i.isCommand = true) (hs : Inv s) (h : exec i s = .next t) : treeInv t := by
  obtain ⟨-, -, -, hin, hf, ht⟩ := hs
  have hl := length_lt_of_streamInv hin
  obtain ⟨w, -, ⟨-, rfl⟩ | ⟨-, e, u, -, rfl⟩ | ⟨-, hp, u, hb, -, rfl⟩⟩ := exec_next hi h
  · exact ht
  · exact treeInv_of_invalid rfl
  · exact bodyOf_treeInv (s := prologue w s) (u := u) ht hf hl hp hb

theorem step_treeInv {s t : State} (hs : Inv s) (h : step s = .next t) : treeInv t := by
  have ⟨hb, _, _, _, _, ht⟩ := hs
  have hbusy := (boundary_iff.mp hb).1
  cases step_next h with
  | idle h => exact h ▸ ht
  | command i q hi h => exact exec_treeInv (s := popHost s q) hi hs h
  | illegal w q h =>
    rcases execIllegal_next h with rfl | ⟨-, rfl⟩
    · exact ht
    · exact treeInv_of_invalid rfl
  | host a q hq h =>
    rcases hostAct_next h with rfl | ⟨o, p, d, rfl⟩ | ⟨b, -, -, rfl⟩
    · exact treeInv_of_invalid rfl
    · exact ht
    · exact ht
  | failedToken hb' => rw [hbusy] at hb'; exact absurd hb' (by decide)
  | token hb' => rw [hbusy] at hb'; exact absurd hb' (by decide)

end Sys2Proof.Machine

open Sys2Proof Sys2Proof.Machine

/-- Settles O51: the parts of the invariant, each kept by every step. -/
theorem stepKeepsTheInvariants : Obligations.StepKeepsTheInvariants := by
  intro s t hs h
  have htree := step_treeInv hs h
  obtain ⟨hb, hf, he, hin, hfr, -⟩ := hs
  obtain ⟨hb', hf'⟩ := stepKeepsTheFlags s t hb hf h
  exact ⟨hb', hf', stepKeepsTheErrorRegisters s t he h, stepKeepsInPos s t hin h, stepKeepsFreq s t hb hfr h, htree⟩

end

section
/-! SUPPORT. Two runs side by side (R40, R119): on states that differ in invalid array entries only, the body of every command
ends in the same way, in states that differ in invalid entries only. -/

namespace Sys2Proof.Machine

/-! ### Updates that do not touch the arrays -/

/-- The update changes neither the arrays nor what makes them valid, and does not read them. -/
def Carries (g : State → State) : Prop := ∀ (s : State) (f : Vector Count 257) (n : Vector Node 513) (c : CodeTable),
  g { s with freq := f, node := n, codes := c } = { g s with freq := f, node := n, codes := c } ∧
    (g s).freq = s.freq ∧ (g s).node = s.node ∧ (g s).codes = s.codes ∧ (g s).tree = s.tree ∧
    (g s).flags.freqValid = s.flags.freqValid ∧ (g s).flags.treeValid = s.flags.treeValid ∧
    (g s).flags.codesValid = s.flags.codesValid

theorem sameVisible_map {s t : State} (h : sameVisible s t) (g : State → State)
    (hg : Carries g := by exact fun _ _ _ _ => ⟨rfl, rfl, rfl, rfl, rfl, rfl, rfl, rfl⟩) : sameVisible (g s) (g t) := by
  obtain ⟨⟨f, n, c, rfl⟩, hf, hn, hc⟩ := sameVisible_iff.mp h
  obtain ⟨hup, hfr, hnd, hcd, htr, h1, h2, h3⟩ := hg s f n c
  rw [sameVisible_iff, hup, hfr, hnd, hcd, htr, h1, h2, h3]
  exact ⟨⟨_, _, _, rfl⟩, hf, hn, hc⟩

theorem sameVisible.scalars {s t : State} (h : sameVisible s t) : SameScalars s t := (sameVisible_iff.mp h).1

theorem sameVisible_refl (s : State) : sameVisible s s :=
  sameVisible_iff.mpr ⟨⟨_, _, _, rfl⟩, fun _ => rfl, fun _ _ _ => rfl, fun _ => ⟨rfl, fun _ _ => ⟨rfl, rfl⟩⟩⟩

/-- A read of IN answers the same on both sides (R52). -/
theorem readBits_same {s t : State} (h : SameScalars s t) (n : Nat) :
    (readBits n s = none ∧ readBits n t = none) ∨
      ∃ v, readBits n s = some (v, consumeIn n s) ∧ readBits n t = some (v, consumeIn n t) := by
  obtain ⟨f, nd, c, rfl⟩ := h
  by_cases hr : s.remaining < n
  · exact .inl ⟨readBits_exhausted hr, readBits_exhausted hr⟩
  · exact .inr ⟨_, readBits_ok (Nat.not_lt.mp hr), readBits_ok (Nat.not_lt.mp hr)⟩

/-- The bodies end in the same way: in states related by `D`, or by the same error in states related by `E`. -/
def Ran.Rel (D E : State → State → Prop) : Ran → Ran → Prop
  | .done s, .done t => D s t
  | .raised e s, .raised e' t => e = e' ∧ E s t
  | .broken f, .broken f' => f = f'
  | _, _ => False

theorem Ran.Rel.mono {D D' E E' : State → State → Prop} {r r' : Ran} (h : r.Rel D E r') (hd : ∀ s t, D s t → D' s t)
    (he : ∀ s t, E s t → E' s t) : r.Rel D' E' r' := by
  cases r <;> cases r'
  case done.done => exact hd _ _ h
  case raised.raised => exact ⟨h.1, he _ _ h.2⟩
  all_goals exact h

/-- What is known of how the first body ends may be used on the states it ends in. -/
theorem Ran.Rel.and_ends {D E : State → State → Prop} {P Q : State → Prop} {r r' : Ran} (h : r.Rel D E r') (he : r.Ends P Q) :
    r.Rel (fun s t => P s ∧ D s t) (fun s t => Q s ∧ E s t) r' := by
  cases r <;> cases r'
  case done.done => exact ⟨he, h⟩
  case raised.raised => exact ⟨h.1, he, h.2⟩
  all_goals exact h

/-- The capture drops every valid flag (R250). -/
theorem raise_same {s t : State} (h : SameScalars s t) (e : ErrCode) : sameVisible (raise e s) (raise e t) := by
  obtain ⟨f, n, c, rfl⟩ := h
  exact sameVisible_of_invalid ⟨f, n, c, rfl⟩ rfl rfl rfl

theorem finish_same {r r' : Ran} {t : State} (h : r.Rel sameVisible SameScalars r') (hn : r.finish = .next t) :
    ∃ t', r'.finish = .next t' ∧ sameVisible t t' := by
  cases r <;> cases r' <;> simp only [Ran.Rel] at h
  case done.done u u' =>
    simp only [Ran.finish, Host.Outcome.next.injEq] at hn
    exact ⟨_, rfl, hn ▸ sameVisible_map h complete⟩
  case raised.raised e u e' u' =>
    simp only [Ran.finish, Host.Outcome.next.injEq] at hn
    obtain ⟨rfl, hu⟩ := h
    exact ⟨_, rfl, hn ▸ raise_same hu e⟩
  case broken.broken => simp [Ran.finish] at hn

/-! ### COUNT -/

/-- States that differ in the arena and the code table only. -/
def SameButTree (s t : State) : Prop := ∃ n c, t = { s with node := n, codes := c }

theorem SameButTree.scalars {s t : State} (h : SameButTree s t) : SameScalars s t := by
  obtain ⟨n, c, rfl⟩ := h
  exact ⟨_, _, _, rfl⟩

theorem countLoop_same {s t : State} (h : SameButTree s t) (fuel : Nat) :
    (countLoop fuel s).Rel SameButTree SameButTree (countLoop fuel t) := by
  induction fuel generalizing s t with
  | zero => exact rfl
  | succ fuel ih =>
    rw [countLoop, countLoop]
    rcases readBits_same h.scalars 8 with ⟨h1, h2⟩ | ⟨r, h1, h2⟩ <;> rw [h1, h2]
    · exact h
    · obtain ⟨n, c, rfl⟩ := h
      by_cases hfull : s.freq[byteIdx r] = maxCount s.params
      · simp only [consumeIn_freq, consumeIn_params, hfull, if_true]
        exact ⟨rfl, n, c, rfl⟩
      · simp only [consumeIn_freq, consumeIn_params, hfull, if_false]
        exact ih ⟨n, c, rfl⟩

theorem countBody_same {s t : State} (h : SameScalars s t) : (countBody s).Rel sameVisible SameScalars (countBody t) := by
  obtain ⟨f, n, c, rfl⟩ := h
  have hrem : ({ s with freq := f, node := n, codes := c } : State).remaining = s.remaining := rfl
  have hloop := countLoop_same (s := zeroFreq (startCall s))
    (t := zeroFreq (startCall { s with freq := f, node := n, codes := c })) ⟨n, c, rfl⟩ (s.remaining / 8 + 1)
  have hends := countLoop_ends (.refl (zeroFreq (startCall s))) (s.remaining / 8 + 1)
  rw [countBody, countBody, hrem]
  cases h1 : countLoop (s.remaining / 8 + 1) (zeroFreq (startCall s)) <;>
    cases h2 : countLoop (s.remaining / 8 + 1) (zeroFreq (startCall { s with freq := f, node := n, codes := c })) <;>
    rw [h1, h2] at hloop <;> simp only [Ran.Rel] at hloop
  case done.done u u' =>
    rw [h1] at hends
    obtain ⟨i, g, k, rfl, -⟩ := hends
    obtain ⟨n', c', rfl⟩ := hloop
    exact sameVisible_iff.mpr ⟨⟨_, _, _, rfl⟩, fun _ => rfl, fun hv => (Bool.false_ne_true hv).elim,
      fun hv => (Bool.false_ne_true hv).elim⟩
  case raised.raised => exact ⟨hloop.1, hloop.2.scalars⟩
  case broken.broken => exact hloop

/-! ### BUILD -/

theorem NodesAgree.mono {m n : Nat} {a b : Vector Node 513} (h : NodesAgree n a b) (hm : m ≤ n) : NodesAgree m a b :=
  fun i hi => h i (by omega)

/-- The same PQ and SEQ, and arenas with the same entries below SEQ. -/
structure CtxAgree (c d : BuildCtx) : Prop where
  pq : c.pq = d.pq
  seq : c.seq = d.seq
  nodes : NodesAgree c.seq c.node d.node

theorem CtxAgree.add {c d : BuildCtx} (h : CtxAgree c d) (n : Node) : CtxAgree (c.add n) (d.add n) := by
  obtain ⟨pq, seq, node⟩ := c
  obtain ⟨pq', seq', node'⟩ := d
  obtain ⟨rfl, rfl, hn⟩ := h
  refine ⟨rfl, rfl, fun i hi => ?_⟩
  simp only [BuildCtx.add, Fin.getElem_fin, Vector.getElem_setIfInBounds] at hi ⊢
  split
  · rfl
  · exact hn i (by simp only []; omega)

theorem CtxAgree.foldl {c d : BuildCtx} (h : CtxAgree c d) (leaves : List Node) :
    CtxAgree (leaves.foldl BuildCtx.add c) (leaves.foldl BuildCtx.add d) := by
  induction leaves generalizing c d with
  | nil => exact h
  | cons n leaves ih => exact ih (h.add n)

theorem CtxAgree.mergeLoop {c d : BuildCtx} (h : CtxAgree c d) (fuel : Nat) :
    CtxAgree (mergeLoop fuel c) (mergeLoop fuel d) := by
  induction fuel generalizing c d with
  | zero => exact h
  | succ fuel ih =>
    rw [Machine.mergeLoop, Machine.mergeLoop, ← h.pq]
    split
    · exact h
    · split
      · exact h
      · refine ih (CtxAgree.add ?_ _)
        exact ⟨rfl, h.seq, h.nodes⟩

theorem builtCtx_agree (freq : Vector Count 257) (a b : Vector Node 513) : CtxAgree (builtCtx freq a) (builtCtx freq b) := by
  have h0 : CtxAgree { node := a, pq := [], seq := 0 } { node := b, pq := [], seq := 0 } :=
    ⟨rfl, rfl, fun i hi => absurd hi (Nat.not_lt_zero _)⟩
  have hl : CtxAgree (leafCtx freq a) (leafCtx freq b) := h0.foldl _
  rw [builtCtx, builtCtx, ← hl.pq]
  exact hl.mergeLoop _

theorem buildBody_same {s t : State} (h : sameVisible s t) (hv : s.flags.freqValid = true) :
    (buildBody s).Rel sameVisible SameScalars (buildBody t) := by
  obtain ⟨⟨f, n, c, rfl⟩, hf, -, -⟩ := sameVisible_iff.mp h
  obtain rfl : s.freq = f := hf hv
  obtain ⟨hpq, hseq, hnodes⟩ := builtCtx_agree s.freq s.node n
  rw [buildBody_eq, buildBody_eq]
  dsimp only
  rw [← hpq, ← hseq]
  split
  · refine sameVisible_iff.mpr ⟨⟨_, _, _, rfl⟩, fun _ => rfl, fun _ => hnodes.mono ?_,
      fun hc => (Bool.false_ne_true hc).elim⟩
    simp only [BitVec.toNat_ofNat]
    exact Nat.mod_le _ _
  · exact rfl

/-! ### The commands that walk a held tree -/

/-- The tree of a state stands below NODE_COUNT, so both arenas hold it. -/
theorem treeAt_same {s t : State} {tr : HTree} (h : sameVisible s t) (hv : s.flags.treeValid = true) (ht : treeAt s tr = true) :
    treeAt t tr = true := by
  obtain ⟨⟨f, n, c, rfl⟩, -, hn, -⟩ := sameVisible_iff.mp h
  obtain ⟨hh, hnd, hlt, hsz, hlv, hs⟩ := treeAt_iff.mp ht
  obtain ⟨hh', hp'⟩ := holds_congr (nd := n) hh fun j hj => by
    have hj' := places_lt hh j hj
    have := hn hv ⟨j.toNat, hj'⟩ (hlt j hj)
    rw [nodeAt_eq hj', nodeAt_eq hj']
    simpa [entryAt, hj'] using this.symm
  refine treeAt_iff.mpr ⟨hh', ?_, ?_, hsz, hlv, hs⟩
  · exact hp' ▸ hnd
  · exact hp' ▸ hlt

theorem wrhdrBody_eq {s : State} {t : HTree} (h : treeAt s t = true) :
    wrhdrBody s = .done (appendOut t.header (writeBits 32 s.params.magic.toNat s)) := by
  have hser := ser_eq (fuel := nodeCap) (writeBits 32 s.params.magic.toNat s) (treeAt_iff.mp h).1 (size_le_of_treeAt h)
  rw [wrhdrBody, hser]

theorem wrhdrBody_same {s t : State} {tr : HTree} (h : sameVisible s t) (hv : s.flags.treeValid = true)
    (ht : treeAt s tr = true) : (wrhdrBody s).Rel sameVisible SameScalars (wrhdrBody t) := by
  rw [wrhdrBody_eq ht, wrhdrBody_eq (treeAt_same h hv ht)]
  exact sameVisible_map h fun u => appendOut tr.header (writeBits 32 u.params.magic.toNat u)

/-- DECODE's body refuses a leaf root (R212). -/
theorem decodeBody_leaf {s : State} {y : Sym} (h : treeAt s (.leaf y) = true) : decodeBody s = .raised .treeLeafRoot s := by
  obtain ⟨n, hn, hleaf, -⟩ := holds_leaf (treeAt_iff.mp h).1
  simp only [decodeBody, hn, hleaf, if_true]

/-- DECODE's body on a tree with an internal root is the state machine on the tree (R211, R218). -/
theorem decodeBody_node {s : State} {l r : HTree} (hl : s.inp.bits.length < 2 ^ 64) (h : treeAt s (.node l r) = true) :
    decodeBody s = decodeAnswer s s.remaining (descend (.node l r) (.node l r) s.restIn) := by
  have hh := (treeAt_iff.mp h).1
  obtain ⟨n, hn, hleaf, -, -⟩ := holds_node hh
  simp only [decodeBody, hn, hleaf, Bool.false_eq_true, if_false]
  rw [decodeLoop_eq hl rfl (by rw [length_restIn]; omega) hh ⟨l, r, rfl⟩ hh ⟨l, r, rfl⟩, length_restIn]

theorem decodeAnswer_same {s t : State} (h : sameVisible s t) (n : Nat) (r : List Sym × Option (List Bool)) :
    (decodeAnswer s n r).Rel sameVisible SameScalars (decodeAnswer t n r) := by
  obtain ⟨ys, rest⟩ := r
  cases rest with
  | none => exact ⟨rfl, (sameVisible_map h (decoded n ys)).scalars⟩
  | some rest =>
    exact sameVisible_map h fun u => { decoded (n - rest.length) ys u with flags := { u.flags with sent := true } }

theorem decodeBody_same {s t : State} {tr : HTree} (h : sameVisible s t) (hv : s.flags.treeValid = true)
    (ht : treeAt s tr = true) (hl : s.inp.bits.length < 2 ^ 64) :
    (decodeBody s).Rel sameVisible SameScalars (decodeBody t) := by
  have ht' := treeAt_same h hv ht
  obtain ⟨f, n, c, rfl⟩ := h.scalars
  cases tr with
  | leaf y =>
    rw [decodeBody_leaf ht, decodeBody_leaf ht']
    exact ⟨rfl, h.scalars⟩
  | node l r =>
    have ht' := decodeBody_node (s := { s with freq := f, node := n, codes := c }) hl ht'
    rw [decodeBody_node hl ht, ht']
    exact decodeAnswer_same h _ _

/-! ### DERIVE -/

theorem CodesAgree.put {c d : CodeTable} (h : CodesAgree c d) (j : SymIdx) (l : BitVec 9) (v : BitVec 256) :
    CodesAgree (c.put j l v) (d.put j l v) := by
  refine ⟨by simp only [CodeTable.put, h.1], fun k hk => ?_⟩
  by_cases hkj : k = j
  · subst hkj
    obtain ⟨-, hl, hv⟩ := put_self c k l v
    obtain ⟨-, hl', hv'⟩ := put_self d k l v
    exact ⟨hl.trans hl'.symm, hv.trans hv'.symm⟩
  · obtain ⟨he, hl, hv⟩ := put_ne hkj c l v
    obtain ⟨-, hl', hv'⟩ := put_ne hkj d l v
    obtain ⟨h1, h2⟩ := h.2 k (he ▸ hk)
    exact ⟨hl.trans (h1.trans hl'.symm), hv.trans (h2.trans hv'.symm)⟩

theorem CodesAgree.foldl {c d : CodeTable} (h : CodesAgree c d) (freq : Vector Count 257) (ps : List (List Bool × Sym)) :
    CodesAgree (ps.foldl (putPath freq 0 0) c) (ps.foldl (putPath freq 0 0) d) := by
  induction ps generalizing c d with
  | nil => exact h
  | cons p ps ih =>
    refine ih ?_
    simp only [putPath]
    split
    · exact h
    · split
      · exact h.put _ _ _
      · exact h

/-- The code table DERIVE makes of a tree, over what the table held. -/
def derivedCodes (t : HTree) (freq : Vector Count 257) (c : CodeTable) : CodeTable :=
  t.paths.foldl (putPath freq 0 0) c.noEntries

theorem deriveBody_eq {s : State} {t : HTree} (h : treeAt s t = true) : deriveBody s = .done { s with
    codes := derivedCodes t s.freq s.codes
    cnt := { s.cnt with cntSym := BitVec.ofNat 64 (derivedCodes t s.freq s.codes).countEntries }
    flags := { s.flags with codesValid := true } } := by
  rw [deriveBody, (deriveBody_recorded h).1]
  rfl

theorem derivedCodes_agree (t : HTree) (freq : Vector Count 257) (c d : CodeTable) :
    CodesAgree (derivedCodes t freq c) (derivedCodes t freq d) := by
  have h0 : CodesAgree c.noEntries d.noEntries := ⟨rfl, fun k hk => by simp [CodeTable.noEntries] at hk⟩
  exact h0.foldl freq t.paths

theorem deriveBody_same {s t : State} {tr : HTree} (h : sameVisible s t) (hv : s.flags.treeValid = true)
    (hf : s.flags.freqValid = true) (ht : treeAt s tr = true) :
    (deriveBody s).Rel sameVisible SameScalars (deriveBody t) := by
  rw [deriveBody_eq ht, deriveBody_eq (treeAt_same h hv ht)]
  obtain ⟨⟨f, n, c, rfl⟩, hfr, hn, -⟩ := sameVisible_iff.mp h
  obtain rfl : s.freq = f := hfr hf
  have hc := derivedCodes_agree tr s.freq s.codes c
  refine sameVisible_iff.mpr ⟨⟨s.freq, n, derivedCodes tr s.freq c, ?_⟩, fun _ => rfl, fun _ => hn hv, fun _ => hc⟩
  simp only [CodeTable.countEntries, hc.1]

/-! ### ENCODE -/

/-- Both sides write the same code where the symbol has an entry. -/
theorem writeCode_same {s t : State} {k : SymIdx} (h : sameVisible s t) (hv : s.flags.codesValid = true)
    (hk : s.codes.entry[k] = true) : sameVisible (writeCode k s) (writeCode k t) := by
  obtain ⟨hl, hc⟩ := ((sameVisible_iff.mp h).2.2.2 hv).2 k hk
  rw [writeCode, writeCode, ← hl, ← hc]
  exact sameVisible_map h (writeBits s.codes.len[k].toNat s.codes.val[k].toNat)

/-- A complete table of a built tree has the sentinel's code (R38 (f), R133, R162). -/
theorem sentinel_entry {freq : Vector Count 257} {t : HTree} {c : CodeTable} (hb : t.built = true)
    (hc : codesFor freq t c = true) (hf : freq[sentinelIdx] = 1) : c.entry[sentinelIdx] = true := by
  have hmem : symOf sentinelIdx ∈ t.leaves := by
    cases t with
    | leaf y => simp [HTree.built] at hb
    | node l r =>
      simp only [HTree.built, Bool.and_eq_true, decide_eq_true_eq] at hb
      exact hb.2
  have hk := List.all_eq_true.mp hc sentinelIdx (List.mem_finRange _)
  rw [Bool.and_eq_true, beq_iff_eq] at hk
  rw [hk.1, hf, decide_eq_true hmem]
  rfl

theorem encodeLoop_same {s t : State} (h : sameVisible s t) (hv : s.flags.codesValid = true) (fuel : Nat) :
    (encodeLoop fuel s).Rel sameVisible sameVisible (encodeLoop fuel t) := by
  induction fuel generalizing s t with
  | zero => exact rfl
  | succ fuel ih =>
    rw [encodeLoop, encodeLoop]
    rcases readBits_same h.scalars 8 with ⟨h1, h2⟩ | ⟨r, h1, h2⟩ <;> rw [h1, h2]
    · exact h
    · have h8 := sameVisible_map h (consumeIn 8)
      have he : t.codes.entry = s.codes.entry := ((sameVisible_iff.mp h).2.2.2 hv).1.symm
      cases hk : s.codes.entry[byteIdx r] with
      | true =>
        simp only [consumeIn_codes, he, hk, if_true]
        exact ih (sameVisible_map (writeCode_same h8 hv hk) countSym) hv
      | false =>
        simp only [consumeIn_codes, he, hk, Bool.false_eq_true, if_false]
        exact ih (sameVisible_map h8 countSkip) hv

theorem encodeBody_same {s t : State} (h : sameVisible s t) (hv : s.flags.codesValid = true)
    (hsent : s.codes.entry[sentinelIdx] = true) : (encodeBody s).Rel sameVisible SameScalars (encodeBody t) := by
  have hlen : t.inp.bits = s.inp.bits := by
    obtain ⟨f, n, c, rfl⟩ := h.scalars
    rfl
  have hloop := encodeLoop_same (sameVisible_map h inRewind) hv (s.inp.bits.length / 8 + 1)
  have hends := encodeLoop_ends (s := inRewind s) (.refl _) (s.inp.bits.length / 8 + 1)
  rw [encodeBody, encodeBody, hlen]
  cases h1 : encodeLoop (s.inp.bits.length / 8 + 1) (inRewind s) <;>
    cases h2 : encodeLoop (s.inp.bits.length / 8 + 1) (inRewind t) <;>
    rw [h1, h2] at hloop <;> simp only [Ran.Rel] at hloop
  case done.done u u' =>
    rw [h1] at hends
    obtain ⟨i, o, k, rfl, -⟩ := hends
    exact writeCode_same hloop hv hsent
  case raised.raised => exact ⟨hloop.1, hloop.2.scalars⟩
  case broken.broken => exact hloop

/-! ### RDHDR -/

theorem NodesAgree.set {n : Nat} {a b : Vector Node 513} (h : NodesAgree n a b) (i : Fin 513) (x : Node) :
    NodesAgree n (a.set i x) (b.set i x) := by
  intro j hj
  simp only [Fin.getElem_fin, Vector.getElem_set]
  split
  · rfl
  · exact h j hj

theorem NodesAgree.set_next {a b : Vector Node 513} {i : Fin 513} (h : NodesAgree i.val a b) (x : Node) :
    NodesAgree (i.val + 1) (a.set i x) (b.set i x) := by
  intro j hj
  simp only [Fin.getElem_fin, Vector.getElem_set]
  split
  · rfl
  · exact h j (by omega)

/-- Inside a header read: the arenas agree on the entries made, and only such entries wait on the stack. -/
structure HdrAlike (s t : State) : Prop where
  scalars : SameScalars s t
  nodes : NodesAgree s.tree.nodeCount.toNat s.node t.node
  frames : ∀ stack, s.hdrStack = some stack → ∀ f ∈ stack, f.node.val < s.tree.nodeCount.toNat

theorem HdrAlike.consumeIn {s t : State} (h : HdrAlike s t) (n : Nat) : HdrAlike (consumeIn n s) (consumeIn n t) := by
  obtain ⟨⟨f, nd, c, rfl⟩, hn, hf⟩ := h
  exact ⟨⟨_, _, _, rfl⟩, hn, hf⟩

theorem returnChild_same {s t : State} {stack : List HdrFrame} (h : HdrAlike s t)
    (hk : ∀ f ∈ stack, f.node.val < s.tree.nodeCount.toNat) (c : NodeIdx) :
    HdrAlike (returnChild stack c s) (returnChild stack c t) := by
  induction stack generalizing s t c with
  | nil =>
    obtain ⟨⟨f, nd, k, rfl⟩, hn, -⟩ := h
    exact ⟨⟨_, _, _, rfl⟩, hn, fun st hst => by simp [returnChild] at hst⟩
  | cons fr stack ih =>
    obtain ⟨⟨f, nd, k, rfl⟩, hn, hf⟩ := h
    have hrest : ∀ f ∈ stack, f.node.val < s.tree.nodeCount.toNat := fun f hf => hk f (by simp [hf])
    cases fr with
    | wantLeft i =>
      refine ⟨⟨_, _, _, rfl⟩, hn, fun st hst f hfst => ?_⟩
      simp only [returnChild, Option.some.injEq] at hst
      subst hst
      rcases List.mem_cons.mp hfst with rfl | hfst
      · exact hk (.wantLeft i) (by simp)
      · exact hrest f hfst
    | wantRight i l =>
      have hi : s.node[i] = nd[i] := hn i (hk (.wantRight i l) (by simp))
      have hset : HdrAlike { s with node := s.node.set i { s.node[i] with left := l, right := c } }
          { s with freq := f, node := nd.set i { nd[i] with left := l, right := c }, codes := k } :=
        ⟨⟨_, _, _, rfl⟩, hi ▸ hn.set i { s.node[i] with left := l, right := c }, hf⟩
      exact ih hset hrest (nodeIdx i)

theorem toNat_succ_nodeCount {n : NodeIdx} (h : n.toNat < 513) : (n + 1).toNat = n.toNat + 1 := by
  have h1 : (1 : NodeIdx).toNat = 1 := rfl
  rw [BitVec.toNat_add, h1]
  omega

/-- An accepted node is written at NODE_COUNT on both sides. -/
theorem NodesAgree.alloc {a b : Vector Node 513} {n : NodeIdx} {i : Fin 513} (h : NodesAgree n.toNat a b) (hi : i.val = n.toNat)
    (x : Node) : NodesAgree (n + 1).toNat (a.set i x) (b.set i x) := by
  rw [toNat_succ_nodeCount (hi ▸ i.isLt), ← hi]
  rw [← hi] at h
  exact h.set_next x

/-- `NODE_COUNT <- NODE_COUNT + 1` (R183). -/
def takeEntry (s : State) : State := { s with tree := { s.tree with nodeCount := s.tree.nodeCount + 1 } }

/-- The capacity check answers the same on both sides (R186). -/
theorem allocNode_same {s t : State} (h : SameScalars s t) : (allocNode s = none ∧ allocNode t = none) ∨
    ∃ i : Fin 513, i.val = s.tree.nodeCount.toNat ∧ allocNode s = some (i, takeEntry s) ∧
      allocNode t = some (i, takeEntry t) := by
  obtain ⟨f, n, c, rfl⟩ := h
  by_cases hc : s.tree.nodeCount.toNat < 513
  · exact .inr ⟨⟨_, hc⟩, rfl, allocNode_some hc, allocNode_some (s := { s with freq := f, node := n, codes := c }) hc⟩
  · exact .inl ⟨allocNode_none (Nat.not_lt.mp hc), allocNode_none (Nat.not_lt.mp hc)⟩

theorem takeEntry_scalars {s t : State} (h : SameScalars s t) : SameScalars (takeEntry s) (takeEntry t) := by
  obtain ⟨f, n, c, rfl⟩ := h
  exact ⟨_, _, _, rfl⟩

section
variable {s t : State} {stack : List HdrFrame} (h : HdrAlike s t) (hk : ∀ f ∈ stack, f.node.val < s.tree.nodeCount.toNat)
include h hk

theorem openInternal_same {i : Fin 513} (hi : i.val = s.tree.nodeCount.toNat) :
    HdrAlike (openInternal stack i (takeEntry s)) (openInternal stack i (takeEntry t)) := by
  obtain ⟨⟨f, n, c, rfl⟩, hn, -⟩ := h
  refine ⟨⟨_, _, _, rfl⟩, hn.alloc hi _, fun st hst g hg => ?_⟩
  simp only [openInternal, takeEntry, Option.some.injEq] at hst ⊢
  subst hst
  rw [toNat_succ_nodeCount (hi ▸ i.isLt)]
  rcases List.mem_cons.mp hg with rfl | hg
  · exact Nat.lt_succ_of_le hi.le
  · exact Nat.lt_succ_of_lt (hk g hg)

theorem closeLeaf_same {i : Fin 513} (hi : i.val = s.tree.nodeCount.toNat) (y : Sym) :
    HdrAlike (closeLeaf stack i y (takeEntry s)) (closeLeaf stack i y (takeEntry t)) := by
  obtain ⟨⟨f, n, c, rfl⟩, hn, hf⟩ := h
  have hlt : ∀ g : HdrFrame, g.node.val < s.tree.nodeCount.toNat → g.node.val < (s.tree.nodeCount + 1).toNat := fun g hg => by
    rw [toNat_succ_nodeCount (hi ▸ i.isLt)]
    exact Nat.lt_succ_of_lt hg
  have hset : HdrAlike
      { takeEntry s with
        node := s.node.set i (Node.mkLeaf y 0)
        tree := { (takeEntry s).tree with leafCount := s.tree.leafCount + 1 } }
      { takeEntry s with
        freq := f, node := n.set i (Node.mkLeaf y 0), codes := c
        tree := { (takeEntry s).tree with leafCount := s.tree.leafCount + 1 } } :=
    ⟨⟨_, _, _, rfl⟩, hn.alloc hi _, fun st hst g hg => hlt g (hf st hst g hg)⟩
  exact returnChild_same hset (fun g hg => hlt g (hk g hg)) (nodeIdx i)

/-- The reader's turn does the same on both sides. -/
theorem desToken_same : (desToken stack s).Rel HdrAlike SameScalars (desToken stack t) := by
  rw [desToken, desToken]
  rcases readBits_same h.scalars 1 with ⟨h1, h2⟩ | ⟨b, h1, h2⟩ <;> rw [h1, h2] <;> dsimp only
  · exact ⟨rfl, h.scalars⟩
  have hs1 := h.consumeIn 1
  rcases allocNode_same hs1.scalars with ⟨h1, h2⟩ | ⟨i, hi, h1, h2⟩ <;> rw [h1, h2] <;> dsimp only
  · exact ⟨rfl, hs1.scalars⟩
  have hs2 := takeEntry_scalars hs1.scalars
  by_cases hb : b = 0
  · rw [if_pos hb, if_pos hb]
    exact openInternal_same hs1 hk hi
  rw [if_neg hb, if_neg hb]
  rcases readBits_same hs2 9 with ⟨h1, h2⟩ | ⟨y, h1, h2⟩ <;> rw [h1, h2] <;> dsimp only
  · exact ⟨rfl, hs2⟩
  by_cases hy : symLegal y = true
  · rw [if_pos hy, if_pos hy]
    exact closeLeaf_same (hs1.consumeIn 9) hk hi y
  · rw [if_neg hy, if_neg hy]
    exact ⟨rfl, takeEntry_scalars (hs1.consumeIn 9).scalars⟩

end

theorem headerLoop_same {s t : State} (h : HdrAlike s t) (fuel : Nat) :
    (headerLoop fuel s).Rel HdrAlike SameScalars (headerLoop fuel t) := by
  induction fuel generalizing s t with
  | zero => exact rfl
  | succ fuel ih =>
    have hstack : t.hdrStack = s.hdrStack := by
      obtain ⟨f, n, c, rfl⟩ := h.scalars
      rfl
    rw [headerLoop, headerLoop, hstack]
    cases hst : s.hdrStack with
    | none => exact h
    | some stack =>
      have hd := desToken_same h (h.frames stack hst)
      dsimp only
      cases h1 : desToken stack s <;> cases h2 : desToken stack t <;> rw [h1, h2] at hd <;> simp only [Ran.Rel] at hd
      case done.done => exact ih hd
      case raised.raised => exact hd
      case broken.broken => exact hd

theorem rdhdrBody_same {s t : State} (h : SameScalars s t) : (rdhdrBody s).Rel sameVisible SameScalars (rdhdrBody t) := by
  have hs0 : SameScalars (startCall s) (startCall t) := by
    obtain ⟨f, n, c, rfl⟩ := h
    exact ⟨_, _, _, rfl⟩
  have hmag : (consumeIn 32 (startCall t)).params.magic = (consumeIn 32 (startCall s)).params.magic := by
    obtain ⟨f, n, c, rfl⟩ := h
    rfl
  have hstart : HdrAlike (magicRead s) (magicRead t) := by
    obtain ⟨f, n, c, rfl⟩ := h
    exact ⟨⟨_, _, _, rfl⟩, fun i hi => absurd hi (Nat.not_lt_zero _), fun st hst g hg => by
      simp only [magicRead, Option.some.injEq] at hst
      simp [← hst] at hg⟩
  rw [rdhdrBody, rdhdrBody]
  rcases readBits_same hs0 32 with ⟨h1, h2⟩ | ⟨m, h1, h2⟩ <;> simp only [h1, h2, hmag]
  · exact ⟨rfl, hs0⟩
  split
  · obtain ⟨f, n, c, rfl⟩ := h
    exact ⟨rfl, _, _, _, rfl⟩
  · have hread : ReadOn (magicRead s) (magicRead s) := .inl ⟨.refl _, by simp [magicRead]⟩
    refine ((headerLoop_same hstart (nodeCap + 1)).and_ends (headerLoop_ends hread _)).mono ?_ fun _ _ hu => hu.2
    rintro u u' ⟨⟨i, c, tr, nd, rfl, -⟩, ha⟩
    exact sameVisible_iff.mpr ⟨ha.scalars, fun hv => (Bool.false_ne_true hv).elim, fun _ => ha.nodes,
      fun hv => (Bool.false_ne_true hv).elim⟩

/-! ### Every command -/

/-- The first of two checks of R113 has held where both have. -/
theorem first_check_met {v c : Bool} {a b : ErrCode} (h : (if !v then some a else if c then some b else none) = none) :
    v = true := by
  cases v
  · simp at h
  · rfl

/-- A command word runs the same on both sides where its checks and its body do (R112). -/
theorem runCommand_same {w : Word} {check : State → Option ErrCode} {body : State → Ran} {s s' t : State}
    (h : sameVisible s s') (hc : check (prologue w s') = check (prologue w s))
    (hb : check (prologue w s) = none → (body (prologue w s)).Rel sameVisible SameScalars (body (prologue w s')))
    (hx : runCommand w check body s = .next t) : ∃ t', runCommand w check body s' = .next t' ∧ sameVisible t t' := by
  have hflags : s'.flags = s.flags := by
    obtain ⟨f, n, c, rfl⟩ := h.scalars
    rfl
  rw [runCommand] at hx
  rw [runCommand, hflags, hc]
  split at hx
  · rename_i hd
    simp only [Host.Outcome.next.injEq] at hx
    exact ⟨s', by rw [if_pos hd], hx ▸ h⟩
  · rename_i hd
    rw [if_neg hd]
    cases hp : check (prologue w s) with
    | some e =>
      simp only [hp, Host.Outcome.next.injEq] at hx
      exact ⟨_, rfl, hx ▸ raise_same (sameVisible_map h (prologue w)).scalars e⟩
    | none =>
      rw [hp] at hx
      exact finish_same (hb hp) hx

/-- The body of every command, its check having held (R113), ends in the same way on both sides. -/
theorem bodyOf_same {i : Instr} {s t : State} (h : sameVisible s t)
    (hfv : s.flags.treeValid = true → s.flags.treeOrigin = false → s.flags.freqValid = true)
    (hcv : s.flags.codesValid = true → s.flags.treeValid = true ∧ s.flags.treeOrigin = false)
    (hfreq : freqInv s = true) (htree : treeInv s) (hl : s.inp.bits.length < 2 ^ 64) (hp : precondition i s = none) :
    (bodyOf i s).Rel sameVisible SameScalars (bodyOf i t) := by
  cases i
  case clear =>
    obtain ⟨f, n, c, rfl⟩ := h.scalars
    exact sameVisible_refl (returnToReset s)
  case flush => exact sameVisible_map h outClose
  case count => exact countBody_same h.scalars
  case rdhdr => exact rdhdrBody_same h.scalars
  case build => exact buildBody_same h (by simpa [precondition] using hp)
  case derive =>
    have hv : s.flags.treeValid = true ∧ s.flags.treeOrigin = false := by simpa [precondition] using hp
    obtain ⟨tr, ht, -, -⟩ := htree hv.1
    exact deriveBody_same h hv.1 (hfv hv.1 hv.2) ht
  case wrhdr =>
    have hv : s.flags.treeValid = true := first_check_met hp
    obtain ⟨tr, ht, -, -⟩ := htree hv
    exact wrhdrBody_same h hv ht
  case decode =>
    have hv : s.flags.treeValid = true := first_check_met hp
    obtain ⟨tr, ht, -, -⟩ := htree hv
    exact decodeBody_same h hv ht hl
  case encode =>
    have hc : s.flags.codesValid = true := first_check_met hp
    obtain ⟨hv, ho⟩ := hcv hc
    obtain ⟨tr, -, hbuilt, hcodes⟩ := htree hv
    exact encodeBody_same h hc (sentinel_entry (hbuilt ho) (hcodes hc) ((freqInv_iff.mp hfreq).2 (hfv hv ho)))
  all_goals exact h

end Sys2Proof.Machine

open Sys2Proof Sys2Proof.Machine

/-- Settles O54: the checks read flags only, and the bodies end in the same way. -/
theorem unspecReachesNoCommand : Obligations.UnspecReachesNoCommand := by
  intro i s s' t hi hs _ h hx
  by_cases hn : i = .nop
  · subst hn
    rw [exec_nop] at hx ⊢
    simp only [Host.Outcome.next.injEq] at hx
    exact ⟨s', rfl, hx ▸ h⟩
  obtain ⟨-, hflags, -, hin, hfreq, htree⟩ := hs
  obtain ⟨hfv, hcv, -, -, -, -⟩ := flagsInv_iff.mp hflags
  have hl : s.inp.bits.length < 2 ^ 64 := length_lt_of_streamInv hin
  obtain ⟨w, -, -, hrun⟩ := exec_eq hi hn
  rw [hrun] at hx ⊢
  have hcheck : precondition i (prologue w s') = precondition i (prologue w s) := by
    obtain ⟨f, n, c, rfl⟩ := h.scalars
    cases i <;> rfl
  exact runCommand_same h hcheck (bodyOf_same (sameVisible_map h (prologue w)) hfv hcv hfreq htree hl) hx

end

section
/-! SUPPORT. OUT (R54, R56, R248): every command, and every step but AttachOut, leaves OUT's bits in place, and writes no closed
OUT (R113). -/

namespace Sys2Proof.Machine

/-- OUT keeps the bits it has (R248), and a closed OUT stays as it is (R113). -/
structure OutGrown (p q : OutPort) : Prop where
  bits : p.bits <+: q.bits
  closed : p.closed = true → q = p

theorem OutGrown.refl (p : OutPort) : OutGrown p p := ⟨List.prefix_rfl, fun _ => rfl⟩

theorem OutGrown.of_eq {p q : OutPort} (h : q = p) : OutGrown p q := h ▸ .refl p

theorem OutGrown.of_open {p q : OutPort} (hp : p.closed = false) (h : p.bits <+: q.bits) : OutGrown p q :=
  ⟨h, fun hc => absurd hc (by simp [hp])⟩

/-! ### WRHDR, ENCODE, DECODE: the bodies that write OUT -/

theorem readBits_out {n : Nat} {s : State} {p : BitVec n × State} (h : readBits n s = some p) : p.2.out = s.out := by
  obtain ⟨-, -, ht⟩ := readBits_some (v := p.1) (t := p.2) h
  rw [ht, consumeIn_out]

theorem writeBits_appends (n v : Nat) (s : State) : s.out.bits <+: (writeBits n v s).out.bits := List.prefix_append _ _

section
variable {s t : State} (h : s.out.bits <+: t.out.bits)
include h

theorem encodeLoop_appends (fuel : Nat) :
    (encodeLoop fuel t).Ends (s.out.bits <+: ·.out.bits) (s.out.bits <+: ·.out.bits) := by
  induction fuel generalizing t with
  | zero => trivial
  | succ fuel ih =>
    rw [encodeLoop]
    cases hr : readBits 8 t with
    | none => exact h
    | some p =>
      rw [← readBits_out hr] at h
      dsimp only
      split
      · exact ih (h.trans (writeBits_appends _ _ _))
      · exact ih h

theorem decodeLoop_appends (fuel : Nat) (ptr : NodeIdx) :
    (decodeLoop fuel ptr t).Ends (s.out.bits <+: ·.out.bits) (s.out.bits <+: ·.out.bits) := by
  induction fuel generalizing t ptr with
  | zero => trivial
  | succ fuel ih =>
    rw [decodeLoop]
    cases hr : readBits 1 t with
    | none => exact h
    | some p =>
      rw [← readBits_out hr] at h
      dsimp only
      split
      · trivial
      · split
        · trivial
        · split
          · split
            · exact h
            · exact ih (t := countSym _) (h.trans (writeBits_appends _ _ _)) _
          · exact ih h _

theorem ser_appends {node : Vector Node 513} {fuel : Nat} {i : NodeIdx} {u : State} (hs : ser node fuel i t = some u) :
    s.out.bits <+: u.out.bits := by
  induction fuel generalizing t u i with
  | zero => simp [ser] at hs
  | succ fuel ih =>
    rw [ser] at hs
    split at hs
    case h_1 => simp at hs
    case h_2 n _ =>
      split at hs
      · simp only [Option.some.injEq] at hs
        exact hs ▸ (h.trans (writeBits_appends _ _ _)).trans (writeBits_appends _ _ _)
      · split at hs
        case h_1 => simp at hs
        case h_2 s1 hl => exact ih (ih (h.trans (writeBits_appends _ _ _)) hl) hs

end

theorem encodeBody_appends (s : State) : (encodeBody s).Ends (s.out.bits <+: ·.out.bits) (s.out.bits <+: ·.out.bits) := by
  have h := encodeLoop_appends (s := s) (t := inRewind s) List.prefix_rfl (s.inp.bits.length / 8 + 1)
  rw [encodeBody]
  cases hl : encodeLoop (s.inp.bits.length / 8 + 1) (inRewind s) with
  | done t => rw [hl] at h; exact List.IsPrefix.trans h (writeBits_appends _ _ t)
  | raised e t => rw [hl] at h; exact h
  | broken f => trivial

theorem decodeBody_appends (s : State) : (decodeBody s).Ends (s.out.bits <+: ·.out.bits) (s.out.bits <+: ·.out.bits) := by
  rw [decodeBody]
  split
  · trivial
  · split
    · exact List.prefix_rfl
    · exact decodeLoop_appends List.prefix_rfl _ _

theorem wrhdrBody_appends (s : State) : (wrhdrBody s).Ends (s.out.bits <+: ·.out.bits) (s.out.bits <+: ·.out.bits) := by
  rw [wrhdrBody]
  split
  · trivial
  · rename_i t hs
    exact ser_appends (writeBits_appends _ _ s) hs

/-! ### The commands -/

theorem Reading.out {s t : State} (h : Reading s t) : t.out = s.out := by
  obtain ⟨i, c, tr, nd, st, rfl, -⟩ := h
  rfl

theorem HeaderRead.out {s t : State} (h : HeaderRead s t) : t.out = s.out := by
  obtain ⟨i, c, tr, nd, rfl, -⟩ := h
  rfl

theorem Counted.out {s t : State} (h : Counted s t) : t.out = s.out := by
  obtain ⟨i, f, c, rfl, -⟩ := h
  rfl

/-- The second of two checks of R113 has held where both have. -/
theorem second_check_met {v c : Bool} {a b : ErrCode} (h : (if !v then some a else if c then some b else none) = none) :
    c = false := by
  cases c
  · rfl
  · cases v <;> simp at h

/-- R113: a body that writes OUT starts on an open OUT only, its check having held. -/
theorem open_of_precondition {i : Instr} {s : State} (hi : i = .wrhdr ∨ i = .encode ∨ i = .decode)
    (h : precondition i s = none) : s.out.closed = false := by
  rcases hi with rfl | rfl | rfl <;> exact second_check_met h

theorem Ran.Ends.grown {s : State} {r : Ran} (h : r.Ends (s.out.bits <+: ·.out.bits) (s.out.bits <+: ·.out.bits))
    (ho : s.out.closed = false) : r.Ends (OutGrown s.out ·.out) (OutGrown s.out ·.out) :=
  h.mono (fun _ => .of_open ho) fun _ => .of_open ho

/-- What the body of every command whose check holds does to OUT, however it ends. -/
theorem bodyOf_out {i : Instr} {s : State} (hp : precondition i s = none) :
    (bodyOf i s).Ends (OutGrown s.out ·.out) (OutGrown s.out ·.out) := by
  cases i
  case wrhdr => exact (wrhdrBody_appends s).grown (open_of_precondition (by simp) hp)
  case encode => exact (encodeBody_appends s).grown (open_of_precondition (by simp) hp)
  case decode => exact (decodeBody_appends s).grown (open_of_precondition (by simp) hp)
  case count =>
    refine (countBody_ends s).mono ?_ fun _ hu => .of_eq hu.out
    rintro _ ⟨v, hv, rfl⟩
    exact .of_eq hv.out
  case build =>
    refine (buildBody_ends s).mono ?_ fun _ => False.elim
    rintro _ ⟨nd, tr, rfl⟩
    exact .refl _
  case derive =>
    refine (deriveBody_ends s).mono ?_ fun _ => False.elim
    rintro _ ⟨c, n, rfl⟩
    exact .refl _
  case rdhdr => exact (rdhdrBody_ends s).mono (fun _ hu => .of_eq hu.out) fun _ hu => .of_eq hu.out
  case flush =>
    refine ⟨List.prefix_rfl, fun hc => ?_⟩
    rw [outClose_out, ← hc]
  all_goals exact .refl _

theorem exec_out {i : Instr} {s t : State} (hi : i.isCommand = true) (h : exec i s = .next t) : OutGrown s.out t.out := by
  by_cases hn : i = .nop
  · subst hn
    simp only [exec_nop, Host.Outcome.next.injEq] at h
    exact h ▸ .refl _
  obtain ⟨w, -, -, hx⟩ := exec_eq hi hn
  rcases runCommand_next ((hx s).symm.trans h) with ⟨-, -, rfl⟩ | ⟨e, -, rfl⟩ | ⟨e, u, hp, hu, rfl⟩ | ⟨u, hp, hu, rfl⟩
  · exact .refl _
  · exact .refl _
  · have hb := bodyOf_out hp
    rw [hu] at hb
    exact hb
  · have hb := bodyOf_out hp
    rw [hu] at hb
    exact hb

/-! ### The step -/

theorem execIllegal_out {w : Word} {s t : State} (h : execIllegal w s = .next t) : t.out = s.out := by
  rcases execIllegal_next h with rfl | ⟨-, rfl⟩ <;> rfl

/-- No host action but AttachOut writes OUT (R280); a reset does not (R270). -/
theorem hostAct_out {a : HostAction} {s t : State} (ha : a ≠ .attachOut) (h : hostAct a s = .next t) : t.out = s.out := by
  cases a
  case attachOut => exact absurd rfl ha
  case attachIn b =>
    simp only [hostAct] at h
    split at h <;> simp only [Host.Outcome.next.injEq, reduceCtorEq] at h
    exact h ▸ rfl
  all_goals
    simp only [hostAct, Host.Outcome.next.injEq] at h
    exact h ▸ rfl

@[simp] theorem settleHeader_out (s : State) : (settleHeader s).out = s.out := by
  unfold settleHeader
  split <;> rfl

theorem ReadOn.out {s u : State} (h : ReadOn s u) : u.out = s.out := by
  rcases h with ⟨h, -⟩ | h
  · exact h.out
  · exact h.out

theorem step_out {s t : State} (h : step s = .next t) (hq : ∀ q, s.host.queue ≠ .attachOut :: q) : OutGrown s.out t.out := by
  cases step_next h with
  | idle h => exact h ▸ .refl _
  | command i q hi h => exact exec_out (s := popHost s q) hi h
  | illegal w q h => exact .of_eq (execIllegal_out (s := popHost s q) h)
  | host a q ha h => exact .of_eq (hostAct_out (s := popHost s q) (fun hn => hq q (hn ▸ ha)) h)
  | failedToken hb e u hu h => exact h ▸ .of_eq hu.out
  | token hb u hu h => exact h ▸ .of_eq ((settleHeader_out u).trans hu.out)

end Sys2Proof.Machine

open Sys2Proof Sys2Proof.Machine

/-- Settles O50: the bodies that write OUT append to it and start on an open OUT only; no other event writes its bits. -/
theorem stepOnlyAppendsToOut : Obligations.StepOnlyAppendsToOut := by
  intro s t h hq
  obtain ⟨⟨b, hb⟩, hclosed⟩ := step_out h hq
  exact ⟨⟨b, hb.symm⟩, hclosed⟩

end

section
/-! SUPPORT. The register window (R62 to R65): the fields of every word a read returns, which address is STATUS's, and what
the host's events leave unchanged. -/

namespace Sys2Proof.Machine

/-! ### The layouts -/

/-- The layout of STATUS (R62): bit 0 is BUSY, and so on up to OUT_CLOSED, bit 8. -/
theorem getLsbD_statusWord (s : State) (i : Nat) : (statusWord s).getLsbD i =
    [s.flags.busy, s.flags.done, s.flags.err, s.flags.freqValid, s.flags.treeValid, s.flags.treeOrigin, s.flags.codesValid,
      s.flags.sent, s.out.closed][i]?.getD false := by
  change ((0 : BitVec 23) ++ BitVec.ofBool s.out.closed ++ BitVec.ofBool s.flags.sent ++ BitVec.ofBool s.flags.codesValid
    ++ BitVec.ofBool s.flags.treeOrigin ++ BitVec.ofBool s.flags.treeValid ++ BitVec.ofBool s.flags.freqValid
    ++ BitVec.ofBool s.flags.err ++ BitVec.ofBool s.flags.done ++ BitVec.ofBool s.flags.busy).getLsbD i = _
  simp only [BitVec.getLsbD_append]
  rcases i with _|_|_|_|_|_|_|_|_|i <;> simp

/-- The layout of NODE_LINK (R63). -/
theorem getLsbD_linkWord (n : Node) (i : Nat) : (linkWord n).getLsbD i =
    if i < 10 then n.left.getLsbD i else if i < 20 then n.right.getLsbD (i - 10) else if i < 29 then n.sym.getLsbD (i - 20)
    else decide (i = 31) && n.leaf := by
  change (BitVec.ofBool n.leaf ++ (0 : BitVec 2) ++ n.sym ++ n.right ++ n.left).getLsbD i = _
  simp only [BitVec.getLsbD_append]
  grind

theorem linkWord_fields (n : Node) : (linkWord n).extractLsb' 0 10 = n.left ∧ (linkWord n).extractLsb' 10 10 = n.right ∧
    (linkWord n).extractLsb' 20 9 = n.sym ∧ (linkWord n).extractLsb' 29 2 = 0 ∧ (linkWord n).getLsbD 31 = n.leaf := by
  refine ⟨?_, ?_, ?_, ?_, by rw [getLsbD_linkWord]; simp⟩
  all_goals
    ext i hi
    simp only [BitVec.getElem_extractLsb', getLsbD_linkWord]
    grind

/-- The layout of CODE_INFO (R63) for a valid entry. -/
theorem getLsbD_codeInfoWord (l : BitVec 9) (i : Nat) : ((1 : BitVec 1) ++ (0 : BitVec 22) ++ l : Word).getLsbD i =
    if i < 9 then l.getLsbD i else decide (i = 31) := by
  simp only [BitVec.getLsbD_append]
  grind

/-- ERR_INFO (R62): its three fields shifted into place. -/
theorem errInfoWord_eq (c : BitVec 8) (k : BitVec 4) (e : BitVec 8) :
    (0 : BitVec 12) ++ c ++ k ++ e = (c.setWidth 32 <<< 12) ||| (k.setWidth 32 <<< 8) ||| e.setWidth 32 := by
  ext i hi
  simp only [BitVec.getElem_append, BitVec.getElem_or, BitVec.getElem_shiftLeft, BitVec.getElem_setWidth]
  grind

/-- PARAMS (R62): W_COUNT in bits 7..0, NODE_CAP above. -/
theorem toNat_paramsWord (p : Params) :
    ((0 : BitVec 14) ++ BitVec.ofNat 10 nodeCap ++ BitVec.ofNat 8 p.wCount).toNat = p.wCount + 513 * 2 ^ 8 := by
  have hp : p.wCount ≤ 32 := by simp only [Params.wCount]; omega
  rw [BitVec.toNat_append, BitVec.toNat_ofNat, Nat.mod_eq_of_lt (by omega), ← Nat.shiftLeft_add_eq_or_of_lt (by omega),
    BitVec.toNat_append]
  simp [nodeCap, Nat.add_comm]

theorem toNat_weightHigh (w : Weight) : ((w.extractLsb' 32 9).setWidth 32).toNat = w.toNat / 2 ^ 32 := by
  rw [BitVec.toNat_setWidth, BitVec.extractLsb'_toNat, Nat.shiftRight_eq_div_pow]
  omega

/-- A node index register is read whole. -/
theorem toNat_indexWord (i : NodeIdx) : (i.setWidth 32).toNat = i.toNat := by
  rw [BitVec.toNat_setWidth]
  omega

/-! ### Reads of the arrays -/

section
variable {s : State} {u : Word}

/-- NODE's three windows while the entry is valid (R40, R63). -/
theorem readReg_node {i : Fin 513} (hv : s.flags.treeValid = true) (hi : i.val < s.tree.nodeCount.toNat) :
    readReg s u (.nodeLink i) = linkWord s.node[i] ∧ readReg s u (.nodeWLo i) = s.node[i].w.extractLsb' 0 32 ∧
      readReg s u (.nodeWHi i) = (s.node[i].w.extractLsb' 32 9).setWidth 32 := by
  have hr : nodeReadable s i = true := by simp [nodeReadable, hv, hi]
  simp [readReg, hr]

/-- CODE_INFO, valid or not: bit 31 says which, and bits 30..9 are 0 (R63, log 4). -/
theorem readReg_codeInfo (k : SymIdx) : (readReg s u (.codeInfo k)).getLsbD 31 = codeReadable s k ∧
    (readReg s u (.codeInfo k)).extractLsb' 9 22 = 0 ∧
    (codeReadable s k = true → (readReg s u (.codeInfo k)).extractLsb' 0 9 = s.codes.len[k]) := by
  cases hr : codeReadable s k with
  | true =>
    simp only [readReg, hr, if_true]
    refine ⟨by rw [getLsbD_codeInfoWord]; simp, ?_, fun _ => ?_⟩
    all_goals
      ext i hi
      simp only [BitVec.getElem_extractLsb', getLsbD_codeInfoWord]
      grind
  | false =>
    simp only [readReg, hr]
    refine ⟨by simp, ?_, nofun⟩
    ext i hi
    have hmask : (0x000001FF#32).getLsbD (9 + i) = false := by
      rw [show 0x000001FF#32 = (0x1FF#9).setWidth 32 from rfl, BitVec.getLsbD_setWidth, BitVec.getLsbD_of_ge _ _ (by omega),
        Bool.and_false]
    simp [hmask]

end

/-! ### The address of STATUS -/

theorem scalarReg_status_iff {n : Nat} : scalarReg n = some .status ↔ n = 1 := by
  unfold scalarReg
  split <;> simp_all

theorem regAt_status_iff {a : Addr} : regAt a = some .status ↔ a = 0x0001 := by
  refine ⟨?_, fun h => h ▸ rfl⟩
  unfold regAt
  dsimp only
  cases hs : scalarReg a.toNat with
  | some r => exact fun h => BitVec.eq_of_toNat_eq (scalarReg_status_iff.mp (hs.trans h))
  | none =>
    cases windowIdx 257 0x0100 a.toNat
    case some => exact nofun
    cases windowIdx 513 0x0400 a.toNat
    case some => exact nofun
    cases windowIdx 513 0x0800 a.toNat
    case some => exact nofun
    cases windowIdx 513 0x0C00 a.toNat
    case some => exact nofun
    cases windowIdx 257 0x1000 a.toNat
    case some => exact nofun
    cases windowIdx (8 * 257) 0x2000 a.toNat <;> exact nofun

/-- STATUS is exact at any time (R65). -/
theorem readWindow_status (s : State) (u : Word) : readWindow s u 0x0001 = statusWord s := by
  unfold readWindow
  rw [regAt_status_iff.mpr rfl]
  simp [readReg]

/-- Every other read is UNSPEC while BUSY = 1 (R65). -/
theorem readWindow_busy {s : State} {u : Word} {a : Addr} (hb : s.flags.busy = true) (ha : a ≠ 0x0001) :
    readWindow s u a = u := by
  have h : regAt a ≠ some .status := fun h => ha (regAt_status_iff.mp h)
  simp [readWindow, hb, h]

/-- A read of an unlisted address is 0 while BUSY = 0 (R64). -/
theorem readWindow_unlisted {s : State} {u : Word} {a : Addr} (hb : s.flags.busy = false) (h : unlisted a.toNat = true) :
    readWindow s u a = 0 := by
  simp [readWindow, hb, regAt_unlisted h]

/-! ### The host's events -/

/-- A register read, and a write elsewhere than to CMD, is the step's event at any time (R61, R65). -/
theorem step_memRead {s : State} {a : Addr} {q : List HostAction} (hq : s.host.queue = .memRead a :: q) :
    step s = hostAct (.memRead a) (popHost s q) := by
  cases hb : s.flags.busy <;> simp [step, nextEvent, hb, nextAtBoundary, nextWhileBusy, hq]

theorem step_memWrite {s : State} {a : Addr} {v : Word} {q : List HostAction} (hq : s.host.queue = .memWrite a v :: q)
    (ha : a ≠ cmdAddr) : step s = hostAct (.memWrite a v) (popHost s q) := by
  cases hb : s.flags.busy <;> simp [step, nextEvent, hb, nextAtBoundary, nextWhileBusy, hq, ha]

theorem Reading.host {s t : State} (h : Reading s t) : t.host = s.host := by
  obtain ⟨i, c, tr, nd, st, rfl, -⟩ := h
  rfl

theorem HeaderRead.host {s t : State} (h : HeaderRead s t) : t.host = s.host := by
  obtain ⟨i, c, tr, nd, rfl, -⟩ := h
  rfl

theorem settleHeader_host (s : State) : (settleHeader s).host = s.host := by
  unfold settleHeader
  split <;> rfl

theorem ReadOn.host {s u : State} (h : ReadOn s u) : u.host = s.host := by
  rcases h with ⟨h, -⟩ | h
  · exact h.host
  · exact h.host

/-- The header reader's turn leaves the host's side alone. -/
theorem turn_host {s t : State} (he : nextEvent s = nextToken s) (h : step s = .next t) : t.host = s.host := by
  have key : (∃ e u, Reading s u ∧ t = raise e u) ∨ ∃ u, ReadOn s u ∧ t = settleHeader u := by
    rcases step_turn he with ⟨i, rest, stack, -, hd, hx⟩ | ⟨e, stack, hst, -, hx⟩ | ⟨-, hx⟩ <;> rw [hx] at h
    · exact execToken_next hd h
    · simp only [readHeaderToken, hst] at h
      exact settle_next (desToken_ends (.refl s) stack) h
    · simp at h
  rcases key with ⟨e, u, hu, rfl⟩ | ⟨u, hu, rfl⟩
  · exact hu.host
  · exact (settleHeader_host u).trans hu.host

end Sys2Proof.Machine

open Sys2Proof Sys2Proof.Machine

/-- Settles O56: STATUS is read exactly at any time, and its word is laid out bit by bit. -/
theorem statusLayout : Obligations.StatusLayout := by
  intro s u
  simp only [readWindow_status, getLsbD_statusWord]
  refine ⟨rfl, rfl, rfl, rfl, rfl, rfl, rfl, rfl, rfl, ?_⟩
  ext i hi
  simp [getLsbD_statusWord]

/-- Settles O58: both actions are served at any time, and their effects are `hostAct`'s. -/
theorem hostAccessesHaveNoSideEffect : Obligations.HostAccessesHaveNoSideEffect :=
  fun _ _ _ _ => ⟨step_memRead, step_memWrite⟩

/-- Settles O60: the held write leaves the header reader its turn, only STATUS is read, and an attach is refused. -/
theorem busyHoldsTheHost : Obligations.BusyHoldsTheHost := by
  intro s hb
  refine ⟨fun w q t hq h => ?_, fun u a ha => readWindow_busy hb ha, fun b q hq => ?_, fun q hq => ?_⟩
  · have he : nextEvent s = nextToken s := by simp [nextEvent, hb, nextWhileBusy, hq, cmdAddr]
    rw [turn_host he h]
  all_goals simp [step, nextEvent, hb, nextWhileBusy, hq]

/-- Settles O57: address by address, then field by field. -/
theorem validEntriesReadExactly : Obligations.ValidEntriesReadExactly := by
  intro s u hb
  have hreg : ∀ (r : WinReg) {a : Addr}, regAt a = some r → readWindow s u a = readReg s u r := fun _ _ => readWindow_reg hb
  refine ⟨hreg .ident rfl, (hreg .errInfo rfl).trans (errInfoWord_eq _ _ _), hreg .errPosLo rfl, hreg .errPosHi rfl,
    hreg .lastCmd rfl, ?_, ?_, ?_, hreg .cntInLo rfl, hreg .cntInHi rfl, hreg .cntOutLo rfl, hreg .cntOutHi rfl,
    hreg .cntSymLo rfl, hreg .cntSymHi rfl, hreg .cntSkipLo rfl, hreg .cntSkipHi rfl, hreg .magic rfl, ?_,
    hreg .inPosLo rfl, hreg .inPosHi rfl, hreg .cmd rfl, fun a ha => readWindow_unlisted hb ha, fun k hv => ?_,
    fun i hv hi => ?_, fun k => ⟨?_, fun hv he j => ?_⟩⟩
  · rw [hreg .root rfl]; exact toNat_indexWord _
  · rw [hreg .nodeCount rfl]; exact toNat_indexWord _
  · rw [hreg .leafCount rfl]; exact toNat_indexWord _
  · rw [hreg .params rfl]; exact toNat_paramsWord _
  · rw [hreg _ (regAt_freq k)]
    simp [readReg, hv]
  · obtain ⟨hl, hlo, hhi⟩ := readReg_node (u := u) hv hi
    rw [hreg _ (regAt_nodeLink i), hreg _ (regAt_nodeWLo i), hreg _ (regAt_nodeWHi i), hl, hlo, hhi]
    exact ⟨linkWord_fields _, rfl, toNat_weightHigh _⟩
  · rw [hreg _ (regAt_codeInfo k)]
    obtain ⟨hbit, hzero, hlen⟩ := readReg_codeInfo (s := s) (u := u) k
    exact ⟨hbit, hzero, fun hv he => hlen (by simp [codeReadable, hv, he])⟩
  · rw [hreg _ (regAt_codeWord k j)]
    simp [readReg, codeReadable, hv, he]

end

section
/-! SUPPORT. The encodings (30_encoding.md): each decoder is the encoder's inverse, which words are legal, a tree's codes are
prefix-free, and how many bits its header has. -/

namespace Sys2Proof.Machine

/-! ### Decoding and encoding -/

/-- The command decoder and the encoder are inverse to each other (R92, R96). -/
theorem decodeCommand_ok_iff {w : Word} {i : Instr} : decodeCommand w = .ok i ↔ encode i = .command w := by
  constructor
  · intro h
    rw [decodeCommand_eq] at h
    repeat' split at h
    case isFalse => exact absurd h (by simp)
    all_goals
      cases h
      subst w
      rfl
  · intro h
    cases i
    case hdrInternal => simp [encode] at h
    case hdrLeaf => simp [encode] at h
    all_goals
      cases h
      decide

/-- The token decoder takes off the front of the stream what the encoder writes, and nothing else (R81, R89). -/
theorem decodeToken_ok_iff {b rest : List Bool} {i : Instr} :
    decodeToken b = .ok (i, rest) ↔ ∃ bits, encode i = .token bits ∧ bits ++ rest = b := by
  constructor
  · intro h
    match b, h with
    | false :: bs, h =>
      cases h
      exact ⟨_, rfl, rfl⟩
    | true :: bs, h =>
      rw [decodeToken] at h
      split at h
      · cases h
      case isFalse hlen =>
        cases h
        have hl : (bs.take 9).length = 9 := by simp; omega
        have hb : bitsOf 9 (valOf (bs.take 9)) = bs.take 9 := by simpa only [hl] using bitsOf_valOf (bs.take 9)
        refine ⟨_, rfl, ?_⟩
        rw [BitVec.toNat_ofNat, bitsOf_mod, hb, List.cons_append, List.take_append_drop]
  · rintro ⟨bits, he, rfl⟩
    cases i
    case hdrInternal => cases he; rfl
    case hdrLeaf y => cases he; exact decodeToken_leaf y rest
    all_goals simp [encode] at he

/-! ### Legal and illegal words -/

/-- The legal words are the ten of R92. -/
theorem decodeCommand_legal_iff {w : Word} : (∃ i, decodeCommand w = .ok i) ↔ w.toNat ≤ 9 := by
  constructor
  · rintro ⟨i, h⟩
    rw [decodeCommand_ok_iff] at h
    cases i <;> cases h
    all_goals decide
  · intro h
    obtain ⟨n, hn, rfl⟩ : ∃ n ≤ 9, w = BitVec.ofNat 32 n := ⟨w.toNat, h, by simp⟩
    interval_cases n <;> exact ⟨_, rfl⟩

theorem decodeCommand_illegal_iff {w : Word} : decodeCommand w = .error .illegalCommand ↔ 9 < w.toNat := by
  rw [← not_le, ← decodeCommand_legal_iff, decodeCommand]
  split <;> simp

/-- R93's illegal fields are those of the words above 0x00000009. -/
theorem illegal_fields_iff (w : Word) : (w.extractLsb' 8 24 ≠ 0 ∨ 0x0A ≤ (w.extractLsb' 0 8).toNat) ↔ 9 < w.toNat := by
  have hw := w.isLt
  rw [ne_eq, ← BitVec.toNat_inj]
  simp only [BitVec.extractLsb'_toNat, Nat.shiftRight_eq_div_pow, BitVec.ofNat_eq_ofNat, BitVec.toNat_ofNat]
  omega

/-- The capture after the prologue alone is a command turned away (R112, R250). -/
theorem raise_prologue (w : Word) (e : ErrCode) (s : State) : raise e (prologue w s) = turnedAway w e s := rfl

/-- An illegal word raises E_ILLEGAL_CMD (R93). -/
theorem execIllegal_raises {s : State} (w : Word) (he : s.flags.err = false) :
    execIllegal w s = .next (turnedAway w .illegalCmd s) := by
  rw [execIllegal, if_neg (by simp [he]), raise_prologue]

/-! ### The codes of a tree -/

/-- No path of a tree runs through another leaf: a path that begins another is that path (R86). -/
theorem paths_prefixFree {t : HTree} {p q : List Bool × Sym} (hp : p ∈ t.paths) (hq : q ∈ t.paths) (h : p.1 <+: q.1) :
    p = q := by
  induction t generalizing p q with
  | leaf y =>
    rw [HTree.paths, List.mem_singleton] at hp hq
    rw [hp, hq]
  | node l r ihl ihr =>
    simp only [HTree.paths, List.mem_append, List.mem_map] at hp hq
    rcases hp with ⟨p, hp, rfl⟩ | ⟨p, hp, rfl⟩ <;> rcases hq with ⟨q, hq, rfl⟩ | ⟨q, hq, rfl⟩ <;>
      rw [List.cons_prefix_cons] at h
    · rw [ihl hp hq h.2]
    · exact absurd h.1 (by decide)
    · exact absurd h.1 (by decide)
    · rw [ihr hp hq h.2]

/-- An entry of a tree's code table is the path of its symbol's leaf (R86, R162). -/
theorem codeBits_mem_paths {freq : Vector Count 257} {t : HTree} {c : CodeTable} (h : codesFor freq t c = true) {k : SymIdx}
    (hk : c.entry[k] = true) : (codeBits c k, symOf k) ∈ t.paths := by
  have hentry := List.all_eq_true.mp h k (List.mem_finRange k)
  simp only [hk, Bool.and_eq_true, Bool.not_true, Bool.false_or, decide_eq_true_eq] at hentry
  obtain ⟨-, hpath, -⟩ := hentry
  exact hpath

theorem codes_prefixFree {freq : Vector Count 257} {t : HTree} {c : CodeTable} (h : codesFor freq t c = true) {k j : SymIdx}
    (hk : c.entry[k] = true) (hj : c.entry[j] = true) (hp : codeBits c k <+: codeBits c j) : k = j :=
  symOf_injective (congrArg Prod.snd (paths_prefixFree (codeBits_mem_paths h hk) (codeBits_mem_paths h hj) hp))

/-! ### The header -/

/-- A header has ten bits for each leaf and one for each internal node (R82). -/
theorem length_header (t : HTree) : t.header.length + 1 = 11 * t.leaves.length := by
  induction t with
  | leaf y => simp [HTree.header, HTree.leaves]
  | node l r ihl ihr => simp only [HTree.header, HTree.leaves, List.length_cons, List.length_append]; omega

/-- The magic and a header, written one after the other, are one run of 32 + 11L - 1 bits (R80, R82). -/
theorem appendOut_magic_header (m : Word) (t : HTree) {s : State} (hc : s.cnt.cntOut = 0) :
    appendOut t.header (writeBits 32 m.toNat s) = { s with
      out := { s.out with bits := s.out.bits ++ bitsOf 32 m.toNat ++ t.header }
      cnt := { s.cnt with cntOut := BitVec.ofNat 64 (32 + (11 * t.leaves.length - 1)) } } := by
  have hl : 32 + (11 * t.leaves.length - 1) = 32 + t.header.length := by have := length_header t; omega
  rw [writeBits_eq, appendOut_append, appendOut, hc, hl]
  simp

end Sys2Proof.Machine

open Sys2Proof Sys2Proof.Machine

/-- Settles O2: each decoder undoes the encoder on its own kind of encoding. -/
theorem decodeOfEncodeIsTheInstruction : Obligations.DecodeOfEncodeIsTheInstruction := by
  intro i rest _
  cases he : encode i with
  | command w => simp only [decodeEncoding, decodeCommand_ok_iff.mpr he]
  | token bits => exact decodeToken_ok_iff.mpr ⟨bits, he, rfl⟩

/-- Settles O3: the converse directions. -/
theorem decodedBitsAreTheEncoding : Obligations.DecodedBitsAreTheEncoding :=
  ⟨fun _ _ h => ⟨isCommand_of_decode h, decodeCommand_ok_iff.mp h⟩, fun _ _ _ => decodeToken_ok_iff.mp⟩

/-- Settles O4: the words above 0x00000009 are the illegal ones, and each is turned away. -/
theorem illegalWordsRaise : Obligations.IllegalWordsRaise :=
  ⟨fun w => decodeCommand_illegal_iff.trans (illegal_fields_iff w).symm, fun _ => decodeCommand_legal_iff,
    fun _ w he _ => execIllegal_raises w he⟩

/-- Settles O26: the codes are paths of the state's tree, and those are prefix-free. -/
theorem codesArePrefixFree : Obligations.CodesArePrefixFree := by
  rintro s k j ⟨-, hflags, -, -, -, htree⟩ hv hk hj hne hp
  obtain ⟨-, hcodes, -⟩ := flagsInv_iff.mp hflags
  obtain ⟨t, -, -, hc⟩ := htree (hcodes hv).1
  exact hne (codes_prefixFree (hc hv) hk hj hp)

/-- Settles O27: the body writes the magic and the header of the held tree. -/
theorem wrhdrWritesMagicAndHeader : Obligations.WrhdrWritesMagicAndHeader := by
  intro s t he hv ho ht
  have hc : precondition .wrhdr (prologue wordWrhdr s) = none := by simp [precondition, hv, ho]
  have hb := wrhdrBody_eq (s := prologue wordWrhdr s) ht
  rw [appendOut_magic_header _ _ rfl] at hb
  rw [exec_wrhdr, runCommand_ran (.inl he) hc, hb]
  rfl

/-- Settles O1: each is what the encoder writes. -/
theorem listedWordsDecode : Obligations.ListedWordsDecode :=
  ⟨decodeCommand_ok_iff.mpr rfl, decodeCommand_ok_iff.mpr rfl, decodeCommand_ok_iff.mpr rfl, decodeCommand_ok_iff.mpr rfl,
    decodeCommand_ok_iff.mpr rfl, decodeToken_ok_iff.mpr ⟨_, rfl, rfl⟩, decodeToken_ok_iff.mpr ⟨_, rfl, rfl⟩⟩

end

section
/-! SUPPORT. Dispatch and control (40_dispatch_and_control.md): every command ends within its accesses (R118), a discarded
command and one turned away by its checks (R111, R113), each said once for every command. -/

namespace Sys2Proof.Machine

/-! ### Bodies that end -/

/-- The body does not break off (log 7), and where it runs to its end the state meets `D`. -/
def Ran.Total (D : State → Prop) : Ran → Prop
  | .done t => D t
  | .raised _ _ => True
  | .broken _ => False

/-- The body ends, normally or with an error. -/
abbrev Ran.Ended (r : Ran) : Prop := r.Total fun _ => True

theorem Ran.Ended.finish_next {r : Ran} (h : r.Ended) : ∃ t, r.finish = .next t := by
  cases r with
  | done t => exact ⟨_, rfl⟩
  | raised e t => exact ⟨_, rfl⟩
  | broken f => exact h.elim

/-! ### COUNT and ENCODE: a pass over the bytes left on IN -/

theorem countLoop_ended {fuel : Nat} {s : State} (hl : s.inp.bits.length < 2 ^ 64) (hf : s.remaining / 8 < fuel) :
    (countLoop fuel s).Ended := by
  induction fuel generalizing s with
  | zero => exact absurd hf (Nat.not_lt_zero _)
  | succ fuel ih =>
    rw [countLoop]
    by_cases h8 : s.remaining < 8
    · rw [readBits_exhausted h8]
      trivial
    · rw [readBits_ok (Nat.not_lt.mp h8)]
      have hr := remaining_consumeIn hl (Nat.not_lt.mp h8) (by decide)
      dsimp only
      split
      · trivial
      · exact ih hl (lt_of_eq_of_lt (congrArg (· / 8) hr) (by omega))

theorem countBody_ended {s : State} (hl : s.inp.bits.length < 2 ^ 64) : (countBody s).Ended := by
  have h : (countLoop (s.remaining / 8 + 1) (zeroFreq (startCall s))).Ended := countLoop_ended hl (Nat.lt_succ_self _)
  rw [countBody]
  cases hc : countLoop (s.remaining / 8 + 1) (zeroFreq (startCall s)) with
  | done t => trivial
  | raised e t => trivial
  | broken f => rw [hc] at h; exact h

theorem encodeBody_ended {s : State} (hl : s.inp.bits.length < 2 ^ 64) : (encodeBody s).Ended := by
  have hn : (bytesOf (inRewind s).restIn).length < s.inp.bits.length / 8 + 1 := by
    rw [length_bytesOf]
    exact Nat.lt_succ_of_le (Nat.div_le_div_right (by simp [State.restIn]))
  rw [encodeBody, encodeLoop_done (s := inRewind s) hl rfl hn]
  trivial

/-! ### BUILD: one merge fewer than there are leaves -/

theorem length_pq_foldl_add (leaves : List Node) (c : BuildCtx) :
    (leaves.foldl BuildCtx.add c).pq.length = c.pq.length + leaves.length := by
  induction leaves generalizing c with
  | nil => rfl
  | cons n leaves ih =>
    rw [List.foldl_cons, ih, List.length_cons]
    simp only [BuildCtx.add, List.length_cons]
    omega

/-- A merge takes two entries and enters one, so n - 1 merges of n entries leave one (R145). -/
theorem mergeLoop_single {fuel : Nat} {c : BuildCtx} (h0 : c.pq ≠ []) (hf : c.pq.length ≤ fuel + 1) :
    ∃ e, (mergeLoop fuel c).pq = [e] := by
  induction fuel generalizing c with
  | zero =>
    have := List.length_pos_iff.mpr h0
    exact List.length_eq_one_iff.mp (by rw [mergeLoop]; omega)
  | succ fuel ih =>
    rw [mergeLoop]
    cases hm : removeMin c.pq with
    | none => exact absurd (removeMin_none.mp hm) h0
    | some p =>
      obtain ⟨a, pq1⟩ := p
      have hl := length_removeMin hm
      dsimp only
      cases hm1 : removeMin pq1 with
      | none =>
        rw [removeMin_none.mp hm1] at hl
        exact List.length_eq_one_iff.mp hl
      | some p =>
        have hl1 := length_removeMin (m := p.1) (r := p.2) hm1
        refine ih (by simp [BuildCtx.add]) ?_
        simp only [BuildCtx.add, List.length_cons]
        omega

theorem buildBody_ended {s : State} (hs : s.freq[sentinelIdx] ≠ 0) : (buildBody s).Ended := by
  have hlen : (leafCtx s.freq s.node).pq.length = (initialSyms s.freq).length := by
    simp [leafCtx, length_pq_foldl_add, initialSyms]
  have h2 := two_le_initialSyms hs
  obtain ⟨e, he⟩ : ∃ e, (builtCtx s.freq s.node).pq = [e] :=
    mergeLoop_single (List.length_pos_iff.mp (by omega)) (Nat.le_succ _)
  rw [buildBody_eq, he]
  trivial

/-! ### DECODE: one turn for each bit left, and one more -/

theorem decodeBody_ended {s : State} {t : HTree} (hl : s.inp.bits.length < 2 ^ 64) (h : treeAt s t = true) :
    (decodeBody s).Ended := by
  cases t with
  | leaf y =>
    rw [decodeBody_leaf h]
    trivial
  | node l r =>
    rw [decodeBody_node hl h, decodeAnswer]
    split <;> trivial

/-! ### RDHDR: every accepted token takes an entry of the arena -/

theorem returnChild_nodeCount (stack : List HdrFrame) (c : NodeIdx) (s : State) :
    (returnChild stack c s).tree.nodeCount = s.tree.nodeCount := by
  induction stack generalizing c s with
  | nil => rfl
  | cons f stack ih =>
    cases f with
    | wantLeft i => rfl
    | wantRight i l => exact ih _ _

theorem closeLeaf_nodeCount (stack : List HdrFrame) (i : Fin 513) (y : Sym) (s : State) :
    (closeLeaf stack i y s).tree.nodeCount = s.tree.nodeCount :=
  returnChild_nodeCount stack (nodeIdx i) _

/-- The header reader's turn ends, and a token it accepts has taken the next entry (R183, R186). -/
theorem desToken_total (stack : List HdrFrame) (s : State) : (desToken stack s).Total fun u =>
    s.tree.nodeCount.toNat < 513 ∧ u.tree.nodeCount.toNat = s.tree.nodeCount.toNat + 1 := by
  rw [desToken]
  cases hr : readBits 1 s with
  | none => trivial
  | some p =>
    obtain ⟨b, s1⟩ := p
    obtain ⟨-, -, rfl⟩ := readBits_some hr
    dsimp only
    by_cases hc : s.tree.nodeCount.toNat < 513
    · have hn := toNat_succ_nodeCount hc
      have ha : allocNode (consumeIn 1 s) = some (⟨_, hc⟩, takeEntry (consumeIn 1 s)) :=
        allocNode_some (s := consumeIn 1 s) hc
      rw [ha]
      dsimp only
      split
      · exact ⟨hc, hn⟩
      · cases hr9 : readBits 9 (takeEntry (consumeIn 1 s)) with
        | none => trivial
        | some p =>
          obtain ⟨y, s3⟩ := p
          obtain ⟨-, -, rfl⟩ := readBits_some hr9
          dsimp only
          split
          · exact ⟨hc, by rw [closeLeaf_nodeCount]; exact hn⟩
          · trivial
    · rw [allocNode_none (s := consumeIn 1 s) (Nat.not_lt.mp hc)]
      trivial

/-- With a turn for each entry left and one more, the header ends or fails (R118, R186). -/
theorem headerLoop_ended {fuel : Nat} {s : State} (hn : s.tree.nodeCount.toNat ≤ 513)
    (hf : 513 < s.tree.nodeCount.toNat + fuel) : (headerLoop fuel s).Ended := by
  induction fuel generalizing s with
  | zero => omega
  | succ fuel ih =>
    rw [headerLoop]
    cases hst : s.hdrStack with
    | none => trivial
    | some stack =>
      have hd := desToken_total stack s
      dsimp only
      cases hdt : desToken stack s with
      | done u =>
        rw [hdt] at hd
        obtain ⟨hlt, hu⟩ := hd
        exact ih (by omega) (by omega)
      | raised e u => trivial
      | broken f => rw [hdt] at hd; exact hd

theorem rdhdrBody_ended (s : State) : (rdhdrBody s).Ended := by
  rw [rdhdrBody]
  cases hr : readBits 32 (startCall s) with
  | none => trivial
  | some p =>
    obtain ⟨-, -, ht⟩ := readBits_some (t := p.2) (v := p.1) hr
    have h0 : p.2.tree.nodeCount.toNat = 0 := by rw [ht]; rfl
    dsimp only
    split
    · trivial
    · exact headerLoop_ended (by simp [h0]) (by simp [h0, nodeCap])

/-! ### Every command -/

/-- The body of every command ends where its check has held (R113, R118). -/
theorem bodyOf_ended {i : Instr} {s : State} (hfreq : freqInv s = true) (htree : treeInv s)
    (hl : s.inp.bits.length < 2 ^ 64) (hp : precondition i s = none) : (bodyOf i s).Ended := by
  cases i
  case count => exact countBody_ended hl
  case encode => exact encodeBody_ended hl
  case rdhdr => exact rdhdrBody_ended s
  case build =>
    have hv : s.flags.freqValid = true := by simpa [precondition] using hp
    refine buildBody_ended ?_
    rw [(freqInv_iff.mp hfreq).2 hv]
    decide
  case derive =>
    have hv : s.flags.treeValid = true ∧ s.flags.treeOrigin = false := by simpa [precondition] using hp
    obtain ⟨t, ht, -, -⟩ := htree hv.1
    rw [bodyOf, deriveBody_eq ht]
    trivial
  case wrhdr =>
    obtain ⟨t, ht, -, -⟩ := htree (first_check_met hp)
    rw [bodyOf, wrhdrBody_eq ht]
    trivial
  case decode =>
    obtain ⟨t, ht, -, -⟩ := htree (first_check_met hp)
    exact decodeBody_ended hl ht
  all_goals trivial

/-- A command word ends where its body does (R112). -/
theorem runCommand_ended {w : Word} {check : State → Option ErrCode} {body : State → Ran} {s : State}
    (hb : check (prologue w s) = none → (body (prologue w s)).Ended) : ∃ t, runCommand w check body s = .next t := by
  rw [runCommand]
  split
  · exact ⟨_, rfl⟩
  · cases hc : check (prologue w s) with
    | some e => exact ⟨_, rfl⟩
    | none => exact (hb hc).finish_next

/-- A command on a state with the invariants answers a next state (R118, R238). -/
theorem exec_ended {i : Instr} {s : State} (hi : i.isCommand = true) (hs : Inv s) : ∃ t, exec i s = .next t := by
  by_cases hn : i = .nop
  · exact ⟨s, by rw [hn, exec_nop]⟩
  obtain ⟨-, -, -, hin, hfreq, htree⟩ := hs
  obtain ⟨w, -, -, hrun⟩ := exec_eq hi hn
  rw [hrun]
  exact runCommand_ended (bodyOf_ended hfreq htree (length_lt_of_streamInv hin))

/-- A command keeps the invariants of R38. -/
theorem exec_inv {i : Instr} {s t : State} (hi : i.isCommand = true) (hs : Inv s) (h : exec i s = .next t) : Inv t := by
  have ⟨hb, hflags, herrs, hin, hfreq, _⟩ := hs
  have hc := exec_carried hi h
  obtain ⟨hb', hflags'⟩ := exec_flags hi hb hflags h
  exact ⟨hb', hflags', hc.errs herrs, hc.inp.pos hin, hc.freq hfreq, exec_treeInv hi hs h⟩

/-! ### Words that do nothing but the prologue and the capture -/

/-- The checks of R113 read nothing the prologue writes. -/
theorem precondition_prologue (i : Instr) (w : Word) (s : State) : precondition i (prologue w s) = precondition i s := by
  cases i <;> rfl

/-- A command whose check fails is turned away with that error (R113). -/
theorem exec_turnedAway {i : Instr} {w : Word} {e : ErrCode} {s : State} (hw : encode i = .command w)
    (he : s.flags.err = false) (hp : precondition i s = some e) : exec i s = .next (turnedAway w e s) := by
  have hi := isCommand_of_decode (decodeCommand_ok_iff.mpr hw)
  have hn : i ≠ .nop := by
    rintro rfl
    cases hp
  obtain ⟨w', hw', -, hrun⟩ := exec_eq hi hn
  obtain rfl : w' = w := Encoding.command.inj (hw'.symm.trans hw)
  rw [hrun, runCommand_checked (.inl he) ((precondition_prologue i w' s).trans hp), raise_prologue]

/-- An illegal word is discarded while ERR = 1 (R111). -/
theorem execIllegal_discarded {w : Word} {s : State} (he : s.flags.err = true) : execIllegal w s = .next s := by
  rw [execIllegal, if_pos he]

section
variable {s : State}

/-- BUILD, where no complete table stands (R113). -/
theorem precondition_build (h : s.flags.freqValid = false) : precondition .build s = some .sequence := by
  simp [precondition, h]

/-- DERIVE, where no tree stands or a read one does (R113). -/
theorem precondition_derive (h : s.flags.treeValid = false ∨ s.flags.treeOrigin = true) :
    precondition .derive s = some .sequence := by
  rcases h with h | h <;> simp [precondition, h]

/-- WRHDR and DECODE, where no tree stands (R113). -/
theorem precondition_noTree {i : Instr} (hi : i = .wrhdr ∨ i = .decode) (h : s.flags.treeValid = false) :
    precondition i s = some .sequence := by
  rcases hi with rfl | rfl <;> simp [precondition, h]

/-- ENCODE, where no code table stands (R113). -/
theorem precondition_noCodes (h : s.flags.codesValid = false) : precondition .encode s = some .sequence := by
  simp [precondition, h]

/-- WRHDR and DECODE with a tree and a closed OUT (R113). -/
theorem precondition_treeClosed {i : Instr} (hi : i = .wrhdr ∨ i = .decode) (h : s.flags.treeValid = true)
    (ho : s.out.closed = true) : precondition i s = some .outClosed := by
  rcases hi with rfl | rfl <;> simp [precondition, h, ho]

/-- ENCODE with a code table and a closed OUT (R113). -/
theorem precondition_codesClosed (h : s.flags.codesValid = true) (ho : s.out.closed = true) :
    precondition .encode s = some .outClosed := by
  simp [precondition, h, ho]

end

end Sys2Proof.Machine

open Sys2Proof Sys2Proof.Machine

/-- Settles O52: every command answers a next state, and what it answers keeps the invariants. -/
theorem everyCommandEnds : Obligations.EveryCommandEnds := by
  intro i s hi hs
  obtain ⟨t, ht⟩ := exec_ended hi hs
  exact ⟨t, ht, exec_inv hi hs ht⟩

/-- Settles O5: the queue's head is the event at a boundary, the token on IN the event inside a header read. -/
theorem stepRunsTheDecodedInstruction : Obligations.StepRunsTheDecodedInstruction := by
  refine ⟨fun s w q hb hq => ⟨fun i hd => ?_, fun e hd => ?_⟩, fun s stack i rest => step_token⟩
  all_goals
    rw [step_command hb hq, hd]
    rfl

/-- Settles O11: no word but CLEAR passes the discard. -/
theorem discardedWhileErr : Obligations.DiscardedWhileErr := by
  intro s w he hw
  refine ⟨fun i hd => exec_discarded (isCommand_of_decode hd) ?_ he, fun _ _ => execIllegal_discarded he⟩
  rintro rfl
  exact hw (Encoding.command.inj (decodeCommand_ok_iff.mp hd)).symm

/-- Settles O12: the first check of each command. -/
theorem sequenceChecks : Obligations.SequenceChecks := fun _ he =>
  ⟨fun h => exec_turnedAway rfl he (precondition_build h), fun h => exec_turnedAway rfl he (precondition_derive h),
    fun h => exec_turnedAway rfl he (precondition_noTree (.inl rfl) h),
    fun h => exec_turnedAway rfl he (precondition_noCodes h),
    fun h => exec_turnedAway rfl he (precondition_noTree (.inr rfl) h)⟩

/-- Settles O13: the second check of each command that writes OUT. -/
theorem closedOutputChecks : Obligations.ClosedOutputChecks := fun _ he ho =>
  ⟨fun h => exec_turnedAway rfl he (precondition_treeClosed (.inl rfl) h ho),
    fun h => exec_turnedAway rfl he (precondition_codesClosed h ho),
    fun h => exec_turnedAway rfl he (precondition_treeClosed (.inr rfl) h ho)⟩

/-- Settles O14: NOP's meaning is the state as it is. -/
theorem nopChangesNothing : Obligations.NopChangesNothing := exec_nop

/-- Settles O15: CLEAR is accepted in every state, and its body is the way back to reset. -/
theorem clearReturnsToReset : Obligations.ClearReturnsToReset := fun s =>
  ⟨(forgetArrays s).freq, (forgetArrays s).node, (forgetArrays s).codes.len, (forgetArrays s).codes.val, by
    rw [exec_clear, runCommand_ran (.inr rfl) rfl]
    rfl⟩

/-- Settles O16: FLUSH has no check, and its body closes OUT. -/
theorem flushClosesOut : Obligations.FlushClosesOut := by
  intro s he
  rw [exec_flush, runCommand_ran (.inl he) rfl]
  rfl

end

section
/-! SUPPORT. COUNT (41_frequency_counter.md): the pass over the bytes left on IN, from the cleared table of R132 to the end of the
command. -/

namespace Sys2Proof.Machine

/-- Where COUNT's pass starts: the prologue done, the previous call discarded, the table cleared (R131, R132). -/
def countStart (s : State) : State := zeroFreq (startCall (prologue wordCount s))

section
variable {s : State}

/-- After the pass from the cleared table each entry is its symbol's tally: an entry that fits W_COUNT bits does not wrap. -/
theorem toNat_freq_counted {bs : List (BitVec 8)} {k : SymIdx} (h : tally bs k ≤ 2 ^ s.params.wCount - 1) :
    (bs.foldl countOne (countStart s)).freq[k].toNat = tally bs k := by
  have h0 : (countStart s).freq[k] = 0#32 := by simp [countStart]
  have hm := (maxCount s.params).isLt
  rw [toNat_maxCount] at hm
  rw [freq_foldl_countOne, h0, BitVec.zero_add, BitVec.toNat_ofNat, Nat.mod_eq_of_lt (by omega)]

/-- The reads COUNT allows itself are one more than the whole bytes left (R118). -/
theorem length_lt_countFuel {bs : List (BitVec 8)} (hb : bytesOf s.restIn = bs) : bs.length < s.remaining / 8 + 1 := by
  rw [← hb, length_bytesOf, length_restIn]
  exact Nat.lt_succ_self _

variable (he : s.flags.err = false) (hl : s.inp.bits.length < 2 ^ 64)
include he

/-- COUNT has no check: it ends as its body does (R113). -/
theorem exec_count_ran : exec .count s = (countBody (prologue wordCount s)).finish := by
  rw [exec_count, runCommand_ran (.inl he) rfl]

include hl

/-- COUNT where no entry overflows completes after the pass over all whole bytes (R132, R133). -/
theorem exec_count_completed {bs : List (BitVec 8)} (hb : bytesOf s.restIn = bs)
    (hmax : ∀ k, tally bs k ≤ 2 ^ s.params.wCount - 1) :
    exec .count s = .next (complete (finishCount (bs.foldl countOne (countStart s)))) := by
  have hloop : countLoop ((prologue wordCount s).remaining / 8 + 1) (countStart s) = .done (bs.foldl countOne (countStart s)) :=
    countLoop_done hl hb (length_lt_countFuel hb) (by simpa [countStart] using hmax)
  rw [exec_count_ran he, countBody, ← countStart, hloop]
  rfl

/-- COUNT raises at the first byte whose entry is full: that byte is consumed, only those before it are counted (R134). -/
theorem exec_count_raised {pre post : List (BitVec 8)} {b : BitVec 8} (hb : bytesOf s.restIn = pre ++ b :: post)
    (hmax : ∀ k, tally pre k ≤ 2 ^ s.params.wCount - 1) (hfull : tally pre (byteIdx b) = 2 ^ s.params.wCount - 1) :
    exec .count s = .next (raise .countOvf (consumeIn 8 (pre.foldl countOne (countStart s)))) := by
  have hf : pre.length < s.remaining / 8 + 1 := by
    have h := length_lt_countFuel hb
    rw [List.length_append] at h
    omega
  have hloop : countLoop ((prologue wordCount s).remaining / 8 + 1) (countStart s) =
      .raised .countOvf (consumeIn 8 (pre.foldl countOne (countStart s))) :=
    countLoop_overflow hl hb hf (by simpa [countStart] using hmax) (by simpa [countStart] using hfull)
  rw [exec_count_ran he, countBody, ← countStart, hloop]
  rfl

end

/-- No byte is the sentinel: setting its entry leaves every byte's (R133). -/
theorem set_sentinel_byteIdx (f : Vector Count 257) (v : Count) (b : BitVec 8) :
    (f.set sentinelIdx v)[byteIdx b] = f[byteIdx b] := by
  have hne : sentinelIdx.val ≠ (byteIdx b).val := by
    have := b.isLt
    simp only [sentinelIdx, byteIdx]
    omega
  rw [Fin.getElem_fin, Vector.getElem_set_ne _ _ hne, Fin.getElem_fin]

end Sys2Proof.Machine

open Sys2Proof Sys2Proof.Machine

/-- Settles O19: the pass over all whole bytes, then the sentinel's entry, which is no byte's. -/
theorem countTalliesTheInput : Obligations.CountTalliesTheInput := by
  intro s bs he hl hb hmax
  refine ⟨(bs.foldl countOne (countStart s)).freq.set sentinelIdx 1, ?_, fun b => ?_, ?_⟩
  · rw [exec_count_completed he hl hb hmax, foldl_countOne_eq]
    simp [complete, finishCount, countStart, zeroFreq, startCall, prologue, Flags.dropValid, Flags.reset, Counters.zero,
      wordCount, he]
  · rw [set_sentinel_byteIdx, toNat_freq_counted (hmax _)]
  · simp

/-- Settles O20: the pass over the bytes before the full entry's, then one byte consumed and not counted. -/
theorem countOverflowRaises : Obligations.CountOverflowRaises := by
  intro s pre post b he hl hb hmax hfull
  refine ⟨(pre.foldl countOne (countStart s)).freq, ?_, fun k => toNat_freq_counted (hmax k)⟩
  rw [exec_count_raised he hl hb hmax hfull, foldl_countOne_eq]
  simp [raise, consumeIn, countStart, zeroFreq, startCall, prologue, Flags.dropValid, Flags.reset, Counters.zero,
    wordCount, he, ErrCode.number, ErrCode.kind, Nat.mul_add, BitVec.ofNat_add, BitVec.add_assoc]

end

section
/-! SUPPORT. BUILD's arena, entry by entry (42_tree_builder.md): what it writes and what it leaves, which entries wait in PQ, and
which two of them a merge takes (R144 to R148). -/

namespace Sys2Proof.Machine

/-! ### One entry written -/

section
variable (c : BuildCtx) (n : Node)

@[simp] theorem BuildCtx.add_seq : (c.add n).seq = c.seq + 1 := rfl

@[simp] theorem BuildCtx.add_pq : (c.add n).pq = { w := n.w, q := c.seq, i := BitVec.ofNat 10 c.seq } :: c.pq := rfl

end

theorem entryAt_add_self {c : BuildCtx} {n : Node} (h : c.seq < 513) : entryAt (c.add n).node c.seq = n := by
  rw [BuildCtx.add, entryAt_setIfInBounds h, if_pos rfl]

theorem entryAt_add_ne {c : BuildCtx} {n : Node} {k : Nat} (h : k ≠ c.seq) :
    entryAt (c.add n).node k = entryAt c.node k := by
  simp [BuildCtx.add, entryAt, h.symm]

/-- The arena of `d` is that of `c`, but for the entries made since (R147). -/
structure Extends (c d : BuildCtx) : Prop where
  seq : c.seq ≤ d.seq
  entry : ∀ k, k < c.seq ∨ d.seq ≤ k → entryAt d.node k = entryAt c.node k

theorem Extends.refl (c : BuildCtx) : Extends c c := ⟨le_rfl, fun _ _ => rfl⟩

theorem Extends.add {c d : BuildCtx} (h : Extends c d) (n : Node) : Extends c (d.add n) := by
  refine ⟨Nat.le_succ_of_le h.seq, fun k hk => ?_⟩
  have hseq := h.seq
  rw [BuildCtx.add_seq] at hk
  rw [entryAt_add_ne (by omega), h.entry k (by omega)]

theorem Extends.foldl_add {c d : BuildCtx} (h : Extends c d) (leaves : List Node) :
    Extends c (leaves.foldl BuildCtx.add d) := by
  induction leaves generalizing d with
  | nil => exact h
  | cons n leaves ih => exact ih (h.add n)

/-- The two entries that a merge removes, and the rest, are PQ (R145). -/
theorem removeMin_two {l pq1 pq2 : List PqEntry} {a b : PqEntry} (hm : removeMin l = some (a, pq1))
    (hm1 : removeMin pq1 = some (b, pq2)) : l.Perm (a :: b :: pq2) :=
  (removeMin_some hm).1.trans ((removeMin_some hm1).1.cons a)

/-- What every merge of two entries keeps, the merge loop keeps (R145, R149). -/
theorem mergeLoop_keeps {P : BuildCtx → Prop}
    (hmerge : ∀ {c a pq1 b pq2}, P c → removeMin c.pq = some (a, pq1) → removeMin pq1 = some (b, pq2) →
      P ({ c with pq := pq2 }.add (Node.mkInternal (a.w + b.w) a.i b.i)))
    (fuel : Nat) {c : BuildCtx} (h : P c) : P (mergeLoop fuel c) := by
  induction fuel generalizing c with
  | zero => exact h
  | succ fuel ih =>
    rw [mergeLoop]
    cases hm : removeMin c.pq with
    | none => exact h
    | some p =>
      dsimp only
      cases hm1 : removeMin p.2 with
      | none => exact h
      | some p1 => exact ih (hmerge h hm hm1)

theorem Extends.mergeLoop {c d : BuildCtx} (h : Extends c d) (fuel : Nat) : Extends c (mergeLoop fuel d) :=
  mergeLoop_keeps (fun {d _ _ _ pq2} h _ _ => Extends.add (d := { d with pq := pq2 }) ⟨h.seq, h.entry⟩ _) fuel h

/-- The leaves stand from SEQ on, in the order they are inserted (R141, R147). -/
theorem entryAt_foldl_add {leaves : List Node} {c : BuildCtx} (hseq : c.seq + leaves.length ≤ 513) {k : Nat}
    (hk : k < leaves.length) : leaves[k]? = some (entryAt (leaves.foldl BuildCtx.add c).node (c.seq + k)) := by
  induction leaves generalizing c k with
  | nil => simp at hk
  | cons n leaves ih =>
    rw [List.length_cons] at hseq hk
    cases k with
    | zero =>
      have hold := ((Extends.refl (c.add n)).foldl_add leaves).entry c.seq (.inl (Nat.lt_succ_self _))
      rw [List.foldl_cons, Nat.add_zero, hold, entryAt_add_self (by omega), List.getElem?_cons_zero]
    | succ k =>
      have hrest := ih (c := c.add n) (k := k) (by rw [BuildCtx.add_seq]; omega) (by omega)
      rw [List.getElem?_cons_succ, hrest, BuildCtx.add_seq, List.foldl_cons]
      congr 2
      omega

/-- The leaves enter PQ with the sequence numbers from SEQ on (R144). -/
theorem pq_foldl_add (leaves : List Node) (c : BuildCtx) : (leaves.foldl BuildCtx.add c).pq.map (·.q) =
    (List.range' c.seq leaves.length).reverse ++ c.pq.map (·.q) := by
  induction leaves generalizing c with
  | nil => rfl
  | cons n leaves ih => simp [ih, List.range'_succ]

/-! ### The entries that wait -/

section
variable {node node' : Vector Node 513} {L k : Nat}

theorem waiting_congr (h : ∀ j < k, entryAt node' j = entryAt node j) {m : Nat} :
    waiting node' L k m ↔ waiting node L k m := by
  refine and_congr_right fun _ => forall_congr' fun j => forall_congr' fun _ => forall_congr' fun hj => ?_
  rw [h j hj]

theorem keyBefore_congr (h : ∀ j < k, entryAt node' j = entryAt node j) {a b : Nat} (ha : a < k) (hb : b < k) :
    keyBefore node' a b ↔ keyBefore node a b := by
  rw [keyBefore, keyBefore, h a ha, h b hb]

/-- Which two entries node k merges depends on the entries up to k only. -/
theorem mergesFirstTwo_congr (h : ∀ j ≤ k, entryAt node' j = entryAt node j) (hm : mergesFirstTwo node L k) :
    mergesFirstTwo node' L k := by
  have hlt : ∀ j < k, entryAt node' j = entryAt node j := fun j hj => h j hj.le
  obtain ⟨a, b, hn, ha, hb, hab, hmin⟩ := hm
  refine ⟨a, b, ?_, (waiting_congr hlt).mpr ha, (waiting_congr hlt).mpr hb, (keyBefore_congr hlt ha.1 hb.1).mpr hab,
    fun m hm => ?_⟩
  · rw [h k le_rfl, hlt a ha.1, hlt b hb.1, hn]
  · have hm := (waiting_congr hlt).mp hm
    rw [keyBefore_congr hlt hb.1 hm.1]
    exact hmin m hm

/-- No merge has been made when the first internal node is about to be (R142). -/
theorem waiting_leaves {m : Nat} : waiting node L L m ↔ m < L :=
  and_iff_left fun _ hL hj => absurd hL (Nat.not_le.mpr hj)

/-- Node k's children no longer wait once it is made; node k itself does, since the nodes before it have children before
themselves. -/
theorem waiting_succ (hL : L ≤ k)
    (hchild : ∀ j, L ≤ j → j < k → (entryAt node j).left.toNat < j ∧ (entryAt node j).right.toNat < j) {m : Nat} :
    waiting node L (k + 1) m ↔
      (m = k ∨ waiting node L k m) ∧ (entryAt node k).left.toNat ≠ m ∧ (entryAt node k).right.toNat ≠ m := by
  constructor
  · intro h
    refine ⟨?_, h.2 k hL (Nat.lt_succ_self k)⟩
    rcases Nat.lt_succ_iff_lt_or_eq.mp h.1 with hm | hm
    · exact .inr ⟨hm, fun j hj hjk => h.2 j hj (Nat.lt_succ_of_lt hjk)⟩
    · exact .inl hm
  · rintro ⟨hm, hk⟩
    refine ⟨by rcases hm with rfl | hm <;> [omega; exact Nat.lt_succ_of_lt hm.1], fun j hj hjk => ?_⟩
    rcases Nat.lt_succ_iff_lt_or_eq.mp hjk with hjk | rfl
    · rcases hm with rfl | hm
      · obtain ⟨hl, hr⟩ := hchild j hj hjk
        exact ⟨by omega, by omega⟩
      · exact hm.2 j hj hjk
    · exact hk

end

/-! ### PQ through the merges -/

/-- PQ holds the entries that wait, each once, and every internal node made so far merged the first two (R142, R144 to R147). -/
structure Queued (L : Nat) (c : BuildCtx) : Prop where
  le : L ≤ c.seq
  nodup : (c.pq.map (·.q)).Nodup
  mem_iff : ∀ m, m ∈ c.pq.map (·.q) ↔ waiting c.node L c.seq m
  merged : ∀ k, L ≤ k → k < c.seq → mergesFirstTwo c.node L k

/-- PQ's order of two entries is the order of their arena entries (R144). -/
theorem Grown.before_iff {syms : List Sym} {total : Nat} {T : Nat → HTree} {c : BuildCtx} (h : Grown syms total T c)
    {a b : PqEntry} (ha : a ∈ c.pq) (hb : b ∈ c.pq) : a.before b = true ↔ keyBefore c.node a.q b.q := by
  rw [Machine.before_iff, keyBefore, h.weight a ha, h.weight b hb]

section
variable {L : Nat} {c : BuildCtx} (hq : Queued L c)
include hq

/-- The next node's children, the two entries that leave PQ, wait no longer; the node itself waits (R145, R147). -/
theorem Queued.next (hs : Summed L c) {d : BuildCtx} {a b : Nat} {rest : List Nat}
    (hpq : (c.pq.map (·.q)).Perm (a :: b :: rest)) (hdseq : d.seq = c.seq + 1) (hdpq : d.pq.map (·.q) = c.seq :: rest)
    (hold : ∀ j < c.seq, entryAt d.node j = entryAt c.node j) (hleft : (entryAt d.node c.seq).left.toNat = a)
    (hright : (entryAt d.node c.seq).right.toNat = b) (hmerged : mergesFirstTwo d.node L c.seq) : Queued L d := by
  have hlt : ∀ m ∈ a :: b :: rest, m < c.seq := fun m hm => ((hq.mem_iff m).mp (hpq.symm.subset hm)).1
  have ha := hlt a (by simp)
  have hb := hlt b (by simp)
  have hnew : c.seq ∉ rest := fun hm => absurd (hlt c.seq (by simp [hm])) (Nat.lt_irrefl _)
  have hnd := hpq.nodup_iff.mp hq.nodup
  simp only [List.nodup_cons, List.mem_cons, not_or] at hnd
  obtain ⟨⟨-, har⟩, hbr, hrest⟩ := hnd
  refine ⟨by rw [hdseq]; exact Nat.le_succ_of_le hq.le, by rw [hdpq]; exact List.nodup_cons.mpr ⟨hnew, hrest⟩,
    fun m => ?_, fun k hL hk => ?_⟩
  · have hchild : ∀ j, L ≤ j → j < c.seq → (entryAt d.node j).left.toNat < j ∧ (entryAt d.node j).right.toNat < j := by
      intro j hj hjs
      obtain ⟨hl, hr, -⟩ := hs j hj hjs
      rw [hold j hjs]
      exact ⟨hl, hr⟩
    rw [hdpq, hdseq, waiting_succ hq.le hchild, hleft, hright, waiting_congr hold, ← hq.mem_iff, hpq.mem_iff]
    simp only [List.mem_cons]
    constructor
    · rintro (rfl | hm)
      · exact ⟨.inl rfl, ha.ne, hb.ne⟩
      · exact ⟨.inr (.inr (.inr hm)), fun h => har (h ▸ hm), fun h => hbr (h ▸ hm)⟩
    · rintro ⟨rfl | rfl | rfl | hm, hma, hmb⟩
      · exact .inl rfl
      · exact absurd rfl hma
      · exact absurd rfl hmb
      · exact .inr hm
  · rcases Nat.lt_succ_iff_lt_or_eq.mp (lt_of_lt_of_eq hk hdseq) with hk | rfl
    · exact mergesFirstTwo_congr (fun j hj => hold j (by omega)) (hq.merged k hL hk)
    · exact hmerged

end

section
variable {syms : List Sym} {total L : Nat} {T : Nat → HTree} {c : BuildCtx} (h : Grown syms total T c) (hq : Queued L c)
include h hq

/-- The two entries removed are the first two of those that wait (R144, R146). -/
theorem Queued.first_two {a b : PqEntry} {pq1 pq2 : List PqEntry} (hm : removeMin c.pq = some (a, pq1))
    (hm1 : removeMin pq1 = some (b, pq2)) : keyBefore c.node a.q b.q ∧
      ∀ m, waiting c.node L c.seq m → m = a.q ∨ m = b.q ∨ keyBefore c.node b.q m := by
  obtain ⟨-, hmina⟩ := removeMin_some hm
  obtain ⟨hpb, hminb⟩ := removeMin_some hm1
  have hpq := removeMin_two hm hm1
  have hmem : ∀ e ∈ a :: b :: pq2, e ∈ c.pq := fun e he => hpq.symm.subset he
  have hnd := (hpq.map (·.q)).nodup_iff.mp hq.nodup
  simp only [List.map_cons, List.nodup_cons, List.mem_cons, not_or] at hnd
  obtain ⟨⟨hab, -⟩, hb, -⟩ := hnd
  have hbefore : a.before b = true := before_total (Ne.symm hab) (hmina b (hpb.symm.subset (by simp)))
  refine ⟨(h.before_iff (hmem a (by simp)) (hmem b (by simp))).mp hbefore, fun m hw => ?_⟩
  obtain ⟨e, he, rfl⟩ := List.mem_map.mp ((hq.mem_iff m).mpr hw)
  rcases List.mem_cons.mp (hpq.subset he) with rfl | he2
  · exact .inl rfl
  rcases List.mem_cons.mp he2 with rfl | he2
  · exact .inr (.inl rfl)
  · have hne : e.q ≠ b.q := fun heq => hb (heq ▸ List.mem_map_of_mem he2)
    exact .inr (.inr ((h.before_iff (hmem b (by simp)) he).mp (before_total hne (hminb e he2))))

/-- The node made of the two entries removed merges the first two (R145, R146). -/
theorem Queued.mergesFirstTwo_seq {a b : PqEntry} {pq1 pq2 : List PqEntry} (hm : removeMin c.pq = some (a, pq1))
    (hm1 : removeMin pq1 = some (b, pq2)) {node' : Vector Node 513}
    (hold : ∀ j < c.seq, entryAt node' j = entryAt c.node j)
    (hnew : entryAt node' c.seq = Node.mkInternal (a.w + b.w) a.i b.i) : mergesFirstTwo node' L c.seq := by
  have hpq := removeMin_two hm hm1
  have ha : a ∈ c.pq := hpq.symm.subset (by simp)
  have hb : b ∈ c.pq := hpq.symm.subset (by simp)
  have hwa := (hq.mem_iff a.q).mp (List.mem_map_of_mem ha)
  have hwb := (hq.mem_iff b.q).mp (List.mem_map_of_mem hb)
  obtain ⟨hab, hmin⟩ := hq.first_two h hm hm1
  refine ⟨a.q, b.q, ?_, (waiting_congr hold).mpr hwa, (waiting_congr hold).mpr hwb,
    (keyBefore_congr hold hwa.1 hwb.1).mpr hab, fun m hm => ?_⟩
  · rw [hnew, hold a.q hwa.1, hold b.q hwb.1, h.weight a ha, h.weight b hb, ← (h.index a ha).1, ← (h.index b hb).1]
  · have hm := (waiting_congr hold).mp hm
    rw [keyBefore_congr hold hwb.1 hm.1]
    exact hmin m hm

/-- A merge keeps the queue and its record (R145). -/
theorem Queued.merge (hs : Summed L c) (hseq : c.seq < 513) {a b : PqEntry} {pq1 pq2 : List PqEntry}
    (hm : removeMin c.pq = some (a, pq1)) (hm1 : removeMin pq1 = some (b, pq2)) :
    Queued L ({ c with pq := pq2 }.add (Node.mkInternal (a.w + b.w) a.i b.i)) := by
  have hpq := removeMin_two hm hm1
  obtain ⟨hia, hqa⟩ := h.index a (hpq.symm.subset (by simp))
  obtain ⟨hib, hqb⟩ := h.index b (hpq.symm.subset (by simp))
  have hold : ∀ n, ∀ j < c.seq, entryAt ({ c with pq := pq2 }.add n).node j = entryAt c.node j :=
    fun _ j hj => entryAt_add_ne hj.ne
  have hnew : ∀ n, entryAt ({ c with pq := pq2 }.add n).node c.seq = n := fun _ => entryAt_add_self hseq
  refine hq.next hs (hpq.map (·.q)) rfl rfl (hold _) ?_ ?_ (hq.mergesFirstTwo_seq h hm hm1 (hold _) (hnew _))
  · rw [hnew, Node.mkInternal, hia, toNat_index (by omega)]
  · rw [hnew, Node.mkInternal, hib, toNat_index (by omega)]

end

/-! ### The whole of BUILD -/

theorem length_initialSyms (freq : Vector Count 257) : (initialSyms freq).length = (initialLeaves freq).length := by
  simp [initialSyms]

section
variable {freq : Vector Count 257} (node : Vector Node 513)

theorem seq_leafCtx : (leafCtx freq node).seq = (initialLeaves freq).length := by simp [leafCtx, seq_foldl_add]

/-- Every leaf waits when the first merge begins (R141, R142). -/
theorem leafCtx_queued : Queued (initialLeaves freq).length (leafCtx freq node) := by
  have hpq : (leafCtx freq node).pq.map (·.q) = (List.range' 0 (initialLeaves freq).length).reverse := by
    simp [leafCtx, pq_foldl_add]
  refine ⟨(seq_leafCtx node).ge, ?_, fun m => ?_, fun k hL hk => ?_⟩
  · rw [hpq]
    exact List.nodup_reverse.mpr (List.nodup_range' ..)
  · rw [hpq, seq_leafCtx, waiting_leaves]
    simp
  · exact absurd (lt_of_lt_of_eq hk (seq_leafCtx node)) (Nat.not_lt.mpr hL)

variable (hs : freq[sentinelIdx] ≠ 0)
include hs

theorem length_initialLeaves : 2 ≤ (initialLeaves freq).length ∧ (initialLeaves freq).length ≤ 257 := by
  rw [← length_initialSyms]
  exact ⟨two_le_initialSyms hs, length_le_of_legal (nodup_initialSyms hs) (legal_initialSyms freq)⟩

theorem leafCtx_grown : ∃ T, Grown (initialSyms freq) (freqSum freq) T (leafCtx freq node) := by
  obtain ⟨T, hT⟩ := grown_leaves (grown_empty node fun _ => .leaf 0) (initialLeaves_mkLeaf freq)
    (by simpa using (length_initialLeaves hs).2)
  rw [List.append_nil, Nat.add_zero, sum_initialLeaves] at hT
  exact ⟨T, hT⟩

/-- The merges keep the forest, the sums and the order of the queue. -/
theorem builtCtx_queued : ∃ T, Grown (initialSyms freq) (freqSum freq) T (builtCtx freq node) ∧
    Summed (initialLeaves freq).length (builtCtx freq node) ∧ Queued (initialLeaves freq).length (builtCtx freq node) := by
  obtain ⟨T, hT⟩ := leafCtx_grown node hs
  have hsum : Summed (initialLeaves freq).length (leafCtx freq node) :=
    fun k hL hk => absurd (lt_of_lt_of_eq hk (seq_leafCtx node)) (Nat.not_lt.mpr hL)
  refine mergeLoop_keeps (P := fun c => ∃ T, Grown (initialSyms freq) (freqSum freq) T c ∧
    Summed (initialLeaves freq).length c ∧ Queued (initialLeaves freq).length c) ?_ _ ⟨T, hT, hsum, leafCtx_queued node⟩
  rintro c a pq1 b pq2 ⟨T, h, hsum, hq⟩ hm hm1
  have hpq := removeMin_two hm hm1
  have hseq : c.seq < 513 := by
    have hcount := h.count
    have hlen := hpq.length_eq
    have hL := (length_initialLeaves hs).2
    rw [length_initialSyms] at hcount
    simp only [List.length_cons] at hlen
    omega
  obtain ⟨h', hw⟩ := h.merge hseq (freqSum_lt freq) hpq
  exact ⟨_, h', hsum.merge h hseq (hpq.symm.subset (by simp)) (hpq.symm.subset (by simp)) hw, hq.merge h hsum hseq hm hm1⟩

/-- One entry is left in PQ, the last node made, and it is the root (R145, R148). -/
theorem builtCtx_root : (builtCtx freq node).seq = 2 * (initialLeaves freq).length - 1 ∧
    ∃ e, (builtCtx freq node).pq = [e] ∧ e.i = BitVec.ofNat 10 (2 * (initialLeaves freq).length - 2) := by
  obtain ⟨hL, -⟩ := length_initialLeaves hs
  obtain ⟨T, h, hsum, hq⟩ := builtCtx_queued node hs
  have hlen : (leafCtx freq node).pq.length = (initialLeaves freq).length := by simp [leafCtx, length_pq_foldl_add]
  obtain ⟨e, he⟩ : ∃ e, (builtCtx freq node).pq = [e] :=
    mergeLoop_single (List.length_pos_iff.mp (by omega)) (Nat.le_succ _)
  have hcount := h.count
  rw [he, List.length_singleton, length_initialSyms] at hcount
  have hlast : waiting (builtCtx freq node).node (initialLeaves freq).length (builtCtx freq node).seq
      (2 * (initialLeaves freq).length - 2) := by
    refine ⟨by omega, fun j hj hjs => ?_⟩
    obtain ⟨hl, hr, -⟩ := hsum j hj hjs
    exact ⟨by omega, by omega⟩
  rw [← hq.mem_iff, he, List.map_singleton, List.mem_singleton] at hlast
  exact ⟨by omega, e, he, by rw [hlast]; exact (h.index e (by simp [he])).1⟩

/-- No merge rewrites a leaf (R147). -/
theorem entryAt_builtCtx_leaf {k : Nat} (hk : k < (initialLeaves freq).length) :
    (initialLeaves freq)[k]? = some (entryAt (builtCtx freq node).node k) := by
  have hkept := ((Extends.refl (leafCtx freq node)).mergeLoop (leafCtx freq node).pq.length).entry k
    (.inl (by rw [seq_leafCtx]; exact hk))
  have hlen : 0 + (initialLeaves freq).length ≤ 513 := by have := (length_initialLeaves hs).2; omega
  have hleaf := entryAt_foldl_add (c := { node := node, pq := [], seq := 0 }) hlen hk
  rw [Nat.zero_add] at hleaf
  rw [hleaf, builtCtx, hkept, leafCtx]

/-- BUILD writes no entry from NODE_COUNT on (R147). -/
theorem entryAt_builtCtx_unused {k : Nat} (hk : 2 * (initialLeaves freq).length - 1 ≤ k) :
    entryAt (builtCtx freq node).node k = entryAt node k := by
  have hext : Extends { node := node, pq := [], seq := 0 } (builtCtx freq node) :=
    ((Extends.refl _).foldl_add (initialLeaves freq)).mergeLoop _
  exact hext.entry k (.inr (by rw [(builtCtx_root node hs).1]; exact hk))

/-- The sentinel is the last of the live symbols (R141). -/
theorem getLast?_liveSyms : (liveSyms freq).getLast? = some sentinelIdx := by
  have hlast : allSyms = (List.finRange 256).map Fin.castSucc ++ [sentinelIdx] := List.finRange_succ_last
  have hlive : [sentinelIdx].filter (fun k => freq[k] != 0) = [sentinelIdx] := by
    simpa using hs
  rw [liveSyms_eq, hlast, List.filter_append, hlive, List.getLast?_concat]

/-- The last leaf is the sentinel's (R141, R143). -/
theorem getLast?_initialLeaves : (initialLeaves freq).getLast? = some (leafOf freq sentinelIdx) := by
  rw [initialLeaves_eq, List.getLast?_append, List.getLast?_map, getLast?_liveSyms hs]
  rfl

end

/-- BUILD with its check met, where the sentinel is counted (R148, R149). -/
theorem exec_build_eq {s : State} (he : s.flags.err = false) (hv : s.flags.freqValid = true) (hs : s.freq[sentinelIdx] ≠ 0) :
    exec .build s = .next { s with
      flags := { s.flags with
        busy := false
        done := true
        sent := false
        treeValid := true
        treeOrigin := false
        codesValid := false }
      lastCmd := 0x00000003
      cnt := Counters.zero
      tree := {
        root := BitVec.ofNat 10 (2 * (initialLeaves s.freq).length - 2)
        nodeCount := BitVec.ofNat 10 (2 * (initialLeaves s.freq).length - 1)
        leafCount := BitVec.ofNat 10 (initialLeaves s.freq).length }
      node := (builtCtx s.freq s.node).node } := by
  obtain ⟨hseq, e, hpq, hi⟩ := builtCtx_root s.node hs
  rw [exec_build, runCommand_ran (.inl he) (by simp [precondition, hv]), buildBody_eq, prologue_freq, prologue_node, hpq,
    hseq, ← hi]
  rfl

end Sys2Proof.Machine

open Sys2Proof Sys2Proof.Machine

/-- Settles O22: PQ holds the entries that wait, and a merge removes the two that come first. -/
theorem buildMergesTheFirstTwo : Obligations.BuildMergesTheFirstTwo := by
  intro s t he hv hs h k
  obtain ⟨hL2, hL⟩ := length_initialLeaves hs
  obtain ⟨T, -, -, hq⟩ := builtCtx_queued s.node hs
  rw [exec_build_eq he hv hs, Host.Outcome.next.injEq] at h
  subst h
  dsimp only
  rw [toNat_index (by omega), toNat_index (by omega), ← (builtCtx_root s.node hs).1]
  exact hq.merged k

/-- Settles O21: the leaves are written first and no merge rewrites them; each merge makes one node, the last one the root. -/
theorem buildMakesOneLeafPerSymbol : Obligations.BuildMakesOneLeafPerSymbol := by
  intro s leaves L he hv hs hleaves hL
  have heq : leaves = initialLeaves s.freq := by rw [initialLeaves_eq, liveSyms_eq]; exact hleaves
  subst heq hL
  obtain ⟨hL2, hL⟩ := length_initialLeaves hs
  obtain ⟨hseq, -⟩ := builtCtx_root s.node hs
  obtain ⟨T, -, -, hq⟩ := builtCtx_queued s.node hs
  refine ⟨(builtCtx s.freq s.node).node, exec_build_eq he hv hs, hL2, hL, fun k => entryAt_builtCtx_leaf s.node hs, ?_, ?_,
    fun k hk _ => entryAt_builtCtx_unused s.node hs hk⟩
  · have hlast := entryAt_builtCtx_leaf s.node hs (Nat.sub_lt (by omega) Nat.one_pos)
    rw [← List.getLast?_eq_getElem?, getLast?_initialLeaves hs, Option.some.injEq] at hlast
    rw [← hlast]
    rfl
  · obtain ⟨a, b, hn, -⟩ := hq.merged (2 * (initialLeaves s.freq).length - 2) (by omega) (by omega)
    rw [hn]
    rfl

end

section
/-! SUPPORT. DERIVE over a whole tree (43_code_table.md): what the finished table says of each counted leaf symbol, how many
entries it has, and what it leaves of the table before (R161 to R163). -/

namespace Sys2Proof.Machine

/-- A put leaves a symbol that has no entry after it as it was. -/
theorem put_unlisted {c : CodeTable} {j k : SymIdx} {l : BitVec 9} {v : BitVec 256} (h : (c.put j l v).entry[k] = false) :
    c.entry[k] = false ∧ (c.put j l v).len[k] = c.len[k] ∧ (c.put j l v).val[k] = c.val[k] := by
  have hk : k ≠ j := by
    rintro rfl
    rw [(put_self c k l v).1] at h
    exact Bool.false_ne_true h.symm
  obtain ⟨hentry, hcode⟩ := put_ne hk c l v
  exact ⟨hentry ▸ h, hcode⟩

theorem putPath_unlisted {freq : Vector Count 257} {l : BitVec 9} {v : BitVec 256} {c : CodeTable} {p : List Bool × Sym}
    {k : SymIdx} (h : (putPath freq l v c p).entry[k] = false) :
    c.entry[k] = false ∧ (putPath freq l v c p).len[k] = c.len[k] ∧ (putPath freq l v c p).val[k] = c.val[k] := by
  revert h
  unfold putPath
  split
  · exact fun h => ⟨h, rfl, rfl⟩
  · split
    · exact put_unlisted
    · exact fun h => ⟨h, rfl, rfl⟩

theorem foldl_putPath_unlisted {freq : Vector Count 257} {l : BitVec 9} {v : BitVec 256} {c : CodeTable}
    {ps : List (List Bool × Sym)} {k : SymIdx} (h : (ps.foldl (putPath freq l v) c).entry[k] = false) :
    c.entry[k] = false ∧ (ps.foldl (putPath freq l v) c).len[k] = c.len[k] ∧
      (ps.foldl (putPath freq l v) c).val[k] = c.val[k] := by
  induction ps generalizing c with
  | nil => exact ⟨h, rfl, rfl⟩
  | cons p ps ih =>
    obtain ⟨hentry, hlen, hval⟩ := ih h
    obtain ⟨hentry', hlen', hval'⟩ := putPath_unlisted hentry
    exact ⟨hentry', hlen.trans hlen', hval.trans hval'⟩

/-- DERIVE writes the length and the value of no symbol that it gives no entry (R161). -/
theorem derivedCodes_unlisted {t : HTree} {freq : Vector Count 257} {c : CodeTable} {k : SymIdx}
    (h : (derivedCodes t freq c).entry[k] = false) :
    (derivedCodes t freq c).len[k] = c.len[k] ∧ (derivedCodes t freq c).val[k] = c.val[k] :=
  (foldl_putPath_unlisted (c := c.noEntries) h).2

theorem derivedCodes_recorded {s : State} {t : HTree} (h : treeAt s t = true) :
    Recorded s.freq t.paths (derivedCodes t s.freq s.codes) :=
  (deriveBody_recorded h).2

section
variable {freq : Vector Count 257} {t : HTree} {c : CodeTable} (h : Recorded freq t.paths c)
include h

theorem Recorded.entry_iff (k : SymIdx) : c.entry[k] = true ↔ symOf k ∈ t.leaves ∧ freq[k] ≠ 0 := by
  rw [h.entry k, map_snd_paths]

theorem Recorded.countEntries :
    c.countEntries = (allSyms.filter fun k => decide (symOf k ∈ t.leaves) && freq[k] != 0).length := by
  have hentry : ∀ k : SymIdx, c.entry[k] = (decide (symOf k ∈ t.leaves) && freq[k] != 0) := fun k => by
    rw [Bool.eq_iff_iff, h.entry_iff k]
    simp
  simp only [countEntries_eq, hentry]

/-- Where the leaf symbols are distinct, a counted symbol has one path, and its entry is that path's length and value. -/
theorem Recorded.code_eq (hnd : t.leaves.Nodup) {k : SymIdx} {p : List Bool} (hp : (p, symOf k) ∈ t.paths)
    (hf : freq[k] ≠ 0) : c.len[k].toNat = p.length ∧ c.val[k].toNat = valOf p := by
  have hleaf : symOf k ∈ t.leaves := map_snd_paths t ▸ List.mem_map_of_mem hp
  obtain ⟨hcode, hlt⟩ := h.code k ((h.entry_iff k).mpr ⟨hleaf, hf⟩)
  have hbits : codeBits c k = p :=
    congrArg Prod.fst (List.inj_on_of_nodup_map ((map_snd_paths t).symm ▸ hnd) hcode hp rfl)
  rw [← hbits, codeBits, length_bitsOf, valOf_bitsOf hlt]
  exact ⟨rfl, rfl⟩

end

/-- DERIVE with its checks met, on the tree the state holds (R113, R161). -/
theorem exec_derive_eq {s : State} {t : HTree} (he : s.flags.err = false) (hv : s.flags.treeValid = true)
    (ho : s.flags.treeOrigin = false) (h : treeAt s t = true) :
    exec .derive s = .next { s with
      flags := { s.flags with busy := false, done := true, sent := false, codesValid := true }
      lastCmd := 0x00000004
      cnt := { Counters.zero with cntSym := BitVec.ofNat 64 (derivedCodes t s.freq s.codes).countEntries }
      codes := derivedCodes t s.freq s.codes } := by
  have hc : precondition .derive (prologue wordDerive s) = none := by simp [precondition, hv, ho]
  rw [exec_derive, runCommand_ran (.inl he) hc, deriveBody_eq (s := prologue wordDerive s) h]
  rfl

end Sys2Proof.Machine

open Sys2Proof Sys2Proof.Machine

/-- Settles O25: the walk puts each path once, and writes nothing else. -/
theorem deriveRecordsThePaths : Obligations.DeriveRecordsThePaths := by
  intro s t he hv ho ht hnd
  have hrec := derivedCodes_recorded ht
  refine ⟨derivedCodes t s.freq s.codes, ?_, hrec.entry_iff, fun _ _ hp hf => hrec.code_eq hnd hp hf,
    fun _ hk => derivedCodes_unlisted hk⟩
  rw [exec_derive_eq he hv ho ht, hrec.countEntries]

end

section
/-! SUPPORT. Reading a header (45_header_read.md): what each token means and that the header reader's turn is that meaning, RDHDR
as the turns one after the other, and the headers it turns away. -/

namespace Sys2Proof.Machine

/-! ### The meanings of the two tokens -/

section
variable {s : State}

/-- With room in the arena the next entry is the one NODE_COUNT names (R183). -/
theorem allocNode_at {i : Fin 513} (hi : i.val = s.tree.nodeCount.toNat) : allocNode s = some (i, takeEntry s) := by
  obtain ⟨i, hlt⟩ := i
  obtain rfl : i = s.tree.nodeCount.toNat := hi
  exact allocNode_some hlt

/-- A token is no command: outside a header read it has no meaning (R70, R81). -/
theorem exec_token_outside {i : Instr} (hi : i.isCommand = false) (hst : s.hdrStack = none) :
    exec i s = .refused .tokenOutsideHeader := by
  cases i
  case hdrInternal => simp only [exec, execHdrInternal, hst]
  case hdrLeaf y => simp only [exec, execHdrLeaf, hst]
  all_goals simp [Instr.isCommand] at hi

variable {stack : List HdrFrame} (hst : s.hdrStack = some stack)
include hst

/-- A token that finds the arena full has had its flag bit consumed and no more (R186). -/
theorem exec_token_full {i : Instr} (hi : i.isCommand = false) (hc : 513 ≤ s.tree.nodeCount.toNat) :
    exec i s = .next (raise .hdrOversize (consumeIn 1 s)) := by
  have ha := allocNode_none (s := consumeIn 1 s) hc
  cases i
  case hdrInternal => simp only [exec, execHdrInternal, hst, ha]
  case hdrLeaf y => simp only [exec, execHdrLeaf, hst, ha]
  all_goals simp [Instr.isCommand] at hi

theorem exec_hdrInternal_room {i : Fin 513} (hi : i.val = s.tree.nodeCount.toNat) :
    exec .hdrInternal s = .next (openInternal stack i (takeEntry (consumeIn 1 s))) := by
  simp only [exec, execHdrInternal, hst, allocNode_at (s := consumeIn 1 s) hi]

/-- A leaf token with room in the arena consumes its ten bits and takes an entry; then its symbol decides (R185). -/
theorem exec_hdrLeaf_room {i : Fin 513} {y : Sym} (hi : i.val = s.tree.nodeCount.toNat) :
    exec (.hdrLeaf y) s = .next (if symLegal y
      then settleHeader (closeLeaf stack i y (consumeIn 9 (takeEntry (consumeIn 1 s))))
      else raise .hdrSymbol (consumeIn 9 (takeEntry (consumeIn 1 s)))) := by
  simp only [exec, execHdrLeaf, hst, allocNode_at (s := consumeIn 1 s) hi]
  split <;> rfl

end

/-- A leaf's ten bits consumed and its entry taken, as one update. -/
theorem consumeIn_takeEntry (s : State) : consumeIn 9 (takeEntry (consumeIn 1 s)) = takeEntry (consumeIn 10 s) := by
  simp only [consumeIn, takeEntry, BitVec.add_assoc, ← BitVec.ofNat_add]

theorem symLegal_iff {y : Sym} : symLegal y = true ↔ y.toNat ≤ 256 := by
  simp [symLegal]

/-- The header reader's turn on a whole token is the token's meaning (R183, log 6). -/
theorem readHeaderToken_eq_exec {s : State} {stack : List HdrFrame} {i : Instr} {rest : List Bool}
    (hst : s.hdrStack = some stack) (hl : s.inp.bits.length < 2 ^ 64) (hd : decodeToken s.restIn = .ok (i, rest)) :
    readHeaderToken s = exec i s := by
  obtain ⟨bits, he, hb⟩ := decodeToken_ok_iff.mp hd
  simp only [readHeaderToken, hst]
  cases i
  case hdrInternal =>
    cases he
    by_cases hc : s.tree.nodeCount.toNat < 513
    · rw [desToken_internal hb.symm hc, exec_hdrInternal_room (i := ⟨_, hc⟩) hst rfl]
      rfl
    · rw [desToken_full hb.symm (Nat.not_lt.mp hc), exec_token_full hst rfl (Nat.not_lt.mp hc)]
      rfl
  case hdrLeaf y =>
    cases he
    by_cases hc : s.tree.nodeCount.toNat < 513
    · rw [exec_hdrLeaf_room (i := ⟨_, hc⟩) hst rfl]
      cases hy : symLegal y with
      | true =>
        rw [desToken_leaf hl hb.symm hc hy]
        rfl
      | false =>
        rw [desToken_badSymbol hl hb.symm hc hy]
        rfl
    · rw [desToken_full hb.symm (Nat.not_lt.mp hc), exec_token_full hst rfl (Nat.not_lt.mp hc)]
      rfl
  all_goals cases he

/-- The state a leaf token leaves whose symbol is legal: its ten bits consumed, its entry and its leaf counted, the
given arena. -/
def leafClosed (nd : Vector Node 513) (s : State) : State :=
  { s with
    cnt := { s.cnt with cntIn := s.cnt.cntIn + 10 }
    tree := { s.tree with nodeCount := s.tree.nodeCount + 1, leafCount := s.tree.leafCount + 1 }
    node := nd
    inp := { s.inp with pos := s.inp.pos + 10 } }

/-- A leaf token that fits completes the nodes that wait for their right children, and the last index goes on (R183). -/
theorem exec_hdrLeaf_rights {s : State} {y : Sym} {i : Fin 513} {rights : List (Fin 513 × NodeIdx)} {tail : List HdrFrame}
    (hi : i.val = s.tree.nodeCount.toNat) (hy : y.toNat ≤ 256) (hst : s.hdrStack = some (rightFrames rights ++ tail)) :
    let closed := closeParents rights s.tree.nodeCount (s.node.set i (Node.mkLeaf y 0))
    exec (.hdrLeaf y) s = .next (settleHeader (returnChild tail closed.2 (leafClosed closed.1 s))) := by
  have hidx : nodeIdx i = s.tree.nodeCount := by simp [nodeIdx, hi]
  rw [exec_hdrLeaf_room hst hi, if_pos (symLegal_iff.mpr hy), consumeIn_takeEntry, closeLeaf, returnChild_rights, hidx]
  rfl

/-! ### RDHDR as its turns -/

/-- Outside a header read there is no turn to take. -/
theorem headerTurns_outside (n : Nat) {s : State} (h : s.hdrStack = none) : headerTurns n s = .next s := by
  cases n with
  | zero => rfl
  | succ n => simp only [headerTurns, h]

/-- Where the header reader's loop ends, the same number of turns comes to the command's end (R114, R250). -/
theorem headerTurns_eq_finish {n : Nat} {s : State} {stack : List HdrFrame} (hst : s.hdrStack = some stack)
    (h : (headerLoop n s).Ended) : headerTurns n s = (headerLoop n s).finish := by
  induction n generalizing s stack with
  | zero => exact h.elim
  | succ n ih =>
    simp only [headerLoop, headerTurns, readHeaderToken, hst] at h ⊢
    cases hd : desToken stack s with
    | broken f => rw [hd] at h; exact h.elim
    | raised e t => exact headerTurns_outside n rfl
    | done t =>
      rw [hd] at h
      simp only [Ran.settle, settleHeader] at h ⊢
      cases ht : t.hdrStack with
      | some stack' => exact ih ht h
      | none =>
        cases n with
        | zero => exact h.elim
        | succ n =>
          simp only [headerLoop, ht]
          exact headerTurns_outside (n + 1) ht

/-! ### RDHDR and the magic -/

section
variable {s : State}

/-- The magic stands next on IN (R80, R182). -/
def magicNext (s : State) : Prop :=
  32 ≤ s.remaining ∧ BitVec.ofNat 32 (valOf (s.restIn.take 32)) = s.params.magic

theorem magicNext_of_field {b : List Bool} (h : s.restIn = bitsOf 32 s.params.magic.toNat ++ b) : magicNext s := by
  obtain ⟨hn, hv, -⟩ := readBits_some (readBits_field h)
  exact ⟨hn, by rw [← hv, BitVec.ofNat_toNat, BitVec.setWidth_eq]⟩

variable (he : s.flags.err = false)
include he

/-- RDHDR has no check: it ends as its body does (R113). -/
theorem exec_rdhdr_ran : exec .rdhdr s = (rdhdrBody (prologue wordRdhdr s)).finish := by
  rw [exec_rdhdr, runCommand_ran (.inl he) rfl]

theorem magicRead_prologue : magicRead (prologue wordRdhdr s) = headerStart s := by
  simp [magicRead, headerStart, consumeIn, startCall, prologue, Counters.zero, wordRdhdr, Flags.dropValid, Flags.reset, he]

/-- Once the magic has matched RDHDR is the header reader's loop (R183). -/
theorem exec_rdhdr_eq_loop (hm : magicNext s) : exec .rdhdr s = (headerLoop 514 (headerStart s)).finish := by
  obtain ⟨hn, hv⟩ := hm
  have hread := readBits_ok (s := startCall (prologue wordRdhdr s)) (n := 32) hn
  rw [exec_rdhdr_ran he, rdhdrBody, hread, ← magicRead_prologue he]
  exact congrArg Ran.finish (if_neg (by rw [bne_iff_ne]; exact not_not.mpr hv))

theorem exec_rdhdr_eq_turns (hm : magicNext s) : exec .rdhdr s = headerTurns 514 (headerStart s) := by
  have h0 : (headerStart s).tree.nodeCount.toNat = 0 := rfl
  have hend : (headerLoop 514 (headerStart s)).Ended := headerLoop_ended (by omega) (by omega)
  rw [exec_rdhdr_eq_loop he hm, headerTurns_eq_finish rfl hend]

/-- Fewer bits than the magic has: nothing is consumed (R182). -/
theorem exec_rdhdr_short (hn : s.remaining < 32) :
    exec .rdhdr s = .next (raise .magicShort (startCall (prologue wordRdhdr s))) := by
  have hread := readBits_exhausted (s := startCall (prologue wordRdhdr s)) (n := 32) hn
  rw [exec_rdhdr_ran he, rdhdrBody, hread]
  rfl

/-- Other bits than the magic: they are consumed (R182). -/
theorem exec_rdhdr_mismatch (hn : 32 ≤ s.remaining) (hv : BitVec.ofNat 32 (valOf (s.restIn.take 32)) ≠ s.params.magic) :
    exec .rdhdr s = .next (raise .magicMismatch (consumeIn 32 (startCall (prologue wordRdhdr s)))) := by
  have hread := readBits_ok (s := startCall (prologue wordRdhdr s)) (n := 32) hn
  rw [exec_rdhdr_ran he, rdhdrBody, hread]
  exact congrArg Ran.finish (if_pos (bne_iff_ne.mpr hv))

/-- RDHDR on a header of at most 513 nodes comes to its end with the tree read in from entry 0 (R183, R188). -/
theorem exec_rdhdr_tree {t : HTree} {rest : List Bool} (hl : s.inp.bits.length < 2 ^ 64)
    (hb : s.restIn = bitsOf 32 s.params.magic.toNat ++ (t.header ++ rest)) (hs : t.symsLegal = true) (hc : t.size ≤ 513) :
    ∃ nd, exec .rdhdr s = .next (complete (headerDone 0 (readTree t nd (headerStart s)))) ∧ ReadInto s.node nd t 0 := by
  have hb1 : (headerStart s).restIn = t.header ++ rest := restIn_after_field (n := 32) hl (by decide) hb
  have hc0 : (headerStart s).tree.nodeCount.toNat + t.size ≤ 513 := by simpa [headerStart, TreeRegs.zero] using hc
  obtain ⟨nd, hloop, hinto⟩ := headerLoop_subtree (s := headerStart s) (fuel := 513 - t.size + 1) hl rfl hb1 hs hc0
  refine ⟨nd, ?_, hinto⟩
  rw [exec_rdhdr_eq_loop he (magicNext_of_field hb), show 514 = t.size + (513 - t.size + 1) by omega, hloop]
  rfl

end

/-! ### RDHDR on a header that fails after whole tokens -/

/-- n more bits consumed and m more arena entries taken. -/
def movedOn (n m : Nat) (s : State) : State :=
  let t := consumeIn n s
  { t with tree := { t.tree with nodeCount := t.tree.nodeCount + BitVec.ofNat 10 m } }

theorem movedOn_bits (n : Nat) (s : State) : movedOn n 0 s = consumeIn n s := by
  simp [movedOn, consumeIn]

theorem movedOn_zero (s : State) : movedOn 0 0 s = s := by
  simp [movedOn, consumeIn]

/-- Where the turn after whole tokens raises an error with n bits consumed and m entries taken, so does RDHDR, on top of what the
tokens' meanings have done (R184 to R186, R189). -/
theorem rdhdr_fails_after_tokens {ts : List Instr} {s : State} {rest : List Bool} {e : ErrCode} (n m : Nat)
    (he : s.flags.err = false) (hl : s.inp.bits.length < 2 ^ 64) (hg : goodTokens ts = true) (ho : headerOpen 1 ts ≠ 0)
    (hn : ts.length ≤ 513) (hb : s.restIn = bitsOf 32 s.params.magic.toNat ++ (tokenBits ts ++ rest))
    (hd : ∀ stack u, u.inp.bits.length < 2 ^ 64 → u.restIn = rest → u.tree.nodeCount.toNat = ts.length →
      desToken stack u = .raised e (movedOn n m u)) :
    ∃ u, execAll ts (headerStart s) = .next u ∧ tokensWritten ts s.node u.node ∧
      exec .rdhdr s = .next (rdhdrFailed e (32 + (tokenBits ts).length + n) (tokenCounts ts m) u.node s) := by
  obtain ⟨nd, stack, hex, hw, hrest, hfail⟩ := rdhdr_tokens he hl hg ho hn hb
  have hcount : (readTokens ts nd stack (headerStart s)).tree.nodeCount.toNat = ts.length :=
    (congrArg BitVec.toNat (BitVec.zero_add _)).trans (toNat_index (by omega))
  exact ⟨_, hex, hw, (hfail _ _ (hd _ _ hl hrest hcount)).trans (congrArg _ (raised_readTokens e n m))⟩

/-- Inside a header read with the host silent and no whole token left, the step is the header reader's turn (R184). -/
theorem step_cutToken {s : State} {stack : List HdrFrame} {e : DecodeError} (hb : s.flags.busy = true)
    (hst : s.hdrStack = some stack) (hq : s.host.queue = []) (hd : decodeToken s.restIn = .error e) :
    step s = (desToken stack s).settle := by
  have he : nextEvent s = .cutToken s := by simp [nextEvent, hb, nextWhileBusy, hq, nextToken, hst, hd]
  simp only [step, he, readHeaderToken, hst]

theorem decodeToken_cut {c : List Bool} (hn : c.length < 9) : decodeToken (true :: c) = .error .cutLeaf := by
  rw [decodeToken, if_pos hn]

end Sys2Proof.Machine

open Sys2Proof Sys2Proof.Machine

/-- Settles O6: the two kinds of token, each with room in the arena and without. -/
theorem headerReaderRunsItsTokens : Obligations.HeaderReaderRunsItsTokens := fun _ _ _ _ =>
  readHeaderToken_eq_exec

/-- Settles O33: with room, with a full arena, and outside a header read. -/
theorem internalTokenOpensANode : Obligations.InternalTokenOpensANode := by
  refine fun s => ⟨exec_token_outside rfl, fun stack hst => ⟨fun i hi => ?_, fun hc => ?_⟩⟩
  · rw [exec_hdrInternal_room hst hi]
    rfl
  · rw [exec_token_full hst rfl hc]
    rfl

/-- Settles O34: every stack has one of two forms, and each returns the leaf's index in its own way. -/
theorem leafTokenClosesANode : Obligations.LeafTokenClosesANode := by
  refine fun s y => ⟨exec_token_outside rfl, fun stack hst =>
    ⟨fun hc hy => ?_, fun i rights hi hy => ⟨?_, ?_⟩, fun hc hy => ?_, fun hc => ?_⟩⟩
  · rcases stack_cases stack with ⟨rights, rfl⟩ | ⟨rights, j, below, rfl⟩
    · rw [← List.append_nil (rightFrames rights)] at hst
      exact ⟨_, exec_hdrLeaf_rights (i := ⟨_, hc⟩) rfl hy hst, rfl, rfl⟩
    · exact ⟨_, exec_hdrLeaf_rights (i := ⟨_, hc⟩) rfl hy hst, rfl, rfl⟩
  · rintro rfl
    exact exec_hdrLeaf_rights (rights := rights) (tail := []) hi hy (by rw [hst, List.append_nil]; rfl)
  · rintro j below rfl
    exact exec_hdrLeaf_rights hi hy hst
  · rw [exec_hdrLeaf_room (i := ⟨_, hc⟩) hst rfl, if_neg (by rw [symLegal_iff]; omega), consumeIn_takeEntry]
    rfl
  · rw [exec_token_full hst rfl hc]
    rfl

/-- Settles O7: the loop of RDHDR's body always ends, and its turns are the reader's own. -/
theorem rdhdrIsItsTurns : Obligations.RdhdrIsItsTurns := fun _ he hn hv =>
  exec_rdhdr_eq_turns he ⟨hn, hv⟩

/-- Settles O29: the body ends at its first read, or at the comparison after it. -/
theorem rdhdrChecksTheMagic : Obligations.RdhdrChecksTheMagic := by
  refine fun s he => ⟨fun hn => ?_, fun hn hv => ?_⟩
  · rw [exec_rdhdr_short he hn]
    rfl
  · rw [exec_rdhdr_mismatch he hn hv]
    rfl

/-- Settles O28: the loop reads the whole header as one subtree from entry 0. -/
theorem rdhdrRebuildsTheTree : Obligations.RdhdrRebuildsTheTree := by
  intro s t rest he hl hb hs hc
  obtain ⟨nd, hx, hh, hp, hold, hw⟩ := exec_rdhdr_tree he hl hb hs hc
  have hlen : 32 + (11 * t.leaves.length - 1) = 32 + t.header.length := by have := length_header t; omega
  refine ⟨nd, ?_, hh, ?_, fun k hk => ?_, fun k hk hlt => ?_⟩
  · rw [hx, hlen]
    simp [complete, headerDone, readTree, headerStart, TreeRegs.zero, Counters.zero, Flags.reset, BitVec.ofNat_add,
      BitVec.add_assoc]
  · rw [List.range_eq_range']
    exact hp
  · have hlt : k < 513 := by omega
    simpa [entryAt, hlt] using hw ⟨k, hlt⟩ (Nat.zero_le k) (by simpa using hk)
  · simpa [entryAt, hlt] using hold ⟨k, hlt⟩ (.inr (by simpa using hk))

/-- Settles O30: the failing turn finds IN empty, or a leaf's flag alone on it. -/
theorem rdhdrRefusesACutHeader : Obligations.RdhdrRefusesACutHeader := by
  refine ⟨fun s ts he hl hg ho => ⟨fun hn hb => ?_, fun c hn hc hb => ?_⟩, fun s stack hbusy hst hq hl =>
    ⟨fun hb => ?_, fun c hb hc => ⟨fun hn => ?_, fun hn => ?_⟩⟩⟩
  · rw [← List.append_nil (tokenBits ts)] at hb
    exact rdhdr_fails_after_tokens 0 0 he hl hg ho hn hb fun _ u _ hr _ => (desToken_empty hr).trans (by rw [movedOn_zero])
  · exact rdhdr_fails_after_tokens 1 1 he hl hg ho hn.le hb fun _ _ hl hr hu => desToken_cut hl hr hc (hu ▸ hn)
  · rw [step_cutToken hbusy hst hq (by rw [hb]; rfl), desToken_empty hb]
    rfl
  · rw [step_cutToken hbusy hst hq (by rw [hb]; exact decodeToken_cut hc), desToken_cut hl hb hc hn]
    rfl
  · rw [step_cutToken hbusy hst hq (by rw [hb]; exact decodeToken_cut hc), desToken_full hb hn]
    rfl

/-- Settles O31: the failing turn reads a whole leaf token, whatever follows it. -/
theorem rdhdrRefusesABadSymbol : Obligations.RdhdrRefusesABadSymbol := by
  intro s ts y rest he hl hg ho hn hy hb
  have hbad : symLegal y = false := by rw [← Bool.not_eq_true, symLegal_iff]; omega
  exact rdhdr_fails_after_tokens 10 1 he hl hg ho hn.le hb fun _ u hl hr hu =>
    (desToken_badSymbol hl hr (hu ▸ hn) hbad).trans (congrArg _ (consumeIn_takeEntry u))

/-- Settles O32: the failing turn reads a flag and finds the arena full. -/
theorem rdhdrRefusesABigHeader : Obligations.RdhdrRefusesABigHeader := by
  intro s ts f rest he hl hg ho hn hb
  exact rdhdr_fails_after_tokens 1 0 he hl hg ho hn.le hb fun _ u _ hr hu =>
    (desToken_full hr (by omega)).trans (by rw [movedOn_bits])

end

section
/-! SUPPORT. ENCODE (46_stream_encoder.md): the pass over the whole of IN and the terminator after it, as one update of the
state. -/

namespace Sys2Proof.Machine

/-- A code written is its bits appended to OUT (R87, R201). -/
theorem writeCode_eq (k : SymIdx) (s : State) : writeCode k s = appendOut (codeBits s.codes k) s :=
  writeBits_eq _ _ s

section
variable {s : State} {bs : List (BitVec 8)} (hl : s.inp.bits.length < 2 ^ 64) (hb : bytesOf s.inp.bits = bs)
include hl hb

/-- ENCODE's body passes over every whole byte of IN, wherever IN.pos stood, and ends with the sentinel's code
(R200, R201, R203). -/
theorem encodeBody_done :
    encodeBody s = .done (appendOut (codeBits s.codes sentinelIdx) (bs.foldl encodeOne (inRewind s))) := by
  have hfuel : bs.length < s.inp.bits.length / 8 + 1 := by
    rw [← hb, length_bytesOf]
    exact Nat.lt_succ_self _
  have hcodes : (bs.foldl encodeOne (inRewind s)).codes = s.codes := by rw [foldl_encodeOne_eq, inRewind_codes]
  rw [encodeBody, encodeLoop_done (s := inRewind s) hl hb hfuel, ← hcodes, ← writeCode_eq]

/-- ENCODE with its checks met completes as its body does (R113, R201). -/
theorem exec_encode_completed (he : s.flags.err = false) (hv : s.flags.codesValid = true) (ho : s.out.closed = false) :
    exec .encode s = .next (complete (appendOut (codeBits s.codes sentinelIdx)
      (bs.foldl encodeOne (inRewind (prologue wordEncode s))))) := by
  have hc : precondition .encode (prologue wordEncode s) = none := by simp [precondition, hv, ho]
  rw [exec_encode, runCommand_ran (.inl he) hc, encodeBody_done (s := prologue wordEncode s) hl hb]
  rfl

end

end Sys2Proof.Machine

open Sys2Proof Sys2Proof.Machine

/-- Settles O37: the pass adds each byte's code or nothing, and the terminator completes the payload. -/
theorem encodeWritesThePayload : Obligations.EncodeWritesThePayload := by
  intro s bs he hv ho hl hb
  have hp : payload s.codes bs = bs.flatMap (byteCode s.codes) ++ codeBits s.codes sentinelIdx := rfl
  rw [exec_encode_completed hl hb he hv ho, foldl_encodeOne_eq, hp]
  simp [complete, appendOut, prologue, Counters.zero, wordEncode, BitVec.ofNat_add]

end

section
/-! SUPPORT. DECODE (47_stream_decoder.md): with its checks met it ends as its body does, which refuses a leaf root or is the state
machine of R218 on the tree. -/

namespace Sys2Proof.Machine

/-- A leaf at ROOT is refused before any read, whatever the rest of the arena holds (R212). -/
theorem decodeBody_leafRoot {s : State} {y : Sym} (h : holds s.node (.leaf y) s.tree.root = true) :
    decodeBody s = .raised .treeLeafRoot s := by
  obtain ⟨n, hn, hleaf, -⟩ := holds_leaf h
  simp only [decodeBody, hn, hleaf, if_true]

section
variable {s : State} (he : s.flags.err = false) (hv : s.flags.treeValid = true) (ho : s.out.closed = false)
include he hv ho

/-- DECODE with its checks met ends as its body does (R113). -/
theorem exec_decode_ran : exec .decode s = (decodeBody (prologue wordDecode s)).finish := by
  have hc : precondition .decode (prologue wordDecode s) = none := by simp [precondition, hv, ho]
  rw [exec_decode, runCommand_ran (.inl he) hc]

/-- DECODE on a tree with an internal root ends as the state machine does on the bits left of IN (R211, R218). -/
theorem exec_decode_node {l r : HTree} {ending : List Sym × Option (List Bool)} (hl : s.inp.bits.length < 2 ^ 64)
    (ht : treeAt s (.node l r) = true) (hd : descend (.node l r) (.node l r) s.restIn = ending) :
    exec .decode s = (decodeAnswer (prologue wordDecode s) s.remaining ending).finish := by
  rw [exec_decode_ran he hv ho, decodeBody_node (s := prologue wordDecode s) hl ht, ← hd]
  rfl

end

/-- The position at the end of IN is IN's length (R35). -/
theorem pos_add_remaining {s : State} (hp : s.inp.pos.toNat ≤ s.inp.bits.length) :
    s.inp.pos + BitVec.ofNat 64 s.remaining = BitVec.ofNat 64 s.inp.bits.length := by
  calc s.inp.pos + BitVec.ofNat 64 s.remaining
      = BitVec.ofNat 64 (s.inp.pos.toNat + (s.inp.bits.length - s.inp.pos.toNat)) := by
        rw [BitVec.ofNat_add, BitVec.ofNat_toNat, BitVec.setWidth_eq, State.remaining]
    _ = BitVec.ofNat 64 s.inp.bits.length := by rw [Nat.add_sub_of_le hp]

end Sys2Proof.Machine

open Sys2Proof Sys2Proof.Machine

/-- Settles O38: the body's answer is the state after the bits up to the sentinel's code, which the completion ends. -/
theorem decodeEndsAtTheSentinel : Obligations.DecodeEndsAtTheSentinel := by
  intro s l r ys rest he hv ho hl ht hd
  rw [exec_decode_node he hv ho hl ht hd]
  simp [decodeAnswer, finish_done, complete, decoded, prologue, Counters.zero, wordDecode]

/-- Settles O39: the body raises in the state after every bit left, so at the end of IN. -/
theorem decodeRunsOutOfBits : Obligations.DecodeRunsOutOfBits := by
  intro s l r ys he hv ho hl hp ht hd
  rw [exec_decode_node he hv ho hl ht hd, ← pos_add_remaining hp]
  simp [decodeAnswer, finish_raised, raise, decoded, prologue, Counters.zero, wordDecode, Flags.dropValid, Flags.reset,
    ErrCode.number, ErrCode.kind]

/-- Settles O40: the body raises in the state the prologue leaves. -/
theorem decodeRefusesALeafRoot : Obligations.DecodeRefusesALeafRoot := by
  intro s y he hv ho hy
  rw [exec_decode_ran he hv ho, decodeBody_leafRoot (s := prologue wordDecode s) hy]
  exact congrArg _ (raise_prologue _ _ _)

end

section
/-! SUPPORT. No step from a state with the invariants stops but for an AttachIn that is too long (R238, R283). -/

namespace Sys2Proof.Machine

/-- An illegal word is answered by a next state, discarded or raising (R93, R111). -/
theorem execIllegal_ended (w : Word) (s : State) : ∃ t, execIllegal w s = .next t := by
  cases he : s.flags.err with
  | true => exact ⟨s, execIllegal_discarded he⟩
  | false => exact ⟨_, execIllegal_raises w he⟩

/-- The one host action that is turned away is an AttachIn of 2^64 bits or more (R280, R283). -/
theorem hostAct_ended (a : HostAction) (s : State) : (∃ t, hostAct a s = .next t) ∨
    ∃ b, a = .attachIn b ∧ 2 ^ 64 ≤ b.length ∧ hostAct a s = .refused .inputTooLong := by
  cases a with
  | attachIn b =>
    by_cases hb : b.length < 2 ^ 64
    · exact .inl ⟨_, if_pos hb⟩
    · exact .inr ⟨b, rfl, Nat.not_lt.mp hb, if_neg hb⟩
  | _ => exact .inl ⟨_, rfl⟩

/-- A step from a state with the invariants answers a next state, or refuses an AttachIn that is too long. -/
theorem step_ended {s : State} (hs : Inv s) : (∃ t, step s = .next t) ∨
    ∃ b q, s.host.queue = .attachIn b :: q ∧ 2 ^ 64 ≤ b.length ∧ step s = .refused .inputTooLong := by
  have hbusy := (boundary_iff.mp hs.1).1
  rcases step_boundary hbusy with ⟨-, hx⟩ | ⟨w, q, i, -, hd, hx⟩ | ⟨w, q, e, -, -, hx⟩ | ⟨a, q, hq, -, hx⟩ <;> rw [hx]
  · exact .inl ⟨s, rfl⟩
  · exact .inl (exec_ended (s := popHost s q) (isCommand_of_decode hd) hs)
  · exact .inl (execIllegal_ended w _)
  · refine (hostAct_ended a (popHost s q)).imp_right ?_
    rintro ⟨b, rfl, hb, hr⟩
    exact ⟨b, q, hq, hb, hr⟩

end Sys2Proof.Machine

open Sys2Proof Sys2Proof.Machine

/-- Settles O53: every event of a command boundary ends, but for the host's overlong AttachIn. -/
theorem invariantStatesNeverFault : Obligations.InvariantStatesNeverFault := by
  intro s hs
  rcases step_ended hs with ⟨t, hx⟩ | ⟨b, q, hq, hb, hx⟩ <;> rw [hx]
  · exact ⟨fun _ => nofun, fun _ => nofun⟩
  · exact ⟨fun _ => nofun, fun _ _ => ⟨b, q, hq, hb⟩⟩

end

section
/-! SUPPORT. Headers written and read back (48_properties.md, R232): what RDHDR leaves of a tree's header, for the commands that
follow it. -/

namespace Sys2Proof.Machine

/-- A command has ended without error, and the streams are as they were but for IN.pos. -/
structure Quiet (u v : State) : Prop where
  err : v.flags.err = false
  inBits : v.inp.bits = u.inp.bits
  out : v.out = u.out
  params : v.params = u.params

/-- What RDHDR leaves in `v` where the header of `t` stood on `u`'s IN before `rest` (R183, R188). -/
structure HeaderTaken (t : HTree) (rest : List Bool) (u v : State) : Prop extends Quiet u v where
  treeValid : v.flags.treeValid = true
  tree : treeAt v t = true
  restIn : v.restIn = rest

/-- RDHDR takes the header of any tree that fits the arena. -/
theorem exec_rdhdr_takes {u : State} {t : HTree} {rest : List Bool} (he : u.flags.err = false)
    (hl : u.inp.bits.length < 2 ^ 64) (hb : u.restIn = bitsOf 32 u.params.magic.toNat ++ (t.header ++ rest))
    (hs : t.symsLegal = true) (hc : t.size ≤ 513) : ∃ v, exec .rdhdr u = .next v ∧ HeaderTaken t rest u v := by
  obtain ⟨nd, hx, hinto⟩ := exec_rdhdr_tree he hl hb hs hc
  have hstart : (headerStart u).restIn = t.header ++ rest := restIn_after_field (n := 32) hl (by decide) hb
  have htree : treeAt (headerDone 0 (readTree t nd (headerStart u))) t = true :=
    treeAt_of_readInto (s := prologue wordRdhdr u) hs hc hinto
  exact ⟨_, hx, ⟨rfl, rfl, rfl, rfl⟩, rfl, htree, restIn_readTree (nd := nd) hl hstart⟩

/-- An RDHDR that ends without error has taken the header of a tree. -/
theorem exec_rdhdr_taken {u v : State} (he : u.flags.err = false) (hl : u.inp.bits.length < 2 ^ 64)
    (h : exec .rdhdr u = .next v) (hv : v.flags.err = false) :
    ∃ t, u.restIn = bitsOf 32 u.params.magic.toNat ++ (HTree.header t ++ v.restIn) ∧ HeaderTaken t v.restIn u v := by
  obtain ⟨t, hb, ht⟩ := acceptedHeadersAreTrees u v he hl h hv
  obtain ⟨-, -, -, -, -, hs⟩ := treeAt_iff.mp ht
  obtain ⟨v', hx, htaken⟩ := exec_rdhdr_takes he hl hb hs (size_le_of_treeAt ht)
  obtain rfl : v' = v := Host.Outcome.next.inj (hx.symm.trans h)
  exact ⟨t, hb, htaken⟩

end Sys2Proof.Machine

open Sys2Proof Sys2Proof.Machine

/-- Settles O36: what WRHDR appends is the header of the tree held, and what RDHDR accepts is the header of the tree it leaves. -/
theorem headerFidelity : Obligations.HeaderFidelity := by
  constructor
  · intro s t he hv ho ht
    refine ⟨_, t.header, wrhdrWritesMagicAndHeader s t he hv ho ht, List.append_assoc _ _ _, fun u rest hm heu hl hb => ?_⟩
    rw [← hm, List.append_assoc] at hb
    obtain ⟨-, -, -, -, -, hs⟩ := treeAt_iff.mp ht
    obtain ⟨v, hx, h⟩ := exec_rdhdr_takes heu hl hb hs (size_le_of_treeAt ht)
    exact ⟨v, hx, h.treeValid, h.tree, h.restIn⟩
  · intro u v he hl ho hx hv
    obtain ⟨t, hb, h⟩ := exec_rdhdr_taken he hl hx hv
    have hov : v.out.closed = false := by rw [h.out, ho]
    refine ⟨t.header, _, by rw [hb, List.append_assoc], wrhdrWritesMagicAndHeader v t hv h.treeValid hov h.tree, ?_⟩
    rw [← h.params]
    exact List.append_assoc _ _ _

end

section
/-! SUPPORT. Payloads written and read back (48_properties.md, R230): the state machine of R218 on the code of one symbol, and on
the codes of a byte sequence with the sentinel's after them. -/

namespace Sys2Proof.Machine

/-- A path of an internal node is a step to one of its children and a path of that child (R17, R86). -/
theorem mem_paths_node {l r : HTree} {p : List Bool} {y : Sym} (h : (p, y) ∈ (HTree.node l r).paths) :
    ∃ b q, p = b :: q ∧ (q, y) ∈ (if b = true then r else l).paths := by
  simp only [HTree.paths, List.mem_append, List.mem_map, Prod.mk.injEq] at h
  rcases h with ⟨⟨q, z⟩, hq, rfl, rfl⟩ | ⟨⟨q, z⟩, hq, rfl, rfl⟩
  · exact ⟨false, q, rfl, hq⟩
  · exact ⟨true, q, rfl, hq⟩

/-- On the path of a leaf the decoder comes to that leaf: it ends there if the symbol is the sentinel, and emits the symbol and
starts at the root again if not (R211, R215). -/
theorem descend_path {root l r : HTree} {p : List Bool} {y : Sym} (h : (p, y) ∈ (HTree.node l r).paths) (bs : List Bool) :
    descend root (.node l r) (p ++ bs) =
      if y = sentinelSym then ([], some bs) else (y :: (descend root root bs).1, (descend root root bs).2) := by
  induction p generalizing l r with
  | nil =>
    obtain ⟨b, q, hp, -⟩ := mem_paths_node h
    cases hp
  | cons b q ih =>
    obtain ⟨b', q', hp, hq⟩ := mem_paths_node h
    cases hp
    rw [List.cons_append, descend]
    cases hc : (if b = true then r else l) with
    | leaf z =>
      rw [hc, HTree.paths, List.mem_singleton, Prod.mk.injEq] at hq
      obtain ⟨rfl, rfl⟩ := hq
      rfl
    | node l' r' => exact ih (hc ▸ hq)

theorem symOf_byteIdx_ne_sentinel (b : BitVec 8) : symOf (byteIdx b) ≠ sentinelSym := by
  intro h
  have hv := congrArg BitVec.toNat h
  rw [symOf_toNat] at hv
  exact absurd hv b.isLt.ne

/-- The symbols of bytes are emitted as the bytes' bits (R58, R214). -/
theorem emitted_bytes (bs : List (BitVec 8)) : emitted (bs.map fun b => symOf (byteIdx b)) = bitsOfBytes bs := by
  induction bs with
  | nil => rfl
  | cons b bs ih =>
    rw [bitsOfBytes, ← ih, List.map_cons, emitted, List.flatMap_cons, symOf_toNat]
    rfl

theorem payload_cons {c : CodeTable} {b : BitVec 8} (hb : c.entry[byteIdx b] = true) (bs : List (BitVec 8)) :
    payload c (b :: bs) = codeBits c (byteIdx b) ++ payload c bs := by
  simp only [payload, List.flatMap_cons, hb, if_true, List.append_assoc]

/-- The decoder on the payload of bytes that all have codes emits them, ends at the sentinel's code, and leaves what follows. -/
theorem descend_payload {freq : Vector Count 257} {l r : HTree} {c : CodeTable} {bs : List (BitVec 8)}
    (hc : codesFor freq (.node l r) c = true) (hb : ∀ b ∈ bs, c.entry[byteIdx b] = true) (hs : c.entry[sentinelIdx] = true)
    (rest : List Bool) : descend (.node l r) (.node l r) (payload c bs ++ rest) =
      (bs.map fun b => symOf (byteIdx b), some rest) := by
  induction bs with
  | nil => exact (descend_path (codeBits_mem_paths hc hs) rest).trans (if_pos rfl)
  | cons b bs ih =>
    have hbs := List.forall_mem_cons.mp hb
    rw [payload_cons hbs.1, List.append_assoc, descend_path (codeBits_mem_paths hc hbs.1),
      if_neg (symOf_byteIdx_ne_sentinel b), ih hbs.2]
    rfl

/-- What DECODE leaves in `v` where the payload of `bs` stood on `u`'s IN before `rest` (R211, R215). -/
structure PayloadTaken (bs : List (BitVec 8)) (rest : List Bool) (u v : State) : Prop where
  err : v.flags.err = false
  sent : v.flags.sent = true
  outBits : v.out.bits = u.out.bits ++ bitsOfBytes bs
  restIn : v.restIn = rest

/-- DECODE takes the payload that a code table of its tree makes of bytes with codes. -/
theorem exec_decode_takes {u : State} {freq : Vector Count 257} {l r : HTree} {c : CodeTable} {bs : List (BitVec 8)}
    {rest : List Bool} (hc : codesFor freq (.node l r) c = true) (hb : ∀ b ∈ bs, c.entry[byteIdx b] = true)
    (hs : c.entry[sentinelIdx] = true) (he : u.flags.err = false) (hv : u.flags.treeValid = true)
    (ho : u.out.closed = false) (hl : u.inp.bits.length < 2 ^ 64) (ht : treeAt u (.node l r) = true)
    (hp : u.restIn = payload c bs ++ rest) : ∃ v, exec .decode u = .next v ∧ PayloadTaken bs rest u v := by
  have hd := descend_payload hc hb hs rest
  rw [← hp] at hd
  have hlt : rest.length < u.remaining := by rw [← length_restIn]; exact length_descend hd
  have hn : u.remaining - rest.length = (payload c bs).length := by rw [← length_restIn, hp]; simp
  refine ⟨_, decodeEndsAtTheSentinel u l r _ rest he hv ho hl ht hd, he, rfl, by rw [← emitted_bytes], ?_⟩
  calc (consumeIn (u.remaining - rest.length) u).restIn
      = u.restIn.drop (u.remaining - rest.length) := restIn_consumeIn hl (Nat.sub_le _ _) (Nat.sub_pos_of_lt hlt)
    _ = rest := by rw [hn, hp, List.drop_left]

end Sys2Proof.Machine

open Sys2Proof Sys2Proof.Machine

/-- Settles O41: ENCODE's bits are the payload, and each of its codes is a path of the tree DECODE walks. -/
theorem payloadFidelity : Obligations.PayloadFidelity := by
  intro s u l r bs rest he hv ho hl hbs hc hb hs heu hvu hou hlu htu
  refine ⟨_, payload s.codes bs, encodeWritesThePayload s bs he hv ho hl hbs, rfl, fun hp => ?_⟩
  obtain ⟨v, hx, h⟩ := exec_decode_takes hc hb hs heu hvu hou hlu htu hp
  exact ⟨v, hx, h.sent, h.outBits, h.restIn⟩

end

section
/-! SUPPORT. BUILD as a function of the frequency table (R142 to R147, R231): whatever the arena held before it, it makes one and
the same tree. -/

namespace Sys2Proof.Machine

/-- An arena holds one tree at an index. -/
theorem holds_unique {node : Vector Node 513} {t t' : HTree} {i : NodeIdx} (h : holds node t i = true)
    (h' : holds node t' i = true) : t = t' := by
  induction t generalizing t' i with
  | leaf y =>
    obtain ⟨n, hn, hleaf, rfl⟩ := holds_leaf h
    cases t' with
    | leaf y' => simpa [holds, hn, hleaf] using h'
    | node l' r' => simp [holds, hn, hleaf] at h'
  | node l r ihl ihr =>
    obtain ⟨n, hn, hleaf, hl, hr⟩ := holds_node h
    cases t' with
    | leaf y' => simp [holds, hn, hleaf] at h'
    | node l' r' =>
      obtain ⟨hl', hr'⟩ : holds node l' n.left = true ∧ holds node r' n.right = true := by simpa [holds, hn, hleaf] using h'
      rw [ihl hl hl', ihr hr hr']

/-- A tree that stands below entry n is held by every arena with the same entries there. -/
theorem holds_of_nodesAgree {n : Nat} {a b : Vector Node 513} {t : HTree} {i : NodeIdx} (h : holds a t i = true)
    (hlt : ∀ j ∈ places a t i, j.toNat < n) (hab : NodesAgree n a b) : holds b t i = true := by
  refine (holds_congr h fun j hj => ?_).1
  have hj' := places_lt h j hj
  have he := hab ⟨j.toNat, hj'⟩ (hlt j hj)
  rw [nodeAt_eq hj', nodeAt_eq hj']
  simpa [entryAt, hj'] using he.symm

/-- BUILD makes the tree `t` of the frequency table, on some machine. -/
def BuildMakes (freq : Vector Count 257) (t : HTree) : Prop :=
  ∃ s u, s.flags.err = false ∧ s.flags.freqValid = true ∧ s.freq = freq ∧ exec .build s = .next u ∧ treeAt u t = true

section
variable {freq : Vector Count 257} {t t' : HTree} (hs : freq[sentinelIdx] ≠ 0) (h : BuildMakes freq t)
include hs h

theorem BuildMakes.unique (h' : BuildMakes freq t') : t = t' := by
  obtain ⟨s, u, he, hv, rfl, hx, ht⟩ := h
  obtain ⟨s', u', he', hv', hf, hx', ht'⟩ := h'
  obtain rfl := Host.Outcome.next.inj ((exec_build_eq he hv hs).symm.trans hx)
  obtain rfl := Host.Outcome.next.inj ((exec_build_eq he' hv' (hf ▸ hs)).symm.trans hx')
  obtain ⟨hh, -, hlt, -⟩ := treeAt_iff.mp ht
  obtain ⟨hh', -⟩ := treeAt_iff.mp ht'
  rw [hf] at hh'
  refine holds_unique (holds_of_nodesAgree hh hlt ((builtCtx_agree s.freq s.node s'.node).nodes.mono ?_)) hh'
  rw [(builtCtx_root s.node hs).1, BitVec.toNat_ofNat]
  exact Nat.mod_le _ _

/-- What is known of the tree: it fits the arena, it has distinct legal symbols and an internal root, and every symbol counted is
among its leaves (R38 (e) and (f), R141). -/
theorem BuildMakes.tree : t.symsLegal = true ∧ t.size ≤ 513 ∧ t.built = true ∧
    ∀ k : SymIdx, freq[k] ≠ 0 → symOf k ∈ t.leaves := by
  obtain ⟨s, u, he, hv, rfl, hx, ht⟩ := h
  obtain ⟨t', ht', hbuilt, hmem⟩ := buildMakesATree s u he hv hs hx
  obtain ⟨hh, -, -, -, -, hlegal⟩ := treeAt_iff.mp ht
  obtain rfl := holds_unique (treeAt_iff.mp ht').1 hh
  exact ⟨hlegal, size_le_of_treeAt ht, hbuilt, fun k hk => (hmem k).mpr (.inl hk)⟩

end

/-- A built tree has an internal root and distinct leaf symbols (R38 (f)). -/
theorem built_node {t : HTree} (h : t.built = true) : ∃ l r, t = .node l r ∧ t.leaves.Nodup := by
  cases t with
  | leaf y => exact absurd h Bool.false_ne_true
  | node l r =>
    simp only [HTree.built, Bool.and_eq_true, decide_eq_true_eq] at h
    exact ⟨l, r, rfl, h.1⟩

end Sys2Proof.Machine

end

section
/-! SUPPORT. COMPRESS and DECOMPRESS (R100, R230, R231): the commands one after the other, what the stream between them is made
of, and that the bytes and MAGIC fix it. -/

namespace Sys2Proof.Machine

/-! ### The table, the tree and the codes of a byte sequence -/

/-- The frequency table counts the bytes, and the sentinel once (R132, R133). -/
structure Counts (bs : List (BitVec 8)) (freq : Vector Count 257) : Prop where
  byte : ∀ b : BitVec 8, freq[byteIdx b].toNat = tally bs (byteIdx b)
  sentinel : freq[sentinelIdx] = 1

/-- An entry of FREQ is a byte's or the sentinel's (R8, R28). -/
theorem eq_sentinel_or_byte (k : SymIdx) : k = sentinelIdx ∨ ∃ b, k = byteIdx b := by
  by_cases hk : k.val < 256
  · exact .inr ⟨BitVec.ofNat 8 k.val, Fin.ext (Nat.mod_eq_of_lt hk).symm⟩
  · exact .inl (Fin.ext (Nat.le_antisymm (Nat.le_of_lt_succ k.isLt) (Nat.not_lt.mp hk)))

theorem Counts.unique {bs : List (BitVec 8)} {f g : Vector Count 257} (hf : Counts bs f) (hg : Counts bs g) : f = g := by
  have hfg : ∀ k : SymIdx, f[k] = g[k] := by
    intro k
    rcases eq_sentinel_or_byte k with rfl | ⟨b, rfl⟩
    · exact hf.sentinel.trans hg.sentinel.symm
    · exact BitVec.eq_of_toNat_eq ((hf.byte b).trans (hg.byte b).symm)
  ext1 k hk
  exact hfg ⟨k, hk⟩

theorem Counts.sentinel_ne_zero {bs : List (BitVec 8)} {freq : Vector Count 257} (h : Counts bs freq) :
    freq[sentinelIdx] ≠ 0 := by
  rw [h.sentinel]
  decide

theorem Counts.byte_ne_zero {bs : List (BitVec 8)} {freq : Vector Count 257} (h : Counts bs freq) {b : BitVec 8}
    (hb : b ∈ bs) : freq[byteIdx b] ≠ 0 := by
  intro h0
  have htally : 0 < tally bs (byteIdx b) := List.length_pos_of_mem (List.mem_filter.mpr ⟨hb, beq_self_eq_true _⟩)
  rw [← h.byte, h0] at htally
  exact absurd htally (by decide)

/-- Which symbols a tree's code table has (R32). -/
theorem codesFor_entry {freq : Vector Count 257} {t : HTree} {c : CodeTable} (h : codesFor freq t c = true) (k : SymIdx) :
    c.entry[k] = (decide (symOf k ∈ t.leaves) && freq[k] != 0) := by
  have hk := List.all_eq_true.mp h k (List.mem_finRange k)
  rw [Bool.and_eq_true, beq_iff_eq] at hk
  exact hk.1

/-- Where leaf symbols are distinct, two tables of the tree write one payload. -/
theorem payload_unique {freq : Vector Count 257} {t : HTree} {c d : CodeTable} (hnd : t.leaves.Nodup)
    (hc : codesFor freq t c = true) (hd : codesFor freq t d = true) (hs : c.entry[sentinelIdx] = true)
    (bs : List (BitVec 8)) : payload c bs = payload d bs := by
  have hentry : ∀ k : SymIdx, c.entry[k] = d.entry[k] := fun k => (codesFor_entry hc k).trans (codesFor_entry hd k).symm
  have hcode : ∀ k : SymIdx, c.entry[k] = true → codeBits c k = codeBits d k := fun k hk =>
    congrArg Prod.fst (List.inj_on_of_nodup_map ((map_snd_paths t).symm ▸ hnd) (codeBits_mem_paths hc hk)
      (codeBits_mem_paths hd (hentry k ▸ hk)) rfl)
  have hbyte : ∀ b : BitVec 8, byteCode c b = byteCode d b := fun b => by
    rw [byteCode, byteCode, ← hentry]
    split
    · exact hcode _ ‹_›
    · rfl
  calc payload c bs = bs.flatMap (byteCode c) ++ codeBits c sentinelIdx := rfl
    _ = bs.flatMap (byteCode d) ++ codeBits d sentinelIdx := by rw [funext hbyte, hcode sentinelIdx hs]

/-- The table counts the bytes, BUILD makes the tree of the table, and the codes are the tree's. -/
structure Coded (bs : List (BitVec 8)) (freq : Vector Count 257) (t : HTree) (c : CodeTable) : Prop where
  counts : Counts bs freq
  made : BuildMakes freq t
  codes : codesFor freq t c = true

section
variable {bs : List (BitVec 8)} {freq freq' : Vector Count 257} {t t' : HTree} {c c' : CodeTable} (h : Coded bs freq t c)
include h

theorem Coded.tree : t.symsLegal = true ∧ t.size ≤ 513 ∧ t.built = true ∧
    ∀ k : SymIdx, freq[k] ≠ 0 → symOf k ∈ t.leaves :=
  h.made.tree h.counts.sentinel_ne_zero

theorem Coded.sentinel : c.entry[sentinelIdx] = true := by
  obtain ⟨-, -, hbuilt, -⟩ := h.tree
  exact sentinel_entry hbuilt h.codes h.counts.sentinel

/-- Every byte of the sequence has a code. -/
theorem Coded.byte : ∀ b ∈ bs, c.entry[byteIdx b] = true := by
  obtain ⟨-, -, -, hmem⟩ := h.tree
  intro b hb
  have hf := h.counts.byte_ne_zero hb
  rw [codesFor_entry h.codes, decide_eq_true (hmem _ hf), bne_iff_ne.mpr hf]
  rfl

/-- The bytes fix the tree and the payload (R231). -/
theorem Coded.unique (h' : Coded bs freq' t' c') : t = t' ∧ payload c bs = payload c' bs := by
  obtain rfl := h.counts.unique h'.counts
  obtain rfl := h.made.unique h.counts.sentinel_ne_zero h'.made
  obtain ⟨-, -, hbuilt, -⟩ := h.tree
  obtain ⟨-, -, -, hnd⟩ := built_node hbuilt
  exact ⟨rfl, payload_unique hnd h.codes h'.codes h.sentinel bs⟩

end

/-! ### Commands one after the other -/

theorem execAll_cons {i : Instr} {is : List Instr} {s t : State} (h : exec i s = .next t) :
    execAll (i :: is) s = execAll is t := by
  rw [execAll, h]

theorem Quiet.trans {s t u : State} (h : Quiet s t) (h' : Quiet t u) : Quiet s u :=
  ⟨h'.err, h'.inBits.trans h.inBits, h'.out.trans h.out, h'.params.trans h.params⟩

theorem restIn_of_attached {s : State} {b : List Bool} (h : s.inp = { bits := b, pos := 0 }) : s.restIn = b := by
  rw [State.restIn, h]
  rfl

/-- COUNT on bytes none of which overflows a count (R132). -/
theorem exec_count_counts {s : State} {bs : List (BitVec 8)} (he : s.flags.err = false) (hl : s.inp.bits.length < 2 ^ 64)
    (hb : bytesOf s.restIn = bs) (hmax : ∀ k, tally bs k ≤ 2 ^ s.params.wCount - 1) :
    ∃ u, exec .count s = .next u ∧ Quiet s u ∧ u.flags.freqValid = true ∧ Counts bs u.freq := by
  obtain ⟨freq, hx, hbyte, hsent⟩ := countTalliesTheInput s bs he hl hb hmax
  exact ⟨_, hx, ⟨rfl, rfl, rfl, rfl⟩, rfl, hbyte, hsent⟩

/-- BUILD and then DERIVE on a complete table that counts the bytes (R149, R161): the tree, valid, and its codes. -/
theorem exec_build_derive {s : State} {bs : List (BitVec 8)} (he : s.flags.err = false) (hv : s.flags.freqValid = true)
    (hc : Counts bs s.freq) : ∃ u v t, exec .build s = .next u ∧ exec .derive u = .next v ∧ Quiet s v ∧
      v.flags.treeValid = true ∧ v.flags.codesValid = true ∧ treeAt v t = true ∧ Coded bs v.freq t v.codes := by
  have hbuild := exec_build_eq he hv hc.sentinel_ne_zero
  obtain ⟨t, ht, -⟩ := buildMakesATree s _ he hv hc.sentinel_ne_zero hbuild
  exact ⟨_, _, t, hbuild, exec_derive_eq he rfl rfl ht, ⟨he, rfl, rfl, rfl⟩, rfl, rfl, ht, hc, ⟨s, _, he, hv, rfl, hbuild, ht⟩,
    (derivedCodes_recorded ht).codesFor⟩

/-- WRHDR, ENCODE and FLUSH on a tree with its codes: the magic, the header and the payload are appended (R80, R100). -/
theorem exec_wrhdr_encode_flush {s : State} {t : HTree} {bs : List (BitVec 8)} (he : s.flags.err = false)
    (hv : s.flags.treeValid = true) (hvc : s.flags.codesValid = true) (ho : s.out.closed = false) (ht : treeAt s t = true)
    (hl : s.inp.bits.length < 2 ^ 64) (hb : bytesOf s.inp.bits = bs) : ∃ u v w, exec .wrhdr s = .next u ∧
      exec .encode u = .next v ∧ exec .flush v = .next w ∧ w.flags.err = false ∧
      w.out.bits = s.out.bits ++ bitsOf 32 s.params.magic.toNat ++ t.header ++ payload s.codes bs :=
  ⟨_, _, _, wrhdrWritesMagicAndHeader s t he hv ho ht, encodeWritesThePayload _ bs he hvc ho hl hb, flushClosesOut _ he, he, rfl⟩

/-! ### The whole calls -/

/-- COMPRESS on the bits of bytes none of which overflows a count leaves on OUT the magic, the header of the bytes' tree and their
payload (R80, R100). -/
theorem execAll_compress {s : State} {bs : List (BitVec 8)} (he : s.flags.err = false)
    (hin : s.inp = { bits := bitsOfBytes bs, pos := 0 }) (hout : s.out = { bits := [], closed := false })
    (hlen : 8 * bs.length < 2 ^ 64) (hmax : ∀ k, tally bs k ≤ 2 ^ s.params.wCount - 1) :
    ∃ w freq t c, execAll (compressOpen ++ [.flush]) s = .next w ∧ w.flags.err = false ∧ Coded bs freq t c ∧
      w.out.bits = bitsOf 32 s.params.magic.toNat ++ (t.header ++ payload c bs) := by
  have hbits : s.inp.bits = bitsOfBytes bs := by rw [hin]
  have hbytes : bytesOf s.inp.bits = bs := by simpa [hbits] using bytesOf_bitsOfBytes bs (frag := []) (by decide)
  have hl : s.inp.bits.length < 2 ^ 64 := by rwa [hbits, length_bitsOfBytes]
  obtain ⟨s1, hx1, hq1, hv1, hcounts⟩ := exec_count_counts he hl (by rw [restIn_of_attached hin, ← hbits, hbytes]) hmax
  obtain ⟨s2, s3, t, hx2, hx3, hq3, hv3, hvc, ht, hcoded⟩ := exec_build_derive hq1.err hv1 hcounts
  obtain ⟨he3, hin3, hout3, hpar3⟩ := hq1.trans hq3
  obtain ⟨s4, s5, w, hx4, hx5, hx6, hw, hwo⟩ := exec_wrhdr_encode_flush he3 hv3 hvc (by rw [hout3, hout]) ht
    (by rw [hin3]; exact hl) (by rw [hin3, hbytes])
  refine ⟨w, _, t, _, ?_, hw, hcoded, by rw [hwo, hout3, hout, hpar3, List.nil_append, List.append_assoc]⟩
  calc execAll (compressOpen ++ [.flush]) s = execAll [.build, .derive, .wrhdr, .encode, .flush] s1 := execAll_cons hx1
    _ = execAll [.wrhdr, .encode, .flush] s3 := (execAll_cons hx2).trans (execAll_cons hx3)
    _ = execAll [.flush] s5 := (execAll_cons hx4).trans (execAll_cons hx5)
    _ = .next w := execAll_cons hx6

/-- DECOMPRESS up to its FLUSH on the magic, a header and a payload that COMPRESS can have made (R100, R230): the bytes are on
OUT. -/
theorem execAll_decompress {u : State} {bs : List (BitVec 8)} {freq : Vector Count 257} {t : HTree} {c : CodeTable}
    (h : Coded bs freq t c) (he : u.flags.err = false) (hl : u.inp.bits.length < 2 ^ 64) (ho : u.out.closed = false)
    (hb : u.restIn = bitsOf 32 u.params.magic.toNat ++ (t.header ++ payload c bs)) :
    ∃ v, execAll decompressOpen u = .next v ∧ v.flags.err = false ∧ v.flags.sent = true ∧
      v.out.bits = u.out.bits ++ bitsOfBytes bs := by
  obtain ⟨hlegal, hsize, hbuilt, -⟩ := h.tree
  obtain ⟨u1, hx1, h1⟩ := exec_rdhdr_takes he hl hb hlegal hsize
  obtain ⟨l, r, rfl, -⟩ := built_node hbuilt
  obtain ⟨v, hx2, h2⟩ := exec_decode_takes (rest := []) h.codes h.byte h.sentinel h1.err h1.treeValid (by rw [h1.out, ho])
    (by rw [h1.inBits]; exact hl) h1.tree (by rw [h1.restIn, List.append_nil])
  exact ⟨v, (execAll_cons hx1).trans (execAll_cons hx2), h2.err, h2.sent, by rw [h2.outBits, h1.out]⟩

end Sys2Proof.Machine

open Sys2Proof Sys2Proof.Machine

/-- Settles O42: the stream is the magic, the header of the bytes' tree and their payload, and DECOMPRESS takes it apart. -/
theorem roundTrip : Obligations.RoundTrip := by
  intro s bs he hin hout hlen hmax
  obtain ⟨w, freq, t, c, hx, hw, hcoded, hbits⟩ := execAll_compress he hin hout hlen hmax
  refine ⟨w, hx, hw, fun u hm heu hinu hl houtu => ?_⟩
  have hb : u.restIn = bitsOf 32 u.params.magic.toNat ++ (t.header ++ payload c bs) := by
    rw [restIn_of_attached hinu, hbits, hm]
  obtain ⟨v, hxv, hev, hsent, hout⟩ := execAll_decompress hcoded heu (by rw [hinu]; exact hl) (by rw [houtu]) hb
  have hv : v.out.bits = bitsOfBytes bs := by rw [hout, houtu, List.nil_append]
  exact ⟨v, _, hxv, hev, hsent, hv, flushClosesOut v hev, hev, hv⟩

/-- Settles O43: the bytes fix the table that COUNT makes, the table the tree that BUILD makes, and the tree the codes. -/
theorem compressionIsDeterministic : Obligations.CompressionIsDeterministic := by
  intro s s' bs he he' hin hin' hlen hout hout' hm hmax hmax'
  obtain ⟨w, freq, t, c, hx, -, hcoded, hbits⟩ := execAll_compress he hin hout hlen hmax
  obtain ⟨w', freq', t', c', hx', -, hcoded', hbits'⟩ :=
    execAll_compress he' (hin'.trans hin) (hout'.trans hout) hlen hmax'
  obtain ⟨ht, hp⟩ := hcoded.unique hcoded'
  exact ⟨w, w', hx, hx', by rw [hbits, hbits', hm, ht, hp]⟩

end

section
/-! SUPPORT. The capture (R250): which errors a command can raise (R113, R240), and that OUT_CLOSED stays where one is raised
(R244). -/

namespace Sys2Proof.Machine

/-! ### What each check and each body can raise -/

/-- A check of R113 raises an error R240 lists for its command. -/
theorem raisedBy_of_precondition {i : Instr} {s : State} {e : ErrCode} (h : precondition i s = some e) : i ∈ raisedBy e := by
  cases i <;> simp only [precondition, reduceCtorEq] at h
  case build | derive =>
    split at h <;> cases h
    decide
  all_goals
    split at h
    · cases h
      decide
    · split at h <;> cases h
      decide

/-- COUNT's pass raises E_COUNT_OVF only (R134). -/
theorem countLoop_raised {fuel : Nat} {s u : State} {e : ErrCode} (h : countLoop fuel s = .raised e u) : e = .countOvf := by
  induction fuel generalizing s with
  | zero => cases h
  | succ fuel ih =>
    rw [countLoop] at h
    split at h
    · cases h
    · split at h
      · cases h
        rfl
      · exact ih h

/-- ENCODE's pass raises nothing (R202). -/
theorem encodeLoop_not_raised {fuel : Nat} {s u : State} {e : ErrCode} : encodeLoop fuel s ≠ .raised e u := by
  induction fuel generalizing s with
  | zero => nofun
  | succ fuel ih =>
    rw [encodeLoop]
    split
    · nofun
    · split
      · exact ih
      · exact ih

/-- DECODE's loop raises E_PAY_EOS only (R213), and never closes OUT. -/
theorem decodeLoop_raised {fuel : Nat} {ptr : NodeIdx} {s u : State} {e : ErrCode} (h : decodeLoop fuel ptr s = .raised e u) :
    e = .payEos ∧ u.out.closed = s.out.closed := by
  induction fuel generalizing s ptr with
  | zero => cases h
  | succ fuel ih =>
    rw [decodeLoop] at h
    cases hr : readBits 1 s with
    | none =>
      rw [hr] at h
      cases h
      exact ⟨rfl, rfl⟩
    | some p =>
      rw [hr] at h
      rw [← readBits_out hr]
      dsimp only at h
      split at h
      · cases h
      · split at h
        · cases h
        · split at h
          · split at h
            · cases h
            · simpa using ih h
          · exact ih h

/-- One call of `Des()` raises one of RDHDR's errors (R184 to R186). -/
theorem desToken_raised {stack : List HdrFrame} {s u : State} {e : ErrCode} (h : desToken stack s = .raised e u) :
    .rdhdr ∈ raisedBy e := by
  rw [desToken] at h
  split at h
  · cases h
    decide
  · split at h
    · cases h
      decide
    · split at h
      · cases h
      · split at h
        · cases h
          decide
        · split at h <;> cases h
          decide

theorem headerLoop_raised {fuel : Nat} {s u : State} {e : ErrCode} (h : headerLoop fuel s = .raised e u) :
    .rdhdr ∈ raisedBy e := by
  induction fuel generalizing s with
  | zero => cases h
  | succ fuel ih =>
    rw [headerLoop] at h
    split at h
    · cases h
    · cases hd : desToken _ s with
      | done t =>
        rw [hd] at h
        exact ih h
      | raised e' t =>
        rw [hd] at h
        cases h
        exact desToken_raised hd
      | broken f =>
        rw [hd] at h
        cases h

theorem Ran.Ends.raised {D E : State → Prop} {r : Ran} {e : ErrCode} {u : State} (h : r.Ends D E) (hr : r = .raised e u) :
    E u := by
  subst hr
  exact h

theorem countBody_raised {s u : State} {e : ErrCode} (h : countBody s = .raised e u) : e = .countOvf := by
  rw [countBody] at h
  split at h <;> cases h
  exact countLoop_raised ‹_›

theorem wrhdrBody_not_raised {s u : State} {e : ErrCode} : wrhdrBody s ≠ .raised e u := by
  rw [wrhdrBody]
  split <;> nofun

theorem rdhdrBody_raised {s u : State} {e : ErrCode} (h : rdhdrBody s = .raised e u) : .rdhdr ∈ raisedBy e := by
  rw [rdhdrBody] at h
  split at h
  · cases h
    decide
  · split at h
    · cases h
      decide
    · exact headerLoop_raised h

theorem encodeBody_not_raised {s u : State} {e : ErrCode} : encodeBody s ≠ .raised e u := by
  rw [encodeBody]
  split
  · nofun
  · rename_i hl
    exact absurd hl encodeLoop_not_raised
  · nofun

theorem decodeBody_raised {s u : State} {e : ErrCode} (h : decodeBody s = .raised e u) :
    .decode ∈ raisedBy e ∧ u.out.closed = s.out.closed := by
  rw [decodeBody] at h
  split at h
  · cases h
  · split at h
    · cases h
      exact ⟨by decide, rfl⟩
    · obtain ⟨rfl, ho⟩ := decodeLoop_raised h
      exact ⟨by decide, ho⟩

/-- A body raises an error R240 lists for its command, and leaves OUT_CLOSED as it was (R244). -/
theorem bodyOf_raised {i : Instr} {s u : State} {e : ErrCode} (h : bodyOf i s = .raised e u) :
    i ∈ raisedBy e ∧ u.out.closed = s.out.closed := by
  cases i
  case count =>
    have hu := (countBody_ends s).raised h
    rw [countBody_raised h]
    exact ⟨by decide, by rw [hu.out]; rfl⟩
  case build => exact ((buildBody_ends s).raised h).elim
  case derive => exact ((deriveBody_ends s).raised h).elim
  case wrhdr => exact absurd h wrhdrBody_not_raised
  case rdhdr => exact ⟨rdhdrBody_raised h, by rw [((rdhdrBody_ends s).raised h).out]; rfl⟩
  case encode => exact absurd h encodeBody_not_raised
  case decode => exact decodeBody_raised h
  all_goals cases h

/-! ### The capture -/

/-- The flags a capture leaves where the prologue has cleared DONE and SENT (R112, R250). -/
theorem raise_flags_eq {e : ErrCode} {s : State} (hd : s.flags.done = false) (hs : s.flags.sent = false) :
    (raise e s).flags = { Flags.reset with err := true } := by
  simp [Flags.dropValid, Flags.reset, hd, hs]

/-- A command that ends by an error has captured one that R240 lists for it: its check's (R113), or its body's. -/
theorem exec_failed {i : Instr} {s t : State} (hi : i.isCommand = true) (he : s.flags.err = false) (h : exec i s = .next t)
    (ht : t.flags.err = true) : ∃ w e u, encode i = .command w ∧ i ∈ raisedBy e ∧ Raised (prologue w s) u ∧
      u.out.closed = s.out.closed ∧ t = raise e u := by
  have hn : i ≠ .nop := by
    rintro rfl
    cases h
    exact absurd ht (by simp [he])
  obtain ⟨w, hw, -, hx⟩ := exec_eq hi hn
  have hb := bodyOf_ends i (prologue w s)
  rcases runCommand_next ((hx s).symm.trans h) with ⟨hs, -, -⟩ | ⟨e, hp, rfl⟩ | ⟨e, u, -, hu, rfl⟩ | ⟨u, -, hu, rfl⟩
  · exact absurd hs (by simp [he])
  · exact ⟨w, e, _, hw, raisedBy_of_precondition hp, ⟨.refl _, rfl, rfl⟩, rfl, rfl⟩
  · obtain ⟨hr, ho⟩ := bodyOf_raised hu
    exact ⟨w, e, u, hw, hr, hb.raised hu, ho, rfl⟩
  · rw [hu] at hb
    have hdone : Done i (prologue w s) u := hb
    simp [hdone.flags, flagsAfter_err, he] at ht

end Sys2Proof.Machine

open Sys2Proof Sys2Proof.Machine

/-- Settles O9: the check or the body that failed names the error, and the capture writes its registers. -/
theorem failedCommandIsCaptured : Obligations.FailedCommandIsCaptured := by
  intro i s t hi he h ht
  obtain ⟨w, e, u, hw, hr, hu, ho, rfl⟩ := exec_failed hi he h ht
  refine ⟨raise_flags_eq hu.done hu.sent, ?_, rfl, ho, hu.params, e, hr, rfl⟩
  rw [hw, raise_lastCmd, hu.lastCmd]
  rfl

/-- Settles O8: the table error by error, and the flags the only field whose value needs the prologue. -/
theorem captureWritesTheErrorState : Obligations.CaptureWritesTheErrorState := by
  refine ⟨by decide, fun e s hd hs => ?_⟩
  rw [← raise_flags_eq (e := e) hd hs]
  rfl

end

section
/-! SUPPORT. The host's events at the queue's head that the machine does not execute: reset (R270) and the stream actions
(R280). -/

namespace Sys2Proof.Machine

/-- The reset input is the step's event at any time (R270). -/
theorem step_reset {s : State} {q : List HostAction} (hq : s.host.queue = .reset :: q) :
    step s = .next (hardReset (popHost s q)) := by
  cases hb : s.flags.busy <;> simp [step, nextEvent, hb, nextAtBoundary, nextWhileBusy, hq, hostAct]

/-- At a boundary every host action but a write to CMD is the step's event, with `hostAct`'s effect (R67, R280). -/
theorem step_hostAct {s : State} {a : HostAction} {q : List HostAction} (hb : s.flags.busy = false)
    (hq : s.host.queue = a :: q) (ha : ∀ w, a ≠ .memWrite cmdAddr w) : step s = hostAct a (popHost s q) := by
  rcases step_boundary hb with ⟨h, -⟩ | ⟨w, _, _, h, -⟩ | ⟨w, _, _, h, -⟩ | ⟨b, q', h, -, hx⟩ <;>
    rw [hq] at h <;> cases h
  · exact absurd rfl (ha w)
  · exact absurd rfl (ha w)
  · exact hx

end Sys2Proof.Machine

open Sys2Proof Sys2Proof.Machine

/-- Settles O18: the arrays R39 leaves unspecified are those `forgetArrays` draws. -/
theorem hardResetKeepsTheStreams : Obligations.HardResetKeepsTheStreams := fun s _ hq =>
  ⟨(forgetArrays s).freq, (forgetArrays s).node, (forgetArrays s).codes.len, (forgetArrays s).codes.val, step_reset hq⟩

/-- Settles O59: each action is the boundary's event, and AttachIn alone looks at what it is given. -/
theorem attachReplacesTheStreams : Obligations.AttachReplacesTheStreams := by
  refine fun s b q hb => ⟨fun hq hl => ?_, fun hq hl => ?_, fun hq => step_hostAct hb hq nofun,
    fun hq => step_hostAct hb hq nofun⟩
  all_goals rw [step_hostAct hb hq nofun, hostAct]
  · exact if_pos hl
  · exact if_neg (Nat.not_lt.mpr hl)

end
